-- ==== Sys2Proof/Word.lean ====
section
/-! DEFINITION. The word of the SEQ3 filter core and the names the spec numbers: channels, filter kinds, parameter cells. -/

namespace Sys2Proof

/-- Every port word and register is `W = 32` bits wide (00_scope.md R8, R10). -/
abbrev Word := BitVec 32

/-- Channels: 0 is left, 1 is right (00_scope.md R11, 10_state.md R20). -/
inductive Chan where
  | left
  | right
  deriving DecidableEq, Repr

/-- The two kinds of cut bank (00_scope.md R11; 41_coefficient_generator.md R126: exactly two). -/
inductive Kind where
  | hp
  | lp
  deriving DecidableEq, Repr

/-- The seven parameter cells, in cell order 0..6 (20_memory.md R61). -/
inductive Cell where
  | hpFreq
  | lpFreq
  | bellFreq
  | bellGain
  | bellQ
  | hpOrder
  | lpOrder
  deriving DecidableEq, Repr

end Sys2Proof
end

