-- ==== Sys2Proof/Config.lean ====
section
/-! DEFINITION. What is fixed for the machine (the bypass policy) and the free values the spec leaves open
(a produced NaN, the elementary functions and their error bound, what is undefined under REAL). A free value has no body: nothing can be proved of it. -/

namespace Sys2Proof

/-- What a bypassed stage does to its own delay registers (42_stage_bank_chain.md R143). -/
inductive BypassPolicy where
  | hold
  | advance
  | reset
  deriving DecidableEq, Repr

/-- Which instance of the open parameter `ELEM` a run uses (40_numerics.md R110 to R112): the reference instance `CR`,
or an implementation of which only the properties of R111 are known. -/
inductive ElemChoice where
  | reference
  | implementation
  deriving DecidableEq, Repr

namespace Config

/-- `BYPASS_POLICY` of this hardware (42_stage_bank_chain.md R143, 90_conflicts.md C3). -/
def bypassPolicy : BypassPolicy := .hold

/-- FREE VALUE (notes/assumptions/3.md): the word behind the `n`-th NaN the arithmetic produces
(40_numerics.md R106: "a model treats the NaN's sign and payload as a draw"). -/
opaque nanDraw : Nat → BitVec 32

/-- FREE VALUE (notes/assumptions/8.md): `ELEM_ULP` of the implementation, as a numerator and a denominator
(40_numerics.md R111, E-ACC). -/
opaque elemUlp : Nat × Nat

/-- FREE VALUE (notes/assumptions/5.md, 9.md): an implementation's `TANPI`. -/
opaque tanpi : BitVec 32 → BitVec 32

/-- FREE VALUE (notes/assumptions/5.md, 9.md): an implementation's `COS2PI`. -/
opaque cos2pi : BitVec 32 → BitVec 32

/-- FREE VALUE (notes/assumptions/5.md, 9.md): an implementation's `SIN2PI`. -/
opaque sin2pi : BitVec 32 → BitVec 32

/-- FREE VALUE (notes/assumptions/5.md, 9.md): an implementation's `DB40`. -/
opaque db40 : BitVec 32 → BitVec 32

/-- FREE VALUE (notes/assumptions/27.md): under REAL, the quotient of a number and 0, which 40_numerics.md R113 does not
state. -/
noncomputable opaque realDivZero : ℝ → ℝ

/-- FREE VALUE (notes/assumptions/27.md): under REAL, `TANPI` at a pole of the tangent, where R111 says only that it is some
`Num`. -/
noncomputable opaque realTanPole : ℝ → ℝ

/-- FREE VALUE (notes/assumptions/27.md): under REAL, `ofWord` of a NaN or an infinity, which R113 leaves undefined. -/
noncomputable opaque realOfWord : BitVec 32 → ℝ

end Config

end Sys2Proof
end

