-- ==== Sys2Proof/Machine/F32.lean ====
section
/-! DEFINITION. IEEE 754 binary32 (40_numerics.md R101 to R108): every finite value is a whole number of units of 2^-149,
operations compute exactly in those units and round once, to nearest with ties to even. -/

namespace Sys2Proof.Machine.F32

/-- Bits [30:23], the biased exponent (R101). -/
def expField (w : Word) : Nat := (w.extractLsb' 23 8).toNat

/-- Bits [22:0], the fraction (R101). -/
def frac (w : Word) : Nat := (w.extractLsb' 0 23).toNat

/-- Bit 31, the sign (R101). -/
def sign (w : Word) : Bool := w.msb

/-- Exponent 255, fraction not 0 (R101). -/
def isNaN (w : Word) : Bool := expField w == 255 && frac w != 0

/-- Exponent 255, fraction 0 (R101). -/
def isInf (w : Word) : Bool := expField w == 255 && frac w == 0

/-- `fisfinite`: the exponent field is not 255 (R107). -/
def isFinite (w : Word) : Bool := expField w != 255

/-- The magnitude in units of 2^-149: the fraction alone when the exponent is 0 (zero and the subnormals, R101, R105).
An infinity gets a magnitude above every finite one, so that comparisons may use it (R107). -/
def mag (w : Word) : Nat :=
  if expField w = 0 then frac w else (2 ^ 23 + frac w) * 2 ^ (expField w - 1)

/-- The signed value in units of 2^-149. -/
def val (w : Word) : Int := if sign w then -(mag w : Int) else (mag w : Int)

/-- The word of a sign and of the 31 low bits. -/
def pack (neg : Bool) (m : Nat) : Word := BitVec.ofNat 32 (m + if neg then 2 ^ 31 else 0)

/-- The 31 low bits of an infinity. -/
def infBits : Nat := 0x7F800000

/-- The power of two that is the spacing, in units of 2^-149, of the binary32 numbers around `n/d` units. -/
def quantum (n d : Nat) : Nat := Nat.log2 (n / d) - 23

/-- `n / d` rounded to a whole number, to nearest with ties to even. -/
def divEven (n d : Nat) : Nat :=
  let i := n / d
  let r := n % d
  if 2 * r < d then i else if d < 2 * r then i + 1 else i + i % 2

/-- The 31 low bits of the binary32 nearest to `n / d` units of 2^-149, ties to even; a value too large gives an
infinity (R102). One carry out of the fraction moves into the exponent by itself. -/
def round (n d : Nat) : Nat :=
  let q := quantum n d
  min (q * 2 ^ 23 + divEven n (d * 2 ^ q)) infBits

/-- The NaN of draw `d`: any word of exponent 255 and fraction not 0 (R106; notes/assumptions/3.md). -/
def nan (d : Nat) : Word :=
  if isNaN (Config.nanDraw d) then Config.nanDraw d else 0x7FC00000#32

/-- The sign bit inverted. -/
def neg (w : Word) : Word := w ^^^ 0x80000000#32

/-- Addition (R102); an exact zero sum is +0 unless both operands are −0 (R104). -/
def add (d : Nat) (a b : Word) : Word :=
  if isNaN a || isNaN b then nan d
  else if isInf a then (if isInf b && sign a != sign b then nan d else a)
  else if isInf b then b
  else if val a + val b = 0 then pack (sign a && sign b) 0
  else pack (decide (val a + val b < 0)) (round (val a + val b).natAbs 1)

/-- Subtraction (R102, R104): the sum with the second operand's sign inverted. -/
def sub (d : Nat) (a b : Word) : Word := add d a (neg b)

/-- Multiplication (R102); the sign is the exclusive-or of the signs (R104). -/
def mul (d : Nat) (a b : Word) : Word :=
  if isNaN a || isNaN b then nan d
  else if isInf a || isInf b then
    (if mag a = 0 ∨ mag b = 0 then nan d else pack (sign a != sign b) infBits)
  else pack (sign a != sign b) (round (mag a * mag b) (2 ^ 149))

/-- Division (R102); the sign is the exclusive-or of the signs (R104). -/
def div (d : Nat) (a b : Word) : Word :=
  if isNaN a || isNaN b then nan d
  else if isInf a then (if isInf b then nan d else pack (sign a != sign b) infBits)
  else if isInf b then pack (sign a != sign b) 0
  else if mag b = 0 then (if mag a = 0 then nan d else pack (sign a != sign b) infBits)
  else pack (sign a != sign b) (round (mag a * 2 ^ 149) (mag b))

/-- `flt` (R107): false when either is NaN; −0 equals +0. -/
def lt (a b : Word) : Bool := !isNaN a && !isNaN b && decide (val a < val b)

/-- `fle` (R107). -/
def le (a b : Word) : Bool := !isNaN a && !isNaN b && decide (val a ≤ val b)

/-- `ZERO` (R108). -/
def zero : Word := 0x00000000#32

/-- `ONE` (R108). -/
def one : Word := 0x3F800000#32

/-- `TWO` (R108). -/
def two : Word := 0x40000000#32

/-- `NEG_TWO` (R108). -/
def negTwo : Word := 0xC0000000#32

/-- `HALF` (R108). -/
def half : Word := 0x3F000000#32

/-- The binary32 nearest to the rational `±n/d`, ties to even: the operand `f:<decimal>` of 30_encoding.md R90. -/
def ofRat (negative : Bool) (n d : Nat) : Word := pack negative (round (n * 2 ^ 149) d)

end Sys2Proof.Machine.F32
end

