-- ==== Sys2Proof/Machine/Num.lean ====
section
/-! DEFINITION. The configuration record NUM and the elementary-function record ELEM (40_numerics.md R100, R110), over
which every rule of the coefficient generator and of the datapath is written once. -/

namespace Sys2Proof.Machine

/-- `ELEM`: four total functions of one argument (R110; E-FUN of R111 holds by their type). -/
structure Elem (α : Type) where
  /-- ideal value tan(π·w) -/
  tanpi : α → α
  /-- ideal value cos(2π·w) -/
  cos2pi : α → α
  /-- ideal value sin(2π·w) -/
  sin2pi : α → α
  /-- ideal value 10^(g/40) -/
  db40 : α → α

/-- `NUM` (R100), with the constants `QINV[N][·]` of the coefficient generator (41_coefficient_generator.md R123), which
R120 counts to the configuration. The `Nat` argument of an operation is the index of the NaN draw it uses if its result
is a NaN (R106); an operation whose result is a number does not depend on it. -/
structure Num (α : Type) where
  zero : α
  one : α
  two : α
  negTwo : α
  half : α
  fadd : Nat → α → α → α
  fsub : Nat → α → α → α
  fmul : Nat → α → α → α
  fdiv : Nat → α → α → α
  flt : α → α → Bool
  fle : α → α → Bool
  fisfinite : α → Bool
  ofWord : Word → α
  toWord : α → Word
  elem : Elem α
  qinv : Nat → List α

end Sys2Proof.Machine
end

