-- ==== Sys2Proof/Machine/Elem.lean ====
section
/-! DEFINITION. The elementary functions under F32 (40_numerics.md R110 to R112): the reference instance CR, computed by
power series in fixed point, and an implementation that is free within the properties of R111. -/

namespace Sys2Proof.Machine.Elem

/-- Fraction bits of the fixed-point numbers of this file. -/
def fixBits : Nat := 320

/-- π in fixed point, rounded down (notes/assumptions/7.md). -/
def piFix : Nat := 0x3243f6a8885a308d313198a2e03707344a4093822299f31d0082efa98ec4e6c89452821e638d01377

/-- The natural logarithm of 2 in fixed point, rounded down (notes/assumptions/7.md). -/
def ln2Fix : Nat := 0xb17217f7d1cf79abc9e3b39803f2f6af40f343267298b62d8a0d175b8baafa2be7b876206debac98

/-- The natural logarithm of 10 in fixed point, rounded down (notes/assumptions/7.md). -/
def ln10Fix : Nat := 0x24d763776aaa2b05ba95b58ae0b4c28a38a3fb3e76977e43a0f187a0807c0b5ca58bc0b5ec6a04173

/-- Product of two fixed-point numbers. -/
def mulFix (a b : Int) : Int := a * b / 2 ^ fixBits

/-- `term − term·x²/((k+1)(k+2)) + …`, the alternating series of sine (`k = 1`) and cosine (`k = 0`). -/
def trigSeries (x2 : Int) : Nat → Nat → Int → Int
  | 0, _, term => term
  | n + 1, k, term => term + trigSeries x2 n (k + 2) (-(mulFix term x2 / ((k + 1) * (k + 2) : Nat)))

/-- `term + term·r/(k+1) + …`, the series of the exponential function. -/
def expSeries (r : Int) : Nat → Nat → Int → Int
  | 0, _, term => term
  | n + 1, k, term => term + expSeries r n (k + 1) (mulFix term r / ((k + 1 : Nat) : Int))

/-- sin x for `0 ≤ x ≤ π` in fixed point. -/
def sinFix (x : Int) : Int := trigSeries (mulFix x x) 60 1 x

/-- cos x for `0 ≤ x ≤ π` in fixed point. -/
def cosFix (x : Int) : Int := trigSeries (mulFix x x) 60 0 (2 ^ fixBits)

/-- `m·π·w` in fixed point for a binary32 `w ≥ 0`. -/
def angleFix (m : Nat) (w : Word) : Int := ((m * piFix * F32.mag w) / 2 ^ 149 : Nat)

/-- The largest 31 low bits of a finite word. -/
def maxFinite : Nat := 0x7F7FFFFF

/-- An ideal value of R110 in the fixed point of this file: `±num/den` units of 2^-149 (notes/assumptions/6.md). -/
structure Ideal where
  negative : Bool
  num : Nat
  den : Nat
  deriving DecidableEq, Repr

/-- `0 ≤ w < 1/2`, the range column of TANPI, COS2PI and SIN2PI (R110). -/
def inHalf (w : Word) : Bool :=
  F32.isFinite w && decide (0 ≤ F32.val w) && decide (F32.val w < 2 ^ 148)

/-- `w = 1/4`, the one argument besides ±0 at which the tangent, the sine and the cosine are binary fractions: 1, 1, 0. -/
def isQuarter (w : Word) : Bool := decide (F32.val w = 2 ^ 147)

/-- tan(π·w) as the ratio of sine and cosine. -/
def tanIdeal (w : Word) : Ideal :=
  if isQuarter w then { negative := false, num := 2 ^ 149, den := 1 }
  else { negative := false, num := (sinFix (angleFix 1 w)).toNat * 2 ^ 149, den := (cosFix (angleFix 1 w)).toNat }

/-- cos(2π·w). -/
def cosIdeal (w : Word) : Ideal :=
  if isQuarter w then { negative := false, num := 0, den := 1 }
  else
    let c := cosFix (angleFix 2 w)
    { negative := decide (c < 0), num := c.natAbs * 2 ^ 149, den := 2 ^ fixBits }

/-- sin(2π·w). -/
def sinIdeal (w : Word) : Ideal :=
  if isQuarter w then { negative := false, num := 2 ^ 149, den := 1 }
  else { negative := false, num := (sinFix (angleFix 2 w)).toNat * 2 ^ 149, den := 2 ^ fixBits }

/-- The exponents of two an ideal value of DB40 is given with. Beyond them only the exponent is cut, which leaves the value
out of every binary32 range and its distance from a word, in its own units in the last place, as it is up to 2^-7000
(notes/assumptions/6.md). -/
def exponentBound : Int := 8192

/-- 10^(g/40). Where `g/40` is a whole number `n` it is 10^n, exact (of magnitude up to 10^1000); elsewhere, with
`y = g·ln 10/40 = k·ln 2 + r`, it is `exp r · 2^k`. -/
def dbIdeal (g : Word) : Ideal :=
  let n : Int := F32.val g / (40 * 2 ^ 149)
  if F32.val g % (40 * 2 ^ 149) = 0 ∧ n.natAbs ≤ 1000 then
    if 0 ≤ n then { negative := false, num := 10 ^ n.natAbs * 2 ^ 149, den := 1 }
    else { negative := false, num := 2 ^ 149, den := 10 ^ n.natAbs }
  else
    let y : Int := F32.val g * ln10Fix / (40 * 2 ^ 149)
    let k : Int := y / ln2Fix
    let e := (expSeries (y - k * ln2Fix) 64 0 (2 ^ fixBits)).toNat
    let shift := max (-exponentBound) (min exponentBound (k + 149))
    if 0 ≤ shift then { negative := false, num := e * 2 ^ shift.natAbs, den := 2 ^ fixBits }
    else { negative := false, num := e, den := 2 ^ (fixBits + shift.natAbs) }

/-- The binary32 nearest to an ideal value (R112), its 31 low bits kept within the bounds E-FINITE gives them (R111). A
result of magnitude zero is +0.0 (notes/assumptions/10.md). -/
def nearest (least greatest : Nat) (i : Ideal) : Word :=
  let m := max least (min greatest (F32.round i.num i.den))
  F32.pack (i.negative && m != 0) m

/-- `TANPI` of the instance CR inside its range column (R112). At ±0.0 the result is +0.0: the rule fixes the value 0
and not its sign, which is the model's choice (notes/assumptions/10.md). -/
def tanpiCR (w : Word) : Word := nearest 0 maxFinite (tanIdeal w)

/-- `COS2PI` of the instance CR inside its range column (R112); at 1/4 it is +0.0, the model's choice
(notes/assumptions/10.md). -/
def cos2piCR (w : Word) : Word := nearest 0 0x3F800000 (cosIdeal w)

/-- `SIN2PI` of the instance CR inside its range column (R112). At ±0.0 the result is +0.0: the rule fixes the value 0
and not its sign, which is the model's choice (notes/assumptions/10.md). -/
def sin2piCR (w : Word) : Word := nearest 0 maxFinite (sinIdeal w)

/-- `DB40` of the instance CR for a finite gain (R112); by E-FINITE the result is finite and not zero for every finite
gain (R111; notes/assumptions/10.md). -/
def db40CR (g : Word) : Word := nearest 1 maxFinite (dbIdeal g)

/-- The instance CR (R112). Outside the range column the result is some `Num` (R111): the free values of Config. -/
def reference : Elem Word where
  tanpi w := if inHalf w then tanpiCR w else Config.tanpi w
  cos2pi w := if inHalf w then cos2piCR w else Config.cos2pi w
  sin2pi w := if inHalf w then sin2piCR w else Config.sin2pi w
  db40 g := if F32.isFinite g then db40CR g else Config.db40 g

/-- One unit in the last place of a word, in units of 2^-149. -/
def ulp (w : Word) : Nat := 2 ^ (F32.expField w - 1)

/-- An ideal value with its sign, in units of `1/den`. -/
def Ideal.signed (i : Ideal) : Int := if i.negative then -(i.num : Int) else (i.num : Int)

/-- One unit in the last place of an ideal value: the spacing of the binary32 numbers around it, 2^-149 at 0 and below
the normal range. -/
def Ideal.ulp (i : Ideal) : Nat := 2 ^ F32.quantum i.num i.den

/-- E-ACC (R111): a result is within `u` units in the last place of the ideal value, `u` a numerator and a denominator. -/
def within (u : Nat × Nat) (r : Word) (i : Ideal) : Bool :=
  decide ((F32.val r * i.den - i.signed).natAbs * u.2 ≤ u.1 * (i.ulp * i.den))

/-- `ELEM_ULP` of the implementation. An implementation within less than 1/2 is within 1/2, so no bound below 1/2 is
needed (notes/assumptions/8.md). -/
def elemUlp : Nat × Nat :=
  if 0 < Config.elemUlp.2 ∧ Config.elemUlp.2 ≤ 2 * Config.elemUlp.1 then Config.elemUlp else (1, 2)

/-- E-ACC for a result beside the CR word, which is the nearest that E-FINITE allows: where the CR word itself is not
within `ELEM_ULP` no word meets E-FINITE and E-ACC together, and E-FINITE alone remains (notes/assumptions/8.md). -/
def accurate (r cr : Word) (i : Ideal) : Bool := within elemUlp r i || !within elemUlp cr i

/-- E-FINITE and E-ACC for a result of TANPI or SIN2PI in range (R111). -/
def okNonneg (r cr : Word) (i : Ideal) : Bool := F32.isFinite r && decide (0 ≤ F32.val r) && accurate r cr i

/-- E-FINITE and E-ACC for a result of COS2PI in range (R111). -/
def okCos (r cr : Word) (i : Ideal) : Bool :=
  F32.isFinite r && decide ((F32.val r).natAbs ≤ 2 ^ 149) && accurate r cr i

/-- E-FINITE, E-UNITY and E-ACC for a result of DB40 at a finite gain `g` (R111). -/
def okDb40 (g r cr : Word) : Bool :=
  F32.isFinite r && decide (0 < F32.val r) && accurate r cr (dbIdeal g) &&
    (decide (F32.val g ≠ 0) || r == F32.one)

/-- An implementation's ELEM: in the range column any function with the properties of R111 (its free value where that
has them), outside it the free value as it is. -/
def implementation : Elem Word where
  tanpi w :=
    if inHalf w && !okNonneg (Config.tanpi w) (tanpiCR w) (tanIdeal w) then tanpiCR w else Config.tanpi w
  cos2pi w :=
    if inHalf w && !okCos (Config.cos2pi w) (cos2piCR w) (cosIdeal w) then cos2piCR w else Config.cos2pi w
  sin2pi w :=
    if inHalf w && !okNonneg (Config.sin2pi w) (sin2piCR w) (sinIdeal w) then sin2piCR w else Config.sin2pi w
  db40 g :=
    if F32.isFinite g && !okDb40 g (Config.db40 g) (db40CR g) then db40CR g else Config.db40 g

/-- The instance a run uses. -/
def ofChoice : ElemChoice → Elem Word
  | .reference => reference
  | .implementation => implementation

end Sys2Proof.Machine.Elem
end

