-- ==== Sys2Proof/Machine/Registers.lean ====
section
/-! DEFINITION. The datapath's registers as data: coefficients, biquad stages, cut banks and the nine-stage chain of one
channel (10_state.md R20 to R24), over any type of numbers. -/

namespace Sys2Proof.Machine

/-- The five coefficients of one section, a0 normalised to 1 (10_state.md R21). -/
structure Coef (α : Type) where
  b0 : α
  b1 : α
  b2 : α
  a1 : α
  a2 : α
  deriving DecidableEq, Repr

/-- One second-order section: its coefficients and its two delay registers (R21, R22). -/
structure Biquad (α : Type) where
  coef : Coef α
  z1 : α
  z2 : α
  deriving DecidableEq, Repr

/-- One section of a cut bank with its bypass flag, `true` for bypassed (R23). -/
structure CutStage (α : Type) where
  bq : Biquad α
  byp : Bool
  deriving DecidableEq, Repr

/-- A cut filter bank: exactly four sections (00_scope.md R7). -/
structure Bank (α : Type) where
  s0 : CutStage α
  s1 : CutStage α
  s2 : CutStage α
  s3 : CutStage α
  deriving DecidableEq, Repr

/-- One channel's Mono Chain: the highpass bank (stages 0 to 3), the bell (stage 4, which has no bypass storage, R24),
the lowpass bank (stages 5 to 8) (R20). -/
structure Chain (α : Type) where
  hp : Bank α
  bell : Biquad α
  lp : Bank α
  deriving DecidableEq, Repr

end Sys2Proof.Machine
end

