-- ==== Sys2Proof/Machine/CoefGen.lean ====
section
/-! DEFINITION. The instance F32 of NUM and the coefficient generator: QINV, BELL_COEF, BW_SECTION, BW_COEF
(41_coefficient_generator.md). -/

namespace Sys2Proof.Machine

/-- The `QINV` ROM: for `N` in 1..4 the `N` stored words of R123, `k` ascending. -/
def qinvF32 : Nat → List Word
  | 1 => [0x3FB504F3#32]
  | 2 => [0x3FEC835E#32, 0x3F43EF15#32]
  | 3 => [0x3FF746EA#32, 0x3FB504F3#32, 0x3F0483EE#32]
  | 4 => [0x3FFB14BE#32, 0x3FD4DB31#32, 0x3F8E39DA#32, 0x3EC7C5C2#32]
  | _ => []

/-- `NUM = F32`, the arithmetic of this hardware (40_numerics.md R100, R101), with an instance of ELEM. -/
def f32 (elem : Elem Word) : Num Word where
  zero := F32.zero
  one := F32.one
  two := F32.two
  negTwo := F32.negTwo
  half := F32.half
  fadd := F32.add
  fsub := F32.sub
  fmul := F32.mul
  fdiv := F32.div
  flt := F32.lt
  fle := F32.le
  fisfinite := F32.isFinite
  ofWord := id
  toWord := id
  elem := elem
  qinv := qinvF32

/-- `BELL_COEF(fs, f, q, g)` (R121): the RBJ peaking filter. `a1` is "the same word as b1", computed once
(notes/assumptions/15.md). Uses draws `d` to `d + 13`. -/
def bellCoef {α : Type} (N : Num α) (d : Nat) (fs f q g : α) : Coef α :=
  let w := N.fdiv d f fs
  let A := N.elem.db40 g
  let cs := N.elem.cos2pi w
  let sn := N.elem.sin2pi w
  let al := N.fdiv (d + 2) sn (N.fmul (d + 1) N.two q)
  let aA := N.fmul (d + 3) al A
  let aoA := N.fdiv (d + 4) al A
  let a0 := N.fadd (d + 5) N.one aoA
  let m2c := N.fmul (d + 6) N.negTwo cs
  let b1 := N.fdiv (d + 9) m2c a0
  { b0 := N.fdiv (d + 8) (N.fadd (d + 7) N.one aA) a0
    b1 := b1
    b2 := N.fdiv (d + 11) (N.fsub (d + 10) N.one aA) a0
    a1 := b1
    a2 := N.fdiv (d + 13) (N.fsub (d + 12) N.one aoA) a0 }

/-- `BW_SECTION(kind, w, iq)` (R124): one second-order Butterworth section. Uses draws `d` to `d + 12`. -/
def bwSection {α : Type} (N : Num α) (d : Nat) (kind : Kind) (w iq : α) : Coef α :=
  let K := N.elem.tanpi w
  let K2 := N.fmul d K K
  let Ki := N.fmul (d + 1) K iq
  let den := N.fadd (d + 3) (N.fadd (d + 2) N.one Ki) K2
  let norm := N.fdiv (d + 4) N.one den
  let a1 := N.fmul (d + 7) (N.fmul (d + 6) N.two (N.fsub (d + 5) K2 N.one)) norm
  let a2 := N.fmul (d + 10) (N.fadd (d + 9) (N.fsub (d + 8) N.one Ki) K2) norm
  match kind with
  | .lp =>
    let b0 := N.fmul (d + 11) K2 norm
    { b0 := b0, b1 := N.fmul (d + 12) N.two b0, b2 := b0, a1 := a1, a2 := a2 }
  | .hp => { b0 := norm, b1 := N.fmul (d + 11) N.negTwo norm, b2 := norm, a1 := a1, a2 := a2 }

/-- One section for each constant of a list, in the list's order; 16 draws each. -/
def bwSections {α : Type} (N : Num α) (d : Nat) (kind : Kind) (w : α) : List α → List (Coef α)
  | [] => []
  | iq :: rest => bwSection N d kind w iq :: bwSections N (d + 16) kind w rest

/-- `BW_COEF(kind, f, fs, order)` (R125): exactly `order` sections, `k` ascending. Uses draws `d` to `d + 64`. -/
def bwCoef {α : Type} (N : Num α) (d : Nat) (kind : Kind) (f fs : α) (order : Nat) : List (Coef α) :=
  bwSections N (d + 1) kind (N.fdiv d f fs) (N.qinv order)

end Sys2Proof.Machine
end

