-- ==== Sys2Proof/Machine/Datapath.lean ====
section
/-! DEFINITION. The datapath: biquad stage, bypass multiplexer, banks, chain (42_stage_bank_chain.md). Each function
returns the output sample and the registers after it. -/

namespace Sys2Proof.Machine

/-- `STAGE_STEP` (R140): one sample through one enabled stage, transposed direct form II; coefficients and delay
registers are read before any write. Uses draws `d` to `d + 8`. For a unity bell, cleared registers and the input −0.0 this
pseudocode with R104 of 40_numerics.md leaves `Z2 = −0.0` where `b2` is +0.0 or above; 41_coefficient_generator.md R122 says +0.0 of
every finite input, and the model follows R140 (notes/assumptions/30.md). -/
def stageStep {α : Type} (N : Num α) (d : Nat) (b : Biquad α) (x : α) : α × Biquad α :=
  let y := N.fadd (d + 1) (N.fmul d b.coef.b0 x) b.z1
  let n1 := N.fadd (d + 5) (N.fsub (d + 4) (N.fmul (d + 2) b.coef.b1 x) (N.fmul (d + 3) b.coef.a1 y)) b.z2
  let n2 := N.fsub (d + 8) (N.fmul (d + 6) b.coef.b2 x) (N.fmul (d + 7) b.coef.a2 y)
  (y, { coef := b.coef, z1 := n1, z2 := n2 })

/-- `BYPASS_EFFECT` (R143), per sample: nothing under HOLD; under ADVANCE the arithmetic of R140 with its output
discarded; RESET acts at APPLY instead (`configSection`). -/
def bypassEffect {α : Type} (N : Num α) (policy : BypassPolicy) (d : Nat) (b : Biquad α) (x : α) : Biquad α :=
  match policy with
  | .hold => b
  | .advance => (stageStep N d b x).2
  | .reset => b

/-- `STAGE_MUX` (R142) of a cut section: a bypassed stage returns the input word itself, bit for bit. -/
def stageMux {α : Type} (N : Num α) (policy : BypassPolicy) (d : Nat) (s : CutStage α) (x : α) : α × CutStage α :=
  if s.byp then (x, { bq := bypassEffect N policy d s.bq x, byp := s.byp })
  else ((stageStep N d s.bq x).1, { bq := (stageStep N d s.bq x).2, byp := s.byp })

/-- `BANK_STEP` (R144): sections 0, 1, 2, 3 in this order. Uses draws `d` to `d + 35`. -/
def bankStep {α : Type} (N : Num α) (policy : BypassPolicy) (d : Nat) (b : Bank α) (x : α) : α × Bank α :=
  let r0 := stageMux N policy d b.s0 x
  let r1 := stageMux N policy (d + 9) b.s1 r0.1
  let r2 := stageMux N policy (d + 18) b.s2 r1.1
  let r3 := stageMux N policy (d + 27) b.s3 r2.1
  (r3.1, { s0 := r0.2, s1 := r1.2, s2 := r2.2, s3 := r3.2 })

/-- `CHAIN_STEP` (R150): highpass bank, bell, lowpass bank. The bell is always enabled (R149). Uses draws `d` to
`d + 80`. -/
def chainStep {α : Type} (N : Num α) (policy : BypassPolicy) (d : Nat) (c : Chain α) (x : α) : α × Chain α :=
  let h := bankStep N policy d c.hp x
  let b := stageStep N (d + 36) c.bell h.1
  let l := bankStep N policy (d + 45) c.lp b.1
  (l.1, { hp := h.2, bell := b.2, lp := l.2 })

/-- Both delay registers of a stage set to `ZERO`. -/
def clearBiquad {α : Type} (N : Num α) (b : Biquad α) : Biquad α :=
  { coef := b.coef, z1 := N.zero, z2 := N.zero }

/-- One section of `BANK_CFG` (R145): section `i` is enabled with entry `i` of the sequence when `i < order`, else
bypassed with its coefficients kept. Under RESET bypassing clears its delay registers (R143). -/
def configSection {α : Type} (N : Num α) (policy : BypassPolicy) (cs : List (Coef α)) (order i : Nat)
    (s : CutStage α) : CutStage α :=
  if i < order then { bq := { s.bq with coef := cs.getD i s.bq.coef }, byp := false }
  else
    { bq := match policy with
        | .hold => s.bq
        | .advance => s.bq
        | .reset => clearBiquad N s.bq
      byp := true }

/-- `BANK_CFG` (R145) on one channel's bank. -/
def bankConfig {α : Type} (N : Num α) (policy : BypassPolicy) (cs : List (Coef α)) (order : Nat) (b : Bank α) :
    Bank α :=
  { s0 := configSection N policy cs order 0 b.s0
    s1 := configSection N policy cs order 1 b.s1
    s2 := configSection N policy cs order 2 b.s2
    s3 := configSection N policy cs order 3 b.s3 }

/-- `BELL_CFG` (R148) on one channel: coefficients replaced wholesale, delay registers kept. -/
def bellConfig {α : Type} (c : Coef α) (b : Biquad α) : Biquad α := { b with coef := c }

/-- Every delay register of a bank set to `ZERO`. -/
def clearBank {α : Type} (N : Num α) (b : Bank α) : Bank α :=
  { s0 := { b.s0 with bq := clearBiquad N b.s0.bq }
    s1 := { b.s1 with bq := clearBiquad N b.s1.bq }
    s2 := { b.s2 with bq := clearBiquad N b.s2.bq }
    s3 := { b.s3 with bq := clearBiquad N b.s3.bq } }

/-- `CHAIN_CLEAR` (R151) on one channel: all its delay registers, those of bypassed stages too. -/
def chainClear {α : Type} (N : Num α) (c : Chain α) : Chain α :=
  { hp := clearBank N c.hp, bell := clearBiquad N c.bell, lp := clearBank N c.lp }

/-- What one `APPLY` writes into one channel: BANK_CFG(HP), BELL_CFG, BANK_CFG(LP) (43_commands.md R166). -/
def chainConfig {α : Type} (N : Num α) (policy : BypassPolicy) (hp : List (Coef α)) (hpOrder : Nat) (bell : Coef α)
    (lp : List (Coef α)) (lpOrder : Nat) (c : Chain α) : Chain α :=
  { hp := bankConfig N policy hp hpOrder c.hp
    bell := bellConfig bell c.bell
    lp := bankConfig N policy lp lpOrder c.lp }

end Sys2Proof.Machine
end

