-- ==== Sys2Proof/Syntax.lean ====
section
/-! DEFINITION. The instructions: one constructor per row of spec/opcode_table.json. -/

namespace Sys2Proof

/-- The commands of 30_encoding.md R83 and the seven parameter beats of R85. The words the spec marks "ignored"
(`A`, `B` of `NOP`, `UPDATE`, `RDS`) affect nothing (R86) and are no operands. -/
inductive Instr where
  /-- `NOP` (43_commands.md R161). -/
  | nop
  /-- `PREPARE n, fs, maxblk` (R162): the channel count, the sample rate, the maximum block size. -/
  | prepare (n : Nat) (fs : Word) (maxblk : Word)
  /-- `UPDATE` (R163). -/
  | update
  /-- `FRAME l, r` (R167): the left and right input samples. -/
  | frame (l : Word) (r : Word)
  /-- `RDS sel` (R168): the 16-bit selector of 20_memory.md R65. -/
  | rds (sel : BitVec 16)
  /-- `PSET HP_FREQ, v` (R169), cell 0. -/
  | psetHpFreq (v : Word)
  /-- `PSET LP_FREQ, v` (R169), cell 1. -/
  | psetLpFreq (v : Word)
  /-- `PSET BELL_FREQ, v` (R169), cell 2. -/
  | psetBellFreq (v : Word)
  /-- `PSET BELL_GAIN, v` (R169), cell 3. -/
  | psetBellGain (v : Word)
  /-- `PSET BELL_Q, v` (R169), cell 4. -/
  | psetBellQ (v : Word)
  /-- `PSET HP_ORDER, v` (R169), cell 5. -/
  | psetHpOrder (v : Word)
  /-- `PSET LP_ORDER, v` (R169), cell 6. -/
  | psetLpOrder (v : Word)
  deriving DecidableEq, Repr

end Sys2Proof
end

