-- ==== Sys2Proof/WellFormed.lean ====
section
/-! DEFINITION. Which instructions have an encoding: the channel count of PREPARE is an 8-bit field. -/

namespace Sys2Proof

/-- The operand fits its field. `PREPARE`'s channel count is `HDR[23:16]`, an unsigned integer of 8 bits
(30_encoding.md R82, R86); every other operand is a bit vector of its field's width. -/
def Instr.wellFormed : Instr → Bool
  | .nop => true
  | .prepare n _ _ => decide (n < 256)
  | .update => true
  | .frame _ _ => true
  | .rds _ => true
  | .psetHpFreq _ => true
  | .psetLpFreq _ => true
  | .psetBellFreq _ => true
  | .psetBellGain _ => true
  | .psetBellQ _ => true
  | .psetHpOrder _ => true
  | .psetLpOrder _ => true

/-- The instruction is well-formed. -/
abbrev Instr.WellFormed (i : Instr) : Prop := i.wellFormed = true

end Sys2Proof
end

