-- ==== Sys2Proof/Decode.lean ====
section
/-! DEFINITION. Beats of the ports, the decoder (total, rejecting by name) and the encoder, from 30_encoding.md. -/

namespace Sys2Proof

/-- One beat arriving at the block: a 96-bit command beat (30_encoding.md R81) or a 35-bit parameter beat (R85). -/
inductive Beat where
  | command (bits : BitVec 96)
  | parameter (bits : BitVec 35)
  deriving DecidableEq, Repr

/-- `HDR`, bits [95:64] of a command beat (R81). -/
def hdrOf (bits : BitVec 96) : Word := bits.extractLsb' 64 32

/-- `A`, bits [63:32] of a command beat (R81). -/
def aOf (bits : BitVec 96) : Word := bits.extractLsb' 32 32

/-- `B`, bits [31:0] of a command beat (R81). -/
def bOf (bits : BitVec 96) : Word := bits.extractLsb' 0 32

/-- The command beat of three words (R81). -/
def commandBits (hdr a b : Word) : BitVec 96 := hdr ++ a ++ b

/-- `op`, `HDR[31:24]` (R82). -/
def opOf (hdr : Word) : BitVec 8 := hdr.extractLsb' 24 8

/-- `n`, `HDR[23:16]` (R82). -/
def nOf (hdr : Word) : BitVec 8 := hdr.extractLsb' 16 8

/-- `sel`, `HDR[15:0]` (R82). -/
def selOf (hdr : Word) : BitVec 16 := hdr.extractLsb' 0 16

/-- The header of an opcode, a channel field and a selector field (R82). -/
def header (op n : BitVec 8) (sel : BitVec 16) : Word := op ++ n ++ sel

/-- `k`, bits [34:32] of a parameter beat (R85). -/
def kOf (bits : BitVec 35) : BitVec 3 := bits.extractLsb' 32 3

/-- `v`, bits [31:0] of a parameter beat (R85). -/
def vOf (bits : BitVec 35) : Word := bits.extractLsb' 0 32

/-- The parameter beat of a cell number and a word (R85). -/
def parameterBits (k : BitVec 3) (v : Word) : BitVec 35 := k ++ v

/-- Why a beat is no instruction (R87). -/
inductive Rejected where
  /-- `op` in 0x05..0xFF. -/
  | reservedOpcode
  /-- `n ≠ 0` with `op ≠ 0x01`. -/
  | channelField
  /-- `sel ≠ 0` with `op ≠ 0x04`. -/
  | selectorField
  /-- A parameter beat with `k = 7`: it selects no cell. -/
  | reservedCell
  deriving DecidableEq, Repr

/-- What a beat decodes as. -/
inductive Decoded where
  | instr (i : Instr)
  | rejected (why : Rejected)
  deriving DecidableEq, Repr

/-- Decodes a command beat by the opcode map (R83); the beats of R87 are rejected by name. -/
def decodeCommand (bits : BitVec 96) : Decoded :=
  let hdr := hdrOf bits
  if opOf hdr = 0x00#8 then
    if nOf hdr ≠ 0#8 then .rejected .channelField
    else if selOf hdr ≠ 0#16 then .rejected .selectorField
    else .instr .nop
  else if opOf hdr = 0x01#8 then
    if selOf hdr ≠ 0#16 then .rejected .selectorField
    else .instr (.prepare (nOf hdr).toNat (aOf bits) (bOf bits))
  else if opOf hdr = 0x02#8 then
    if nOf hdr ≠ 0#8 then .rejected .channelField
    else if selOf hdr ≠ 0#16 then .rejected .selectorField
    else .instr .update
  else if opOf hdr = 0x03#8 then
    if nOf hdr ≠ 0#8 then .rejected .channelField
    else if selOf hdr ≠ 0#16 then .rejected .selectorField
    else .instr (.frame (aOf bits) (bOf bits))
  else if opOf hdr = 0x04#8 then
    if nOf hdr ≠ 0#8 then .rejected .channelField
    else .instr (.rds (selOf hdr))
  else .rejected .reservedOpcode

/-- Decodes a parameter beat: `k` selects the cell of 20_memory.md R61 (R85); `k = 7` is reserved (R87). -/
def decodeParameter (bits : BitVec 35) : Decoded :=
  if kOf bits = 0#3 then .instr (.psetHpFreq (vOf bits))
  else if kOf bits = 1#3 then .instr (.psetLpFreq (vOf bits))
  else if kOf bits = 2#3 then .instr (.psetBellFreq (vOf bits))
  else if kOf bits = 3#3 then .instr (.psetBellGain (vOf bits))
  else if kOf bits = 4#3 then .instr (.psetBellQ (vOf bits))
  else if kOf bits = 5#3 then .instr (.psetHpOrder (vOf bits))
  else if kOf bits = 6#3 then .instr (.psetLpOrder (vOf bits))
  else .rejected .reservedCell

/-- The decoder: total on every beat (R89: 96 bits per command beat, 35 bits per parameter beat, always). -/
def decode : Beat → Decoded
  | .command bits => decodeCommand bits
  | .parameter bits => decodeParameter bits

/-- The encoder, from the syntax table (R90): ignored words are written as zero. -/
def encode : Instr → Beat
  | .nop => .command (commandBits (header 0x00#8 0#8 0#16) 0#32 0#32)
  | .prepare n fs maxblk => .command (commandBits (header 0x01#8 (BitVec.ofNat 8 n) 0#16) fs maxblk)
  | .update => .command (commandBits (header 0x02#8 0#8 0#16) 0#32 0#32)
  | .frame l r => .command (commandBits (header 0x03#8 0#8 0#16) l r)
  | .rds sel => .command (commandBits (header 0x04#8 0#8 sel) 0#32 0#32)
  | .psetHpFreq v => .parameter (parameterBits 0#3 v)
  | .psetLpFreq v => .parameter (parameterBits 1#3 v)
  | .psetBellFreq v => .parameter (parameterBits 2#3 v)
  | .psetBellGain v => .parameter (parameterBits 3#3 v)
  | .psetBellQ v => .parameter (parameterBits 4#3 v)
  | .psetHpOrder v => .parameter (parameterBits 5#3 v)
  | .psetLpOrder v => .parameter (parameterBits 6#3 v)

/-- The beat with the words the spec marks "ignored" (R83, R86) set to zero. -/
def canonicalBeat : Beat → Beat
  | .command bits =>
    if opOf (hdrOf bits) = 0x01#8 ∨ opOf (hdrOf bits) = 0x03#8 then .command bits
    else .command (commandBits (hdrOf bits) 0#32 0#32)
  | .parameter bits => .parameter bits

/-- The rows of the match and mask table over `HDR` (R83), in its order. -/
def matchMaskRows : List (Word × Word) :=
  [(0x00000000#32, 0xFFFFFFFF#32),
   (0x01000000#32, 0xFF00FFFF#32),
   (0x02000000#32, 0xFFFFFFFF#32),
   (0x03000000#32, 0xFFFFFFFF#32),
   (0x04000000#32, 0xFFFF0000#32)]

/-- The beat whose bits spec/opcode_table.json numbers as `w`, bit 0 the least significant bit of the first word:
a row of 35 bits (40 in whole bytes) is a parameter beat; every other row is a command beat, whose first word is `HDR`,
second `A`, third `B` (notes/assumptions/19.md). -/
def tableBeat (nbits w : Nat) : Beat :=
  if nbits = 35 ∨ nbits = 40 then .parameter (BitVec.ofNat 35 w)
  else .command (commandBits (BitVec.ofNat 32 w) (BitVec.ofNat 32 (w / 2 ^ 32)) (BitVec.ofNat 32 (w / 2 ^ 64)))

/-- The instruction the decoder reads from the table's word `w` of `nbits` bits. -/
def decodeTableWord (nbits w : Nat) : Option Instr :=
  match decode (tableBeat nbits w) with
  | .instr i => some i
  | .rejected _ => none

end Sys2Proof
end

