-- ==== Sys2Proof/Machine/State.lean ====
section
/-! DEFINITION. The state of the SEQ3 filter core (10_state.md), the reasons a step can stop, and the state after reset. -/

namespace Sys2Proof.Machine

/-- `PHASE`, 2 bits (10_state.md R29; values in 00_scope.md R11). -/
inductive Phase where
  | uninit
  | prepared
  | running
  | faulted
  deriving DecidableEq, Repr

/-- The seven fault codes (60_exceptions.md R181). -/
inductive FaultCode where
  /-- `ERR_ILLEGAL`: an illegal command beat, or an RDS selector outside the map. -/
  | illegal
  /-- `ERR_NOT_PREPARED`: UPDATE or FRAME in phase UNINIT. -/
  | notPrepared
  /-- `ERR_LAYOUT`: PREPARE with a channel count other than 2. -/
  | layout
  /-- `ERR_FS`: a sample rate not finite or not above 0. -/
  | fs
  /-- `ERR_ORDER`: an order outside 1..4. -/
  | order
  /-- `ERR_NYQUIST`: a frequency not strictly below half the sample rate. -/
  | nyquist
  /-- `ERR_PARAM`: a frequency or bell_q not finite or not above 0, or a gain not finite. -/
  | param
  deriving DecidableEq, Repr

/-- Seven words in cell order: the parameter cells `PC[0..6]`, the snapshot `SNAP[0..6]`, the buffer `SNAPBUF[0..6]`
(10_state.md R28, R33, R34; 20_memory.md R61). -/
structure Snapshot where
  hpFreq : Word
  lpFreq : Word
  bellFreq : Word
  bellGain : Word
  bellQ : Word
  hpOrder : Word
  lpOrder : Word
  deriving DecidableEq, Repr

/-- The scratch coefficient buffers `BELLC`, `HPSEQ[0..3]`, `LPSEQ[0..3]` (10_state.md R34), empty between commands. -/
structure Scratch where
  bell : Option (Coef Word)
  hp : List (Coef Word)
  lp : List (Coef Word)
  deriving DecidableEq, Repr

/-- A response beat (30_encoding.md R84). -/
structure Response where
  st : Word
  rw0 : Word
  rw1 : Word
  deriving DecidableEq, Repr

/-- An event from outside: a beat on the command or the parameter port, or RST (30_encoding.md R80). -/
inductive Input where
  | beat (b : Beat)
  | rst
  deriving DecidableEq, Repr

/-- One turn of an agent while a SNAP_READ is in progress: CORE reads a cell, or PS performs `PSET k, v`
(20_memory.md R72; 43_commands.md R164). -/
inductive Turn where
  | read (k : Cell)
  | pset (k : Cell) (v : Word)
  deriving DecidableEq, Repr

/-- The state: the registers of 10_state.md, then the run's own data, which a run of the spec is given with and which a
deterministic step has to find somewhere (notes/assumptions/1.md). -/
structure State where
  /-- `COEF[0]`, `Z1[0]`, `Z2[0]`, `BYP[0]` (R21 to R24). -/
  left : Chain Word
  /-- `COEF[1]`, `Z1[1]`, `Z2[1]`, `BYP[1]` (R21 to R24). -/
  right : Chain Word
  /-- `FS`, none until the first successful PREPARE (R27). -/
  fs : Option Word
  /-- `SNAP[0..6]` (R28). -/
  snap : Snapshot
  /-- `PHASE` (R29). -/
  phase : Phase
  /-- `ERR` (R30). -/
  err : BitVec 8
  /-- `PREP` (R32). -/
  prep : Bool
  /-- `PC[0..6]`, the cells of the agent PS (R33). -/
  cells : Snapshot
  /-- `SNAPBUF[0..6]` (R34). -/
  snapBuf : Snapshot
  /-- `SNAPMASK`, 7 bits, bit `k` for cell `k` (R34). -/
  snapMask : BitVec 7
  /-- `BELLC`, `HPSEQ`, `LPSEQ` (R34). -/
  scratch : Scratch
  /-- The events still to come, oldest first (00_scope.md R9). -/
  inputs : List Input
  /-- The position in the command list: the number of commands completed (R36). -/
  pos : Nat
  /-- The response beats emitted, newest first (30_encoding.md R84). -/
  responses : List Response
  /-- For each SNAP_READ to come, the turns the two agents take inside it (20_memory.md R72). -/
  psTurns : List (List Turn)
  /-- The instance of the open parameter ELEM the run uses (40_numerics.md R111, R112). -/
  elem : ElemChoice
  /-- The model's own counter: how many NaN draws have been set aside (40_numerics.md R106). -/
  draws : Nat
  deriving DecidableEq, Repr

/-- The reasons a step stops with a fault: there is none. A fault of the spec is no stop but an effect (60_exceptions.md
R183): ERR and PHASE are written, a response is emitted and the block goes on answering; nobody raises a stop (safe:
nothing is left out). -/
inductive Fault : Type
  deriving DecidableEq, Repr

/-- The reasons a step refuses an instruction. -/
inductive Refusal where
  /-- Raised by an arm of `exec` whose instruction has no meaning yet; no arm is left so (safe: nothing can be proved of a
  next state that does not exist). -/
  | notModelled (mnemonic : String)
  deriving DecidableEq, Repr

/-- The identity coefficients (1, 0, 0, 0, 0) (R38). -/
def identityCoef : Coef Word :=
  { b0 := 0x3F800000#32, b1 := 0x00000000#32, b2 := 0x00000000#32, a1 := 0x00000000#32, a2 := 0x00000000#32 }

/-- A stage after reset: identity coefficients, silent delay registers (R38). -/
def identityStage : Biquad Word := { coef := identityCoef, z1 := 0x00000000#32, z2 := 0x00000000#32 }

/-- A cut bank after reset: four identity stages, all bypassed (R38). -/
def resetBank : Bank Word :=
  { s0 := { bq := identityStage, byp := true }
    s1 := { bq := identityStage, byp := true }
    s2 := { bq := identityStage, byp := true }
    s3 := { bq := identityStage, byp := true } }

/-- A channel after reset (R38). -/
def resetChain : Chain Word := { hp := resetBank, bell := identityStage, lp := resetBank }

/-- Seven zero words: `SNAP` after reset (R38). -/
def zeroSnapshot : Snapshot :=
  { hpFreq := 0x00000000#32, lpFreq := 0x00000000#32, bellFreq := 0x00000000#32, bellGain := 0x00000000#32
    bellQ := 0x00000000#32, hpOrder := 0x00000000#32, lpOrder := 0x00000000#32 }

/-- The parameter cells after reset: the defaults of the schema (R38; 20_memory.md R62). -/
def defaultCells : Snapshot :=
  { hpFreq := 0x41A00000#32, lpFreq := 0x469C4000#32, bellFreq := 0x443B8000#32, bellGain := 0x00000000#32
    bellQ := 0x3F800000#32, hpOrder := 0x00000001#32, lpOrder := 0x00000001#32 }

/-- The scratch buffers when empty (R34). -/
def emptyScratch : Scratch := { bell := none, hp := [], lp := [] }

/-- The machine right after reset (R38, 70_reset_and_hazards.md R201), with no event pending. -/
def State.reset : State :=
  { left := resetChain
    right := resetChain
    fs := none
    snap := zeroSnapshot
    phase := .uninit
    err := 0#8
    prep := false
    cells := defaultCells
    snapBuf := zeroSnapshot
    snapMask := 0#7
    scratch := emptyScratch
    inputs := []
    pos := 0
    responses := []
    psTurns := []
    elem := .reference
    draws := 0 }

end Sys2Proof.Machine
end

