-- ==== Sys2Proof/Machine/Flags.lean ====
section
/-! DEFINITION. Flags and status words: the bypass flags and the counts derived from them (10_state.md R23 to R25), the
codes of PHASE and ERR (R29, R30), the words STATUS (R31) and ST (30_encoding.md R84). -/

namespace Sys2Proof.Machine

/-- The 2-bit code of a phase (00_scope.md R11). -/
def Phase.bits : Phase → BitVec 2
  | .uninit => 0#2
  | .prepared => 1#2
  | .running => 2#2
  | .faulted => 3#2

/-- The 8-bit code of a fault (60_exceptions.md R181). -/
def FaultCode.bits : FaultCode → BitVec 8
  | .illegal => 0x01#8
  | .notPrepared => 0x02#8
  | .layout => 0x03#8
  | .fs => 0x04#8
  | .order => 0x05#8
  | .nyquist => 0x06#8
  | .param => 0x07#8

/-- A flag as a 32-bit word, zero-extended (20_memory.md R65). -/
def flagWord (b : Bool) : Word := if b then 1#32 else 0#32

/-- `STATUS` (10_state.md R31): PHASE in [1:0], ERR in [15:8], PREP in [16], every other bit 0. -/
def statusWord (phase : Phase) (err : BitVec 8) (prep : Bool) : Word :=
  (if prep then 1#16 else 0#16) ++ err ++ 0#6 ++ phase.bits

/-- `ST` of a response (30_encoding.md R84): the result code in [7:0], PHASE after the command in [9:8], the rest 0. -/
def stWord (code : BitVec 8) (phase : Phase) : Word := 0#22 ++ phase.bits ++ code

/-- How many sections of a bank are enabled: `ACTIVE_HP`, `ACTIVE_LP` (10_state.md R25). -/
def Bank.active {α : Type} (b : Bank α) : Nat :=
  (if b.s0.byp then 0 else 1) + (if b.s1.byp then 0 else 1) + (if b.s2.byp then 0 else 1) + (if b.s3.byp then 0 else 1)

/-- The four flags of a bank as the vector `BYP[base+3 .. base+0]` of 42_stage_bank_chain.md R147. -/
def Bank.flags {α : Type} (b : Bank α) : BitVec 4 :=
  BitVec.ofBool b.s3.byp ++ BitVec.ofBool b.s2.byp ++ BitVec.ofBool b.s1.byp ++ BitVec.ofBool b.s0.byp

/-- `BYP[ch][s]` (R23); stage 4 has no storage and reads 0 (R24). -/
def Chain.bypassed {α : Type} (c : Chain α) (s : Fin 9) : Bool :=
  match s with
  | 0 => c.hp.s0.byp
  | 1 => c.hp.s1.byp
  | 2 => c.hp.s2.byp
  | 3 => c.hp.s3.byp
  | 4 => false
  | 5 => c.lp.s0.byp
  | 6 => c.lp.s1.byp
  | 7 => c.lp.s2.byp
  | 8 => c.lp.s3.byp

end Sys2Proof.Machine
end

