-- ==== Sys2Proof/Machine/Operands.lean ====
section
/-! DEFINITION. Operand forms: cell numbers (20_memory.md R61), stage numbers (10_state.md R20) and the selector map of
RDS (20_memory.md R65). -/

namespace Sys2Proof.Machine

/-- The cell number `k` (20_memory.md R61). -/
def cellIndex : Cell → Fin 7
  | .hpFreq => 0
  | .lpFreq => 1
  | .bellFreq => 2
  | .bellGain => 3
  | .bellQ => 4
  | .hpOrder => 5
  | .lpOrder => 6

/-- The seven cells in order. -/
def allCells : List Cell := [.hpFreq, .lpFreq, .bellFreq, .bellGain, .bellQ, .hpOrder, .lpOrder]

/-- The cell of a number; 7 and above name no cell (R60). -/
def cellOfNumber (k : Nat) : Option Cell := allCells[k]?

/-- The word of cell `k`. -/
def Snapshot.get (p : Snapshot) : Cell → Word
  | .hpFreq => p.hpFreq
  | .lpFreq => p.lpFreq
  | .bellFreq => p.bellFreq
  | .bellGain => p.bellGain
  | .bellQ => p.bellQ
  | .hpOrder => p.hpOrder
  | .lpOrder => p.lpOrder

/-- The words with cell `k` replaced. -/
def Snapshot.set (p : Snapshot) (k : Cell) (v : Word) : Snapshot :=
  match k with
  | .hpFreq => { p with hpFreq := v }
  | .lpFreq => { p with lpFreq := v }
  | .bellFreq => { p with bellFreq := v }
  | .bellGain => { p with bellGain := v }
  | .bellQ => { p with bellQ := v }
  | .hpOrder => { p with hpOrder := v }
  | .lpOrder => { p with lpOrder := v }

/-- Coefficients and delay registers of stage `s` of a chain (10_state.md R20). -/
def Chain.stage {α : Type} (c : Chain α) (s : Fin 9) : Biquad α :=
  match s with
  | 0 => c.hp.s0.bq
  | 1 => c.hp.s1.bq
  | 2 => c.hp.s2.bq
  | 3 => c.hp.s3.bq
  | 4 => c.bell
  | 5 => c.lp.s0.bq
  | 6 => c.lp.s1.bq
  | 7 => c.lp.s2.bq
  | 8 => c.lp.s3.bq

/-- The bank of a kind: stages 0..3 for HP, 5..8 for LP (42_stage_bank_chain.md R144). -/
def Chain.bank {α : Type} (c : Chain α) : Kind → Bank α
  | .hp => c.hp
  | .lp => c.lp

/-- The chain of a channel. -/
def State.chain (s : State) : Chan → Chain Word
  | .left => s.left
  | .right => s.right

/-- The registers of one stage, numbered 0..7 (20_memory.md R65). -/
inductive StageReg where
  | b0
  | b1
  | b2
  | a1
  | a2
  | z1
  | z2
  | byp
  deriving DecidableEq, Repr

/-- The stage register of number `r`; 8..15 are reserved (R65). -/
def stageRegOfNumber (r : Nat) : Option StageReg :=
  [StageReg.b0, .b1, .b2, .a1, .a2, .z1, .z2, .byp][r]?

/-- What a selector names. -/
inductive Selected where
  | status
  | fs
  | snap (k : Cell)
  | stage (c : Chan) (s : Fin 9) (r : StageReg)
  deriving DecidableEq, Repr

/-- A stage selector's fields (R65): `sel[15:12] = 1`, `sel[11:9] = 0`, `sel[8] = ch`, `sel[7:4] = s`, `sel[3:0] = r`. -/
def decodeStageSelector (sel : BitVec 16) : Option Selected :=
  if sel.extractLsb' 12 4 = 1#4 ∧ sel.extractLsb' 9 3 = 0#3 then
    if h : (sel.extractLsb' 4 4).toNat < 9 then
      match stageRegOfNumber (sel.extractLsb' 0 4).toNat with
      | some r =>
        some (.stage (if sel.extractLsb' 8 1 = 1#1 then .right else .left) ⟨(sel.extractLsb' 4 4).toNat, h⟩ r)
      | none => none
    else none
  else none

/-- The selector map (R65); `none` for every reserved selector. -/
def decodeSelector (sel : BitVec 16) : Option Selected :=
  if sel = 0x0000#16 then some .status
  else if sel = 0x0001#16 then some .fs
  else if sel.extractLsb' 4 12 = 1#12 then (cellOfNumber (sel.extractLsb' 0 4).toNat).map .snap
  else decodeStageSelector sel

/-- One register of one stage (R65): `BYP` zero-extended. -/
def readStageReg (c : Chain Word) (s : Fin 9) : StageReg → Word
  | .b0 => (c.stage s).coef.b0
  | .b1 => (c.stage s).coef.b1
  | .b2 => (c.stage s).coef.b2
  | .a1 => (c.stage s).coef.a1
  | .a2 => (c.stage s).coef.a2
  | .z1 => (c.stage s).z1
  | .z2 => (c.stage s).z2
  | .byp => flagWord (c.bypassed s)

/-- The word a selector names; `FS` reads as the all-zero word if never written (10_state.md R27). -/
def readSelected (s : State) : Selected → Word
  | .status => statusWord s.phase s.err s.prep
  | .fs => s.fs.getD 0#32
  | .snap k => s.snap.get k
  | .stage c i r => readStageReg (s.chain c) i r

end Sys2Proof.Machine
end

