-- ==== Sys2Proof/Machine/Ops.lean ====
section
/-! DEFINITION. The named operations over the state: responding, fault entry, the common rule of every command, parameter
cells, SNAP_READ, VALIDATE, the coefficient generator, APPLY, RST, and taking the next event (43_commands.md,
60_exceptions.md, 70_reset_and_hazards.md). -/

namespace Sys2Proof.Machine

/-- The arithmetic the run uses: `NUM = F32` with the run's instance of ELEM (40_numerics.md R100, R110). -/
def State.num (s : State) : Num Word := f32 (Elem.ofChoice s.elem)

/-- `respond(code, r0, r1)`: emits the response beat, with PHASE as it is after the command (30_encoding.md R84). -/
def State.respond (code : BitVec 8) (r0 r1 : Word) (s : State) : State :=
  { s with responses := { st := stWord code s.phase, rw0 := r0, rw1 := r1 } :: s.responses }

/-- The state a fault leaves before it responds (60_exceptions.md R183): ERR written if it is 0, PHASE FAULTED. -/
def State.enterFault (code : FaultCode) (s : State) : State :=
  { s with err := if s.err = 0#8 then code.bits else s.err, phase := .faulted }

/-- `raise Fault(code)`, the one fault entry of the block (R183). There is no return from it but RST (R187). -/
def State.raise (code : FaultCode) (s : State) : State :=
  (s.enterFault code).respond code.bits 0#32 0#32

/-- The common rule of every command-port beat (43_commands.md R160): in FAULTED nothing changes and the answer is the
old code with zeros (60_exceptions.md R184); otherwise the command's own rule runs. -/
def State.command (body : State → State) (s : State) : State :=
  if s.phase = .faulted then s.respond s.err 0#32 0#32 else body s

/-- An illegal command beat: `ERR_ILLEGAL` under the common rule (30_encoding.md R87, 43_commands.md R160). -/
def State.illegalBeat (s : State) : State := s.command (State.raise .illegal)

/-- `PCWrite(k, v)`, the only step of the agent PS (20_memory.md R63, 43_commands.md R169). -/
def State.writeCell (k : Cell) (v : Word) (s : State) : State := { s with cells := s.cells.set k v }

/-- Bit `k` of SNAPMASK. -/
def cellBit (k : Cell) : BitVec 7 := 1#7 <<< (cellIndex k).val

/-- One CORE step of SNAP_READ (43_commands.md R164): reads cell `k` unless it was read already. -/
def State.readCell (k : Cell) (s : State) : State :=
  if s.snapMask &&& cellBit k = 0#7 then
    { s with snapBuf := s.snapBuf.set k (s.cells.get k), snapMask := s.snapMask ||| cellBit k }
  else s

/-- One turn inside a SNAP_READ (20_memory.md R72). -/
def State.takeTurn (s : State) : Turn → State
  | .read k => s.readCell k
  | .pset k v => s.writeCell k v

/-- The turns of one SNAP_READ in their order. -/
def State.takeTurns : List Turn → State → State
  | [], s => s
  | t :: ts, s => takeTurns ts (s.takeTurn t)

/-- `SNAP_READ` (43_commands.md R164): mask cleared, the turns of this read taken, every cell not yet read then read,
mask cleared. The snapshot is left in SNAPBUF. The order of the seven reads and where PS steps fall between them is the
run's data (20_memory.md R72; notes/assumptions/2.md). -/
def State.snapRead (s : State) : State :=
  let s1 := State.takeTurns (s.psTurns.headD []) { s with snapMask := 0#7, psTurns := s.psTurns.tail }
  let s2 := State.takeTurns (allCells.map Turn.read) s1
  { s2 with snapMask := 0#7 }

/-- `1 ≤ order ≤ 4`, unsigned (43_commands.md R165, 40_numerics.md R109). -/
def orderLegal (w : Word) : Bool := decide (1 ≤ w.toNat) && decide (w.toNat ≤ 4)

/-- Finite and above zero (43_commands.md R162, R165). -/
def positive {α : Type} (N : Num α) (x : α) : Bool := N.fisfinite x && N.flt N.zero x

/-- `VALIDATE(s, fs)` (43_commands.md R165): the first failing check in the rule's order, or none. `d` is the draw index of
its one multiplication. -/
def validate {α : Type} (N : Num α) (d : Nat) (p : Snapshot) (fs : α) : Option FaultCode :=
  if !(orderLegal p.hpOrder && orderLegal p.lpOrder) then some .order
  else if !(positive N (N.ofWord p.hpFreq) && positive N (N.ofWord p.lpFreq) && positive N (N.ofWord p.bellFreq)) then
    some .param
  else if !(positive N (N.ofWord p.bellQ)) then some .param
  else if !(N.fisfinite (N.ofWord p.bellGain)) then some .param
  else
    let ny := N.fmul d fs N.half
    if !(N.flt (N.ofWord p.hpFreq) ny && N.flt (N.ofWord p.lpFreq) ny && N.flt (N.ofWord p.bellFreq) ny) then
      some .nyquist
    else none

/-- How many NaN draws one PREPARE or UPDATE sets aside (notes/assumptions/4.md). -/
def configDraws : Nat := 256

/-- How many NaN draws one FRAME sets aside: 9 operations, 9 stages, 2 channels (notes/assumptions/4.md). -/
def frameDraws : Nat := 162

/-- `BELLC`, `HPSEQ` and `LPSEQ` for a snapshot and a sample rate: one BELL_COEF, two BW_COEF (43_commands.md R162 step 5,
R163 step 4). -/
def generated (N : Num Word) (d : Nat) (p : Snapshot) (fs : Word) : Scratch :=
  { bell := some (bellCoef N d fs (N.ofWord p.bellFreq) (N.ofWord p.bellQ) (N.ofWord p.bellGain))
    hp := bwCoef N (d + 16) .hp (N.ofWord p.hpFreq) fs p.hpOrder.toNat
    lp := bwCoef N (d + 96) .lp (N.ofWord p.lpFreq) fs p.lpOrder.toNat }

/-- The coefficient generator run on SNAPBUF, its results in the scratch buffers. -/
def State.generate (fs : Word) (s : State) : State :=
  { s with scratch := generated s.num s.draws s.snapBuf fs, draws := s.draws + configDraws }

/-- One channel under `APPLY`, from the scratch buffers and the snapshot's orders. -/
def configured (N : Num Word) (policy : BypassPolicy) (p : Snapshot) (k : Scratch) (c : Chain Word) : Chain Word :=
  match k.bell with
  | some bell => chainConfig N policy k.hp p.hpOrder.toNat bell k.lp p.lpOrder.toNat c
  | none => c

/-- `APPLY` (43_commands.md R166), one atomic step: both channels get the same words, `SNAP` the snapshot. The scratch
buffers are empty again after it (10_state.md R34). -/
def State.apply (policy : BypassPolicy) (s : State) : State :=
  { s with
    left := configured s.num policy s.snapBuf s.scratch s.left
    right := configured s.num policy s.snapBuf s.scratch s.right
    snap := s.snapBuf
    scratch := emptyScratch }

/-- `CHAIN_CLEAR` on both channels (42_stage_bank_chain.md R151). -/
def State.chainClear (s : State) : State :=
  { s with left := Machine.chainClear s.num s.left, right := Machine.chainClear s.num s.right }

/-- `FS <- fs ; PREP <- 1` (43_commands.md R162 step 6). -/
def State.recordRate (fs : Word) (s : State) : State := { s with fs := some fs, prep := true }

/-- `PHASE <- p`. -/
def State.setPhase (p : Phase) (s : State) : State := { s with phase := p }

/-- RST (70_reset_and_hazards.md R200): every piece of the block's state takes its reset value; the run goes on where it
stands (notes/assumptions/17.md). -/
def State.rstBlock (s : State) : State :=
  { State.reset with
    inputs := s.inputs
    pos := s.pos
    responses := s.responses
    psTurns := s.psTurns
    elem := s.elem
    draws := s.draws }

/-- What the head of the event list makes the machine do. -/
inductive Event where
  /-- No event is pending: the block waits (70_reset_and_hazards.md R202). -/
  | idle
  /-- RST. -/
  | rst
  /-- A beat that decodes to an instruction. -/
  | instr (i : Instr)
  /-- An illegal command beat (30_encoding.md R87). -/
  | illegal
  /-- A reserved parameter beat: dropped (R87). -/
  | dropped
  deriving DecidableEq, Repr

/-- The event a beat is. -/
def beatEvent (b : Beat) : Event :=
  match decode b with
  | .instr i => .instr i
  | .rejected .reservedCell => .dropped
  | .rejected .reservedOpcode => .illegal
  | .rejected .channelField => .illegal
  | .rejected .selectorField => .illegal

/-- The next event of a state. -/
def State.nextEvent (s : State) : Event :=
  match s.inputs with
  | [] => .idle
  | .rst :: _ => .rst
  | .beat b :: _ => beatEvent b

/-- By how much an input moves the position in the command list: a command by one whatever its outcome, a parameter beat
and RST not at all (10_state.md R36). -/
def inputAdvance : Input → Nat
  | .beat (.command _) => 1
  | .beat (.parameter _) => 0
  | .rst => 0

/-- The state with its next event taken from the list. -/
def State.takeInput (s : State) : State :=
  match s.inputs with
  | [] => s
  | i :: rest => { s with inputs := rest, pos := s.pos + inputAdvance i }

end Sys2Proof.Machine
end

