-- ==== Sys2Proof/Machine/Configure.lean ====
section
/-! DEFINITION. The commands that take a snapshot and configure both channels: PREPARE and UPDATE (43_commands.md R162,
R163), over any bypass policy; the hardware's is Config.bypassPolicy. -/

namespace Sys2Proof.Machine

/-- Step 6 and 7 of PREPARE (R162) on a state whose scratch buffers are full: one atomic step, then the response. -/
def prepareCommit (policy : BypassPolicy) (fs : Word) (s : State) : State :=
  ((((s.recordRate fs).chainClear).apply policy).setPhase .prepared).respond 0x00#8 0#32 0#32

/-- `PREPARE`'s own rule (R162), its checks in the rule's order. -/
def prepareBody (policy : BypassPolicy) (n : Nat) (a : Word) (s : State) : State :=
  if n ≠ 2 then s.raise .layout
  else
    let fs := s.num.ofWord a
    if !(positive s.num fs) then s.raise .fs
    else
      match validate s.num s.draws s.snapRead.snapBuf fs with
      | some code => s.snapRead.raise code
      | none => prepareCommit policy fs (s.snapRead.generate fs)

/-- `PREPARE n, fs, maxblk` (R162). "`B` (`max_block_size`) is accepted and ignored". -/
def execPrepare (n : Nat) (fs _maxblk : Word) (s : State) : Host.Outcome State Fault Refusal :=
  .next (s.command (prepareBody Config.bypassPolicy n fs))

/-- The sample rate UPDATE reads: `FS` (R163), the all-zero word in a state no run reaches where it is none
(10_state.md R27; notes/assumptions/14.md). -/
def State.rate (s : State) : Word := s.fs.getD 0#32

/-- `UPDATE`'s own rule (R163). -/
def updateBody (policy : BypassPolicy) (s : State) : State :=
  if s.phase = .uninit then s.raise .notPrepared
  else
    match validate s.num s.draws s.snapRead.snapBuf s.rate with
    | some code => s.snapRead.raise code
    | none => ((s.snapRead.generate s.rate).apply policy).respond 0x00#8 0#32 0#32

/-- `UPDATE` (R163). -/
def execUpdate (s : State) : Host.Outcome State Fault Refusal := .next (s.command (updateBody Config.bypassPolicy))

end Sys2Proof.Machine
end

