-- ==== Sys2Proof/Machine/Observe.lean ====
section
/-! DEFINITION. The commands that change nothing but emit a response: NOP and RDS (43_commands.md R161, R168). -/

namespace Sys2Proof.Machine

/-- `NOP`'s own rule (R161). -/
def nopBody (s : State) : State := s.respond 0x00#8 0#32 0#32

/-- `NOP` (R161). -/
def execNop (s : State) : Host.Outcome State Fault Refusal := .next (s.command nopBody)

/-- `RDS`'s own rule (R168): a selector outside the map faults, any other is read without side effect. -/
def rdsBody (sel : BitVec 16) (s : State) : State :=
  match decodeSelector sel with
  | some x => s.respond 0x00#8 (readSelected s x) 0#32
  | none => s.raise .illegal

/-- `RDS sel` (R168). -/
def execRds (sel : BitVec 16) (s : State) : Host.Outcome State Fault Refusal := .next (s.command (rdsBody sel))

end Sys2Proof.Machine
end

