-- ==== Sys2Proof/Machine/Params.lean ====
section
/-! DEFINITION. The parameter beats: PSET of each of the seven cells (43_commands.md R169), executed by the agent PS in any
phase, without a response. -/

namespace Sys2Proof.Machine

/-- `PSET HP_FREQ, v` (R169). -/
def execPsetHpFreq (v : Word) (s : State) : Host.Outcome State Fault Refusal := .next (s.writeCell .hpFreq v)

/-- `PSET LP_FREQ, v` (R169). -/
def execPsetLpFreq (v : Word) (s : State) : Host.Outcome State Fault Refusal := .next (s.writeCell .lpFreq v)

/-- `PSET BELL_FREQ, v` (R169). -/
def execPsetBellFreq (v : Word) (s : State) : Host.Outcome State Fault Refusal := .next (s.writeCell .bellFreq v)

/-- `PSET BELL_GAIN, v` (R169). -/
def execPsetBellGain (v : Word) (s : State) : Host.Outcome State Fault Refusal := .next (s.writeCell .bellGain v)

/-- `PSET BELL_Q, v` (R169). -/
def execPsetBellQ (v : Word) (s : State) : Host.Outcome State Fault Refusal := .next (s.writeCell .bellQ v)

/-- `PSET HP_ORDER, v` (R169). -/
def execPsetHpOrder (v : Word) (s : State) : Host.Outcome State Fault Refusal := .next (s.writeCell .hpOrder v)

/-- `PSET LP_ORDER, v` (R169). -/
def execPsetLpOrder (v : Word) (s : State) : Host.Outcome State Fault Refusal := .next (s.writeCell .lpOrder v)

end Sys2Proof.Machine
end

