-- ==== Sys2Proof/Machine/Stream.lean ====
section
/-! DEFINITION. The command that processes samples: FRAME (43_commands.md R167). -/

namespace Sys2Proof.Machine

/-- The left channel's `CHAIN_STEP(0, l)`: output and registers after it. -/
def frameLeft (policy : BypassPolicy) (l : Word) (s : State) : Word × Chain Word :=
  chainStep s.num policy s.draws s.left (s.num.ofWord l)

/-- The right channel's `CHAIN_STEP(1, r)`: output and registers after it. -/
def frameRight (policy : BypassPolicy) (r : Word) (s : State) : Word × Chain Word :=
  chainStep s.num policy (s.draws + 81) s.right (s.num.ofWord r)

/-- `FRAME`'s own rule (R167). -/
def frameBody (policy : BypassPolicy) (l r : Word) (s : State) : State :=
  if s.phase = .uninit then s.raise .notPrepared
  else
    let yl := frameLeft policy l s
    let yr := frameRight policy r s
    (({ s with left := yl.2, right := yr.2, draws := s.draws + frameDraws } : State).setPhase .running).respond 0x00#8
      (s.num.toWord yl.1) (s.num.toWord yr.1)

/-- `FRAME l, r` (R167). -/
def execFrame (l r : Word) (s : State) : Host.Outcome State Fault Refusal :=
  .next (s.command (frameBody Config.bypassPolicy l r))

end Sys2Proof.Machine
end

