-- ==== Sys2Proof/Machine/Dispatch.lean ====
section
/-! DEFINITION. The dispatch: one arm per instruction, each a direct call of its meaning. -/

namespace Sys2Proof.Machine

def exec (i : Instr) (s : State) : Host.Outcome State Fault Refusal :=
  match i with
  | .nop => Sys2Proof.Machine.execNop s
  | .prepare n fs maxblk => Sys2Proof.Machine.execPrepare n fs maxblk s
  | .update => Sys2Proof.Machine.execUpdate s
  | .frame l r => Sys2Proof.Machine.execFrame l r s
  | .rds sel => Sys2Proof.Machine.execRds sel s
  | .psetHpFreq v => Sys2Proof.Machine.execPsetHpFreq v s
  | .psetLpFreq v => Sys2Proof.Machine.execPsetLpFreq v s
  | .psetBellFreq v => Sys2Proof.Machine.execPsetBellFreq v s
  | .psetBellGain v => Sys2Proof.Machine.execPsetBellGain v s
  | .psetBellQ v => Sys2Proof.Machine.execPsetBellQ v s
  | .psetHpOrder v => Sys2Proof.Machine.execPsetHpOrder v s
  | .psetLpOrder v => Sys2Proof.Machine.execPsetLpOrder v s

end Sys2Proof.Machine
end

