-- ==== Sys2Proof/Machine/Step.lean ====
section
/-! DEFINITION. One step: take the next event and act on it; and the way an instruction is placed where the next step
finds it. -/

namespace Sys2Proof.Machine

/-- One step of the machine. A beat that decodes to an instruction runs it by `exec`, after the event is taken from the
list and the position moved; an illegal beat takes its fault; a reserved parameter beat is dropped; RST resets the block;
with no event pending the block waits. -/
def step (s : State) : Host.Outcome State Fault Refusal :=
  match s.nextEvent with
  | .idle => .next s
  | .rst => .next s.takeInput.rstBlock
  | .instr i => exec i s.takeInput
  | .illegal => .next s.takeInput.illegalBeat
  | .dropped => .next s.takeInput

/-- The state with the beat of a table word arriving next on its port (notes/assumptions/18.md). -/
def State.withFetchWord (s : State) (nbits w : Nat) : State :=
  { s with inputs := .beat (tableBeat nbits w) :: s.inputs }

end Sys2Proof.Machine
end

