-- ==== Sys2Proof/Machine/Assembler.lean ====
section
/-! DEFINITION. The assembler form: numeric operands, the lines of a run and the pseudo-instructions with their expansions
(30_encoding.md R90, R91), as data. -/

namespace Sys2Proof.Machine

/-- A numeric operand (R90): a raw word, the binary32 nearest to the decimal `±num/den`, or an unsigned integer. -/
inductive Operand where
  | raw (w : Word)
  | decimal (negative : Bool) (num den : Nat)
  | integer (n : Nat)
  deriving DecidableEq, Repr

/-- The word an operand stands for. -/
def operandWord : Operand → Word
  | .raw w => w
  | .decimal negative num den => F32.ofRat negative num den
  | .integer n => BitVec.ofNat 32 n

/-- The operand denotes a word: a decimal has a denominator, an integer fits 32 bits. -/
def operandWellFormed : Operand → Bool
  | .raw _ => true
  | .decimal _ _ den => den != 0
  | .integer n => decide (n < 2 ^ 32)

/-- One line of a run: a command, a `PSET`, or a pseudo-instruction (R90, R91). -/
inductive Line where
  | nop
  | prepare (n : Nat) (fs maxblk : Operand)
  | update
  | frame (l r : Operand)
  | rds (sel : Nat)
  | pset (k : Nat) (v : Operand)
  | block (frames : List (Operand × Operand))
  | rdcoef (ch s r : Nat)
  | rdstatus
  | rdsnap (k : Nat)
  | start (fs : Operand)
  deriving DecidableEq, Repr

/-- The operands of a line are in the ranges the spec gives them: `n` 8 bits (R82), `sel` 16 bits, `k` in 0..6 (R85), a
stage selector inside the map of 20_memory.md R65. -/
def lineWellFormed : Line → Bool
  | .nop => true
  | .prepare n fs maxblk => decide (n < 256) && operandWellFormed fs && operandWellFormed maxblk
  | .update => true
  | .frame l r => operandWellFormed l && operandWellFormed r
  | .rds sel => decide (sel < 2 ^ 16)
  | .pset k v => decide (k < 7) && operandWellFormed v
  | .block frames => frames.all fun f => operandWellFormed f.1 && operandWellFormed f.2
  | .rdcoef ch s r => decide (ch < 2) && decide (s < 9) && decide (r < 8)
  | .rdstatus => true
  | .rdsnap k => decide (k < 7)
  | .start fs => operandWellFormed fs

/-- `PSET k, v` for a cell number; a number above 6 selects no cell (R87). -/
def psetInstr (k : Nat) (v : Word) : List Instr :=
  match k with
  | 0 => [.psetHpFreq v]
  | 1 => [.psetLpFreq v]
  | 2 => [.psetBellFreq v]
  | 3 => [.psetBellGain v]
  | 4 => [.psetBellQ v]
  | 5 => [.psetHpOrder v]
  | 6 => [.psetLpOrder v]
  | _ => []

/-- The commands a line stands for (R91). -/
def expandLine : Line → List Instr
  | .nop => [.nop]
  | .prepare n fs maxblk => [.prepare n (operandWord fs) (operandWord maxblk)]
  | .update => [.update]
  | .frame l r => [.frame (operandWord l) (operandWord r)]
  | .rds sel => [.rds (BitVec.ofNat 16 sel)]
  | .pset k v => psetInstr k (operandWord v)
  | .block frames => .update :: frames.map fun f => .frame (operandWord f.1) (operandWord f.2)
  | .rdcoef ch s r => [.rds (BitVec.ofNat 16 (0x1000 + 0x100 * ch + 0x10 * s + r))]
  | .rdstatus => [.rds 0x0000#16]
  | .rdsnap k => [.rds (BitVec.ofNat 16 (0x0010 + k))]
  | .start fs => [.prepare 2 (operandWord fs) 0#32]

/-- The beats of a run's lines (R90). -/
def assemble (lines : List Line) : List Beat := lines.flatMap fun l => (expandLine l).map encode

end Sys2Proof.Machine
end

