-- ==== Sys2Proof/Machine/RealNum.lean ====
section
/-! DEFINITION. The instance REAL of NUM (40_numerics.md R113), under which the properties of the filters are exact
statements, the port operations under it, and the frequency response of a section. "REAL is not the hardware": no
instruction uses it. -/

namespace Sys2Proof.Machine

/-- `QINV[N][k] = 2·cos((2k+1)·π/(4N))`, exact (41_coefficient_generator.md R123). -/
noncomputable def qinvReal (N : Nat) : List ℝ :=
  if 1 ≤ N ∧ N ≤ 4 then (List.range N).map fun k : Nat => 2 * Real.cos ((2 * (k : ℝ) + 1) * Real.pi / (4 * (N : ℝ)))
  else []

/-- The four ideal functions (R110). At a pole of the tangent, `w` half an odd whole number and so outside the range column, there is no
ideal value and R111 says only that the result is some `Num` and a function of `w`: a free value, so nothing rests on
Mathlib's `Real.tan` there (DESIGN CHOICE, notes/assumptions/27.md). -/
noncomputable def elemReal : Elem ℝ where
  tanpi w := if Real.cos (Real.pi * w) = 0 then Config.realTanPole w else Real.tan (Real.pi * w)
  cos2pi w := Real.cos (2 * Real.pi * w)
  sin2pi w := Real.sin (2 * Real.pi * w)
  db40 g := (10 : ℝ) ^ (g / 40)

/-- The value of a finite binary32 word; none for a NaN or an infinity, which a model under REAL refuses (R113). -/
noncomputable def realOfWord? (w : Word) : Option ℝ :=
  if F32.isFinite w then some ((F32.val w : ℝ) / 2 ^ 149) else none

/-- A real number rounded to binary32, to nearest with ties to even (R113: "needed only at the response port"). The rule
does not name what lies outside the finite range nor the sign of a zero: a real that rounds beyond the largest finite word
gives the infinity of its sign, a negative real that rounds to zero gives −0.0, and 0 gives +0.0, as IEEE 754 rounds (the
model's choice, notes/assumptions/27.md). -/
noncomputable def realToWord (x : ℝ) : Word :=
  let u := |x| * 2 ^ 149
  let q := Nat.log2 ⌊u⌋₊ - 23
  let y := u / 2 ^ q
  let i := ⌊y⌋₊
  let m := if y - (i : ℝ) < 1 / 2 then i else if 1 / 2 < y - (i : ℝ) then i + 1 else i + i % 2
  F32.pack (decide (x < 0)) (min (q * 2 ^ 23 + m) F32.infBits)

/-- Exact division (R113). The rule states no quotient by 0: that one is a free value, and nothing rests on Mathlib's
`a / 0 = 0` (DESIGN CHOICE, notes/assumptions/27.md). -/
noncomputable def realDiv (a b : ℝ) : ℝ := if b = 0 then Config.realDivZero a else a / b

/-- `NUM = REAL` (R113). `ofWord` of a NaN or an infinity is undefined: a free value here, and refused by the port
operations below (notes/assumptions/27.md). -/
noncomputable def realNum : Num ℝ where
  zero := 0
  one := 1
  two := 2
  negTwo := -2
  half := 1 / 2
  fadd _ a b := a + b
  fsub _ a b := a - b
  fmul _ a b := a * b
  fdiv _ a b := realDiv a b
  flt a b := decide (a < b)
  fle a b := decide (a ≤ b)
  fisfinite _ := true
  ofWord w := (realOfWord? w).getD (Config.realOfWord w)
  toWord := realToWord
  elem := elemReal
  qinv := qinvReal

/-- A snapshot's five numeric words are finite, so that a model under REAL takes them (R113). -/
def snapshotFinite (p : Snapshot) : Bool :=
  F32.isFinite p.hpFreq && F32.isFinite p.lpFreq && F32.isFinite p.bellFreq && F32.isFinite p.bellGain &&
    F32.isFinite p.bellQ

/-- `VALIDATE` under REAL; none where a word is a NaN or an infinity, which a model under REAL refuses (R113). -/
noncomputable def realValidate? (p : Snapshot) (fs : Word) : Option (Option FaultCode) :=
  if snapshotFinite p && F32.isFinite fs then some (validate realNum 0 p (realNum.ofWord fs)) else none

/-- `BELL_COEF` under REAL on a snapshot and a sample rate; none where a word is a NaN or an infinity (R113). -/
noncomputable def realBell? (p : Snapshot) (fs : Word) : Option (Coef ℝ) :=
  if snapshotFinite p && F32.isFinite fs then
    some (bellCoef realNum 0 (realNum.ofWord fs) (realNum.ofWord p.bellFreq) (realNum.ofWord p.bellQ)
      (realNum.ofWord p.bellGain))
  else none

/-- `BW_COEF` under REAL on a snapshot and a sample rate; none where a word is a NaN or an infinity (R113). -/
noncomputable def realBank? (p : Snapshot) (fs : Word) (kind : Kind) : Option (List (Coef ℝ)) :=
  if snapshotFinite p && F32.isFinite fs then
    match kind with
    | .hp => some (bwCoef realNum 0 .hp (realNum.ofWord p.hpFreq) (realNum.ofWord fs) p.hpOrder.toNat)
    | .lp => some (bwCoef realNum 0 .lp (realNum.ofWord p.lpFreq) (realNum.ofWord fs) p.lpOrder.toNat)
  else none

/-- One channel of FRAME under REAL, from the sample word to the response word, the only use of `toWord`; none where the
sample is a NaN or an infinity (R113). -/
noncomputable def realFrame? (policy : BypassPolicy) (c : Chain ℝ) (x : Word) : Option (Word × Chain ℝ) :=
  if F32.isFinite x then
    some (realNum.toWord (chainStep realNum policy 0 c (realNum.ofWord x)).1,
      (chainStep realNum policy 0 c (realNum.ofWord x)).2)
  else none

/-- The transfer function of a section at a complex `z⁻¹` (10_state.md R21). -/
noncomputable def Coef.transfer (c : Coef ℝ) (zi : ℂ) : ℂ :=
  ((c.b0 : ℂ) + c.b1 * zi + c.b2 * zi ^ 2) / (1 + (c.a1 : ℂ) * zi + c.a2 * zi ^ 2)

/-- The response of a section at frequency `x` of sample rate `fs`: its transfer function on the unit circle. -/
noncomputable def Coef.response (c : Coef ℝ) (x fs : ℝ) : ℂ :=
  c.transfer (Complex.exp (-(2 * Real.pi * (x / fs) : ℝ) * Complex.I))

/-- The squared magnitude of a cascade at frequency `x` (41_coefficient_generator.md R127). -/
noncomputable def cascadeSq (cs : List (Coef ℝ)) (x fs : ℝ) : ℝ :=
  (cs.map fun c => Complex.normSq (c.response x fs)).prod

/-- The outputs of one stage with constant coefficients on the first `n` samples of an input, from cleared delay
registers, and the stage after them (42_stage_bank_chain.md R140, R141). -/
noncomputable def stageRun (c : Coef ℝ) (x : Nat → ℝ) : Nat → Biquad ℝ
  | 0 => { coef := c, z1 := 0, z2 := 0 }
  | n + 1 => (stageStep realNum 0 (stageRun c x n) (x n)).2

/-- The output of that stage at sample `n`. -/
noncomputable def stageOutput (c : Coef ℝ) (x : Nat → ℝ) (n : Nat) : ℝ :=
  (stageStep realNum 0 (stageRun c x n) (x n)).1

end Sys2Proof.Machine
end

