-- ==== Sys2Proof/Safety.lean ====
section
/-! DEFINITION. The terms claims use: the invariants of reachable states the spec names, the end of a run, the driver's
protocol and the store's promise. -/

namespace Sys2Proof.Machine

/-- Two chains hold the same coefficients and the same bypass flags, stage by stage (10_state.md R26). -/
def SameConfig (a b : Chain Word) : Prop :=
  ∀ s : Fin 9, (a.stage s).coef = (b.stage s).coef ∧ a.bypassed s = b.bypassed s

/-- The stereo symmetry invariant (10_state.md R26; 43_commands.md R171). -/
def StereoSymmetric (s : State) : Prop := SameConfig s.left s.right

/-- The flags of a bank enable exactly its `order` lowest sections: thermometer code (10_state.md R25). -/
def Thermometer {α : Type} (b : Bank α) (order : Nat) : Prop :=
  (b.s0.byp = false ↔ 0 < order) ∧ (b.s1.byp = false ↔ 1 < order) ∧ (b.s2.byp = false ↔ 2 < order) ∧
    (b.s3.byp = false ↔ 3 < order)

/-- A chain's flags are those of two orders. -/
def ChainThermometer (c : Chain Word) (hpOrder lpOrder : Nat) : Prop :=
  Thermometer c.hp hpOrder ∧ Thermometer c.lp lpOrder

/-- The selector agrees with the latched snapshot (R25): once a PREPARE has succeeded, both channels' flags are the
thermometer codes of the snapshot's orders, which are legal; before, every flag is 1 and no command that processes or
configures can run. -/
def SelectorDecoded (s : State) : Prop :=
  (s.prep = true →
    orderLegal s.snap.hpOrder = true ∧ orderLegal s.snap.lpOrder = true ∧
      ∀ c : Chan, ChainThermometer (s.chain c) s.snap.hpOrder.toNat s.snap.lpOrder.toNat) ∧
    (s.prep = false →
      (∀ c : Chan, ChainThermometer (s.chain c) 0 0) ∧ (s.phase = .uninit ∨ s.phase = .faulted))

/-- `PHASE` in PREPARED or RUNNING implies `PREP = 1` (R32), `PREP` says whether `FS` was written, and a written `FS`
passed PREPARE's check (R27). -/
def RateRecorded (s : State) : Prop :=
  (s.phase = .prepared ∨ s.phase = .running → s.prep = true) ∧ (s.prep = true ↔ s.fs.isSome = true) ∧
    ∀ f : Word, s.fs = some f → F32.isFinite f = true ∧ F32.lt F32.zero f = true

/-- `ERR` is one of the eight codes and is 0 exactly outside FAULTED (R30; 60_exceptions.md R181, R184). -/
def ErrMatchesPhase (s : State) : Prop := (s.phase = .faulted ↔ s.err ≠ 0#8) ∧ s.err.toNat ≤ 7

/-- The hidden state is empty between commands (10_state.md R34). -/
def HiddenEmpty (s : State) : Prop := s.snapMask = 0#7 ∧ s.scratch = emptyScratch

/-- One response per completed command (30_encoding.md R84; 10_state.md R36). -/
def AnsweredEach (s : State) : Prop := s.responses.length = s.pos

/-- How many commands of the run's list have not responded yet: the command beats still to come. Parameter beats and RST
may be left over. -/
def commandsLeft (s : State) : Nat := (s.inputs.map inputAdvance).sum

/-- The run has ended: every command of its list has produced its response and no SNAP_READ is in progress
(43_commands.md R172). -/
def runEnded (s : State) : Bool := commandsLeft s == 0 && s.snapMask == 0#7

/-- At most so many steps of a run, none once it has ended. -/
def runFor : Nat → State → State
  | 0, s => s
  | n + 1, s =>
    if runEnded s then s
    else
      match step s with
      | .next t => runFor n t
      | .fault _ => s
      | .refused _ => s

/-- The final state of the run that starts at `s`: the first state in which it has ended (R172). Every step takes one
event, so one step for each event is enough. -/
def finalState (s : State) : State := runFor s.inputs.length s

/-- The run that starts at `s` has a final state and it is good: its phase is not FAULTED (R172). An RST that comes after
the last response is no part of the run, so it makes no run good. -/
def GoodEnd (s : State) : Prop := runEnded (finalState s) = true ∧ (finalState s).phase ≠ .faulted

/-- The ranges of the schema (20_memory.md R62), the store's promise, which the core does not check: 20 to 20000 Hz,
−24 to 24 dB, 0.1 to 10, orders 1 to 4. -/
def inSchema (p : Snapshot) : Bool :=
  let freq (w : Word) := F32.le 0x41A00000#32 w && F32.le w 0x469C4000#32
  freq p.hpFreq && freq p.lpFreq && freq p.bellFreq && F32.le 0xC1C00000#32 p.bellGain &&
    F32.le p.bellGain 0x41C00000#32 && F32.le 0x3DCCCCCD#32 p.bellQ && F32.le p.bellQ 0x41200000#32 &&
    orderLegal p.hpOrder && orderLegal p.lpOrder

/-- The commands whose order 43_commands.md R170 rules: PREPARE, UPDATE, FRAME. A parameter beat is the other agent's and
may come at any time (R169; 70_reset_and_hazards.md R202 allows PSETs before PREPARE). R170 does not speak of NOP and RDS:
that they may stand anywhere in a well-formed stream, also before its PREPARE, where R202 calls them legal, is the model's
choice (DESIGN CHOICE, notes/assumptions/31.md). -/
def orderedInstr : Instr → Bool
  | .nop => false
  | .prepare _ _ _ => true
  | .update => true
  | .frame _ _ => true
  | .rds _ => false
  | .psetHpFreq _ => false
  | .psetLpFreq _ => false
  | .psetBellFreq _ => false
  | .psetBellGain _ => false
  | .psetBellQ _ => false
  | .psetHpOrder _ => false
  | .psetLpOrder _ => false

/-- What may follow the PREPARE of a well-formed stream: everything but another PREPARE, which begins the next stream
(notes/assumptions/31.md). -/
def blockInstr : Instr → Bool
  | .nop => true
  | .prepare _ _ _ => false
  | .update => true
  | .frame _ _ => true
  | .rds _ => true
  | .psetHpFreq _ => true
  | .psetLpFreq _ => true
  | .psetBellFreq _ => true
  | .psetBellGain _ => true
  | .psetBellQ _ => true
  | .psetHpOrder _ => true
  | .psetLpOrder _ => true

/-- A well-formed stream (43_commands.md R170): among the commands whose order is ruled, PREPARE for two channels first, then
blocks, of which the first may omit its UPDATE. The core does not enforce it. -/
def wellFormedStream (instrs : List Instr) : Bool :=
  match instrs.filter orderedInstr with
  | .prepare n _ _ :: rest => n == 2 && rest.all blockInstr
  | _ => false

/-! ### The spec's conditions and formulas, written apart from the meanings -/

/-- The commands of the command port, as against the parameter beats (00_scope.md R13). -/
def isCommand : Instr → Bool
  | .nop => true
  | .prepare _ _ _ => true
  | .update => true
  | .frame _ _ => true
  | .rds _ => true
  | .psetHpFreq _ => false
  | .psetLpFreq _ => false
  | .psetBellFreq _ => false
  | .psetBellGain _ => false
  | .psetBellQ _ => false
  | .psetHpOrder _ => false
  | .psetLpOrder _ => false

/-- Finite and above zero: the check of a sample rate, a frequency and a quality factor (43_commands.md R162, R165). -/
def Positive (w : Word) : Prop := F32.isFinite w = true ∧ 0 < F32.val w

/-- Step 1 of VALIDATE (R165). -/
def OrdersLegal (p : Snapshot) : Prop :=
  (1 ≤ p.hpOrder.toNat ∧ p.hpOrder.toNat ≤ 4) ∧ 1 ≤ p.lpOrder.toNat ∧ p.lpOrder.toNat ≤ 4

/-- Steps 2 to 4 of VALIDATE (R165). -/
def ParamsLegal (p : Snapshot) : Prop :=
  Positive p.hpFreq ∧ Positive p.lpFreq ∧ Positive p.bellFreq ∧ Positive p.bellQ ∧ F32.isFinite p.bellGain = true

/-- Step 5 of VALIDATE (R165): each frequency strictly below `fmul(fs, HALF)`. -/
def BelowNyquist (p : Snapshot) (fs : Word) : Prop :=
  F32.val p.hpFreq < F32.val (F32.mul 0 fs F32.half) ∧ F32.val p.lpFreq < F32.val (F32.mul 0 fs F32.half) ∧
    F32.val p.bellFreq < F32.val (F32.mul 0 fs F32.half)

/-- The state fault entry leaves (60_exceptions.md R183): ERR written if it was 0, PHASE FAULTED, the response
`(code + (3 << 8), 0, 0)`. -/
def afterFault (code : BitVec 8) (s : State) : State :=
  { s with
    err := if s.err = 0#8 then code else s.err
    phase := .faulted
    responses := { st := code.setWidth 32 + 0x300#32, rw0 := 0#32, rw1 := 0#32 } :: s.responses }

/-- The cells after the PSETs of some turns, in their order. -/
def psWrites : List Turn → Snapshot → Snapshot
  | [], p => p
  | .read _ :: ts, p => psWrites ts p
  | .pset k v :: ts, p => psWrites ts (p.set k v)

/-- The PSETs among some turns, in their order. -/
def psetsOf : List Turn → List (Cell × Word)
  | [] => []
  | .read _ :: ts => psetsOf ts
  | .pset k v :: ts => (k, v) :: psetsOf ts

/-- The cells after some PSETs, in their order. -/
def writeAll : List (Cell × Word) → Snapshot → Snapshot
  | [], p => p
  | (k, v) :: ws, p => writeAll ws (p.set k v)

/-- The number of a channel in a stage selector (20_memory.md R65). -/
def chanNumber : Chan → Nat
  | .left => 0
  | .right => 1

/-- The number of a stage register (R65). -/
def stageRegNumber : StageReg → Nat
  | .b0 => 0
  | .b1 => 1
  | .b2 => 2
  | .a1 => 3
  | .a2 => 4
  | .z1 => 5
  | .z2 => 6
  | .byp => 7

/-- The stage selector of a channel, a stage and a register: `0x1000 + 0x100·ch + 0x10·s + r` (R65). -/
def stageSelector (c : Chan) (s : Fin 9) (r : StageReg) : BitVec 16 :=
  BitVec.ofNat 16 (0x1000 + 0x100 * chanNumber c + 0x10 * s.val + stageRegNumber r)

/-- The selector of a snapshot word: `0x0010 + k` (R65). -/
def snapSelector (k : Cell) : BitVec 16 := BitVec.ofNat 16 (0x0010 + (cellIndex k).val)

/-- The selectors of the map (R65). -/
def MappedSelector (sel : BitVec 16) : Prop :=
  sel = 0x0000#16 ∨ sel = 0x0001#16 ∨ (∃ k, sel = snapSelector k) ∨ ∃ c s r, sel = stageSelector c s r

/-- `STAGE_MUX(ch, s, v)` by flat stage number (42_stage_bank_chain.md R142, R150), under HOLD: the sample after the stage
and the stage's registers after it. -/
def muxAt (N : Num Word) (d : Nat) (c : Chain Word) (s : Fin 9) (v : Word) : Word × Biquad Word :=
  if c.bypassed s then (v, c.stage s) else stageStep N (d + 9 * s.val) (c.stage s) v

/-- The sample entering stage `n`; for `n = 9` the chain's output: "`v = x; for s in 0..8 in order: v = STAGE_MUX(ch, s,
v)`" (R150). -/
def sampleAt (N : Num Word) (d : Nat) (c : Chain Word) (x : Word) : Nat → Word
  | 0 => x
  | n + 1 => if h : n < 9 then (muxAt N d c ⟨n, h⟩ (sampleAt N d c x n)).1 else sampleAt N d c x n

/-- What BANK_CFG makes of section `i` (R145): enabled with entry `i`, or bypassed with its coefficients kept. -/
def SectionConfigured (old new : CutStage Word) (cs : List (Coef Word)) (order i : Nat) : Prop :=
  (i < order → cs[i]? = some new.bq.coef ∧ new.byp = false) ∧
    (order ≤ i → new.bq.coef = old.bq.coef ∧ new.byp = true)

/-- What BANK_CFG makes of a bank (R145). -/
def BankConfigured (old new : Bank Word) (cs : List (Coef Word)) (order : Nat) : Prop :=
  SectionConfigured old.s0 new.s0 cs order 0 ∧ SectionConfigured old.s1 new.s1 cs order 1 ∧
    SectionConfigured old.s2 new.s2 cs order 2 ∧ SectionConfigured old.s3 new.s3 cs order 3

/-- What APPLY makes of a channel's coefficients and flags (43_commands.md R166), from a snapshot, a sample rate and the
first draw index of the command. -/
def ChainConfigured (N : Num Word) (d : Nat) (p : Snapshot) (fs : Word) (old new : Chain Word) : Prop :=
  BankConfigured old.hp new.hp (bwCoef N (d + 16) .hp p.hpFreq fs p.hpOrder.toNat) p.hpOrder.toNat ∧
    new.bell.coef = bellCoef N d fs p.bellFreq p.bellQ p.bellGain ∧
    BankConfigured old.lp new.lp (bwCoef N (d + 96) .lp p.lpFreq fs p.lpOrder.toNat) p.lpOrder.toNat

/-- Two chains hold the same delay registers. -/
def SameDelays (a b : Chain Word) : Prop :=
  ∀ s : Fin 9, (a.stage s).z1 = (b.stage s).z1 ∧ (a.stage s).z2 = (b.stage s).z2

/-- Every delay register of a chain is +0.0. -/
def DelaysClear (c : Chain Word) : Prop := ∀ s : Fin 9, (c.stage s).z1 = 0x00000000#32 ∧ (c.stage s).z2 = 0x00000000#32

/-- Every delay register of a chain is +0.0 or −0.0 (42_stage_bank_chain.md R153). -/
def DelaysSilent (c : Chain Word) : Prop := ∀ s : Fin 9, F32.mag (c.stage s).z1 = 0 ∧ F32.mag (c.stage s).z2 = 0

/-- Every coefficient of a section is finite. -/
def CoefFinite (c : Coef Word) : Prop :=
  F32.isFinite c.b0 = true ∧ F32.isFinite c.b1 = true ∧ F32.isFinite c.b2 = true ∧ F32.isFinite c.a1 = true ∧
    F32.isFinite c.a2 = true

/-- No coefficient of a section is a NaN (41_coefficient_generator.md R120 excepts NaN results from purity). -/
def CoefNoNaN (c : Coef Word) : Prop :=
  F32.isNaN c.b0 = false ∧ F32.isNaN c.b1 = false ∧ F32.isNaN c.b2 = false ∧ F32.isNaN c.a1 = false ∧
    F32.isNaN c.a2 = false

/-- `r` is the binary32 of the exact result `x`, given in units of 2^-149 (40_numerics.md R102): an infinity of its sign
from the midpoint above the largest finite number on (notes/assumptions/26.md), else a finite word than which none is
nearer, the even one of two equally near values. -/
def NearestEven (x : ℚ) (r : Word) : Prop :=
  (F32.isFinite r = true ↔ |x| < (2 ^ 25 - 1) * 2 ^ 252) ∧
    (F32.isFinite r = true → ∀ c : Word, F32.isFinite c = true →
      |x - F32.val r| ≤ |x - F32.val c| ∧ (|x - F32.val r| = |x - F32.val c| → F32.val c ≠ F32.val r → r.toNat % 2 = 0)) ∧
    (F32.isFinite r = false → r = if x < 0 then 0xFF800000#32 else 0x7F800000#32)

/-- The infinity of the exclusive-or of two signs. -/
def infOfSigns (a b : Word) : Word := if F32.sign a = F32.sign b then 0x7F800000#32 else 0xFF800000#32

/-- The zero of the exclusive-or of two signs. -/
def zeroOfSigns (a b : Word) : Word := if F32.sign a = F32.sign b then 0x00000000#32 else 0x80000000#32

/-- The bound of E-ACC, a numerator and a denominator: 1/2 for the reference, an implementation's open ELEM_ULP
(40_numerics.md R111; notes/assumptions/8.md). -/
def accBound : ElemChoice → Nat × Nat
  | .reference => (1, 2)
  | .implementation => Elem.elemUlp

/-- The binary32 nearest to an ideal value lies in the bounds E-FINITE gives the result, as 31 low bits. -/
def InBounds (least greatest : Nat) (i : Elem.Ideal) : Prop :=
  0 < i.den ∧ least ≤ F32.round i.num i.den ∧ F32.round i.num i.den ≤ greatest

/-- A result is within `u` units in the last place of an ideal value (40_numerics.md R111, E-ACC). -/
def WithinUlps (u : Nat × Nat) (r : Word) (i : Elem.Ideal) : Prop :=
  |(F32.val r : ℚ) - i.signed / i.den| ≤ u.1 / u.2 * 2 ^ F32.quantum i.num i.den

/-- The value of a word that is no NaN as an extended number, in units of 2^-149 (40_numerics.md R107). -/
def extVal (w : Word) : WithBot (WithTop Int) :=
  if F32.isInf w then (if F32.sign w then ⊥ else ((⊤ : WithTop Int) : WithBot (WithTop Int)))
  else (((F32.val w : Int) : WithTop Int) : WithBot (WithTop Int))

end Sys2Proof.Machine
end

