-- ==== Sys2Proof/Certificates/Slice0/Obligations.lean ====
section
/-! DEFINITION. The statements for the provers, from the numbered rules of spec/. -/

open Sys2Proof Sys2Proof.Machine

/-! ### Reset, events, the step -/

/-- 10_state.md R38: the whole reset table, of the state at the start and of every state RST leaves. -/
def Obligations.ResetState : Prop :=
  ∀ t : State, (t = State.reset ∨ ∃ (s : State) (rest : List Input), s.inputs = .rst :: rest ∧ step s = .next t) →
    (∀ (c : Chan) (s : Fin 9),
        ((t.chain c).stage s).coef = { b0 := 0x3F800000#32, b1 := 0#32, b2 := 0#32, a1 := 0#32, a2 := 0#32 } ∧
          ((t.chain c).stage s).z1 = 0x00000000#32 ∧ ((t.chain c).stage s).z2 = 0x00000000#32) ∧
      (∀ (c : Chan) (s : Fin 9), s ≠ 4 → (t.chain c).bypassed s = true) ∧
      (∀ c : Chan, (t.chain c).bypassed 4 = false) ∧
      t.fs = none ∧ readSelected t .fs = 0x00000000#32 ∧
      (∀ k : Cell, t.snap.get k = 0x00000000#32) ∧
      t.phase = .uninit ∧ t.err = 0#8 ∧ t.prep = false ∧ t.snapMask = 0#7 ∧
      t.cells =
        { hpFreq := 0x41A00000#32, lpFreq := 0x469C4000#32, bellFreq := 0x443B8000#32, bellGain := 0x00000000#32
          bellQ := 0x3F800000#32, hpOrder := 0x00000001#32, lpOrder := 0x00000001#32 }

/-- 70_reset_and_hazards.md R200, R202: RST in any phase gives every register its reset value, and the run goes on where it
stands; with no event pending the block waits unchanged (the model's choices of notes/assumptions/16.md, 17.md). -/
def Obligations.RstResetsAndIdleWaits : Prop :=
  (∀ (s : State) (rest : List Input), s.inputs = .rst :: rest →
      ∃ t, step s = .next t ∧
        (t.left = State.reset.left ∧ t.right = State.reset.right ∧ t.fs = State.reset.fs ∧ t.snap = State.reset.snap ∧
          t.phase = State.reset.phase ∧ t.err = State.reset.err ∧ t.prep = State.reset.prep ∧
          t.cells = State.reset.cells ∧ t.snapBuf = State.reset.snapBuf ∧ t.snapMask = State.reset.snapMask ∧
          t.scratch = State.reset.scratch) ∧
        t.inputs = rest ∧ t.pos = s.pos ∧ t.responses = s.responses ∧ t.psTurns = s.psTurns ∧ t.elem = s.elem) ∧
    ∀ s : State, s.inputs = [] → step s = .next s

/-- 43_commands.md R160: when the next event is a beat that decodes to an instruction, the step is `exec` of it on the
state with that beat taken and the position moved (10_state.md R36: by one for a command, not for a parameter beat).
That both ports' beats stand in one list is the model's choice (notes/assumptions/20.md). -/
def Obligations.StepRunsDecodedInstruction : Prop :=
  ∀ (s : State) (b : Beat) (rest : List Input) (i : Instr), s.inputs = .beat b :: rest → decode b = .instr i →
    step s = exec i { s with inputs := rest, pos := s.pos + (if isCommand i = true then 1 else 0) }

/-- 10_state.md R36: whatever the event and its outcome, a step takes exactly the head event, and the position moves by one
for a command beat and not otherwise. That a step with no event answers the same state, that RST leaves the position as it
is, and that the beats of both ports stand in one list are the model's choices (notes/assumptions/16.md, 17.md, 20.md). -/
def Obligations.PositionAdvancesByCommands : Prop :=
  ∀ s : State, ∃ t, step s = .next t ∧ t.inputs = s.inputs.tail ∧
    t.pos =
      match s.inputs.head? with
      | some (.beat (.command _)) => s.pos + 1
      | some (.beat (.parameter _)) => s.pos
      | some .rst => s.pos
      | none => s.pos

/-- 30_encoding.md R87, sentence by sentence: the illegal command beats fault with ERR_ILLEGAL and do nothing else; an RDS
beat with a selector outside the map decodes as RDS and faults with ERR_ILLEGAL when executed; a PREPARE beat decodes for
every `n`, and `n ≠ 2` is ERR_LAYOUT; a parameter beat with `k = 7` is dropped. -/
def Obligations.IllegalAndReservedBeats : Prop :=
  (∀ (s : State) (bits : BitVec 96) (rest : List Input), s.inputs = .beat (.command bits) :: rest → s.phase ≠ .faulted →
      (5 ≤ (opOf (hdrOf bits)).toNat ∨ (nOf (hdrOf bits) ≠ 0#8 ∧ opOf (hdrOf bits) ≠ 0x01#8) ∨
        (selOf (hdrOf bits) ≠ 0#16 ∧ opOf (hdrOf bits) ≠ 0x04#8)) →
      step s = .next (afterFault 0x01#8 { s with inputs := rest, pos := s.pos + 1 })) ∧
    (∀ (sel : BitVec 16) (a b : Word), decode (.command (commandBits (header 0x04#8 0#8 sel) a b)) = .instr (.rds sel)) ∧
    (∀ (s : State) (sel : BitVec 16), s.phase ≠ .faulted → ¬ MappedSelector sel →
      exec (.rds sel) s = .next (afterFault 0x01#8 s)) ∧
    (∀ (n : BitVec 8) (a b : Word),
      decode (.command (commandBits (header 0x01#8 n 0#16) a b)) = .instr (.prepare n.toNat a b)) ∧
    (∀ (s : State) (n : Nat) (a b : Word), s.phase ≠ .faulted → n ≠ 2 →
      exec (.prepare n a b) s = .next (afterFault 0x03#8 s)) ∧
    ∀ (s : State) (bits : BitVec 35) (rest : List Input), s.inputs = .beat (.parameter bits) :: rest → kOf bits = 7#3 →
      step s = .next { s with inputs := rest }

/-! ### Encoding -/

/-- 30_encoding.md R83, R85: decoding an encoded well-formed instruction gives it back, every operand at every value. -/
def Obligations.DecodeOfEncode : Prop :=
  ∀ i : Instr, i.WellFormed → decode (encode i) = .instr i

/-- 30_encoding.md R83, R86: a beat that decodes to an instruction decodes to a well-formed one, whose encoding is that
beat with the ignored words set to zero. -/
def Obligations.EncodeOfDecode : Prop :=
  ∀ (b : Beat) (i : Instr), decode b = .instr i → i.WellFormed ∧ encode i = canonicalBeat b

/-- 30_encoding.md R83: the match and mask table. A header matches at most one row; the row decides the command and its
operands; a header that matches none is illegal. -/
def Obligations.DecodeFollowsMatchMask : Prop :=
  ∀ bits : BitVec 96,
    let h := hdrOf bits
    (h &&& 0xFFFFFFFF#32 = 0x00000000#32 → decode (.command bits) = .instr .nop) ∧
      (h &&& 0xFF00FFFF#32 = 0x01000000#32 →
        decode (.command bits) = .instr (.prepare (h.extractLsb' 16 8).toNat (bits.extractLsb' 32 32) (bits.extractLsb' 0 32))) ∧
      (h &&& 0xFFFFFFFF#32 = 0x02000000#32 → decode (.command bits) = .instr .update) ∧
      (h &&& 0xFFFFFFFF#32 = 0x03000000#32 →
        decode (.command bits) = .instr (.frame (bits.extractLsb' 32 32) (bits.extractLsb' 0 32))) ∧
      (h &&& 0xFFFF0000#32 = 0x04000000#32 → decode (.command bits) = .instr (.rds (h.extractLsb' 0 16))) ∧
      (matchMaskRows.countP (fun r => h &&& r.2 == r.1) ≤ 1) ∧
      (matchMaskRows.countP (fun r => h &&& r.2 == r.1) = 0 → ∃ why, decode (.command bits) = .rejected why)

/-- 30_encoding.md R83, R85; 95_test_vectors.md 2.8: some beats written out. -/
def Obligations.WrittenBeatsDecode : Prop :=
  decode (.command 0x00000000DEADBEEF12345678#96) = .instr .nop ∧
    decode (.command 0x01020000473B800000000200#96) = .instr (.prepare 2 0x473B8000#32 0x00000200#32) ∧
    decode (.command 0x020000000000000000000000#96) = .instr .update ∧
    decode (.command 0x030000003F8000003F000000#96) = .instr (.frame 0x3F800000#32 0x3F000000#32) ∧
    decode (.command 0x040010500000000000000000#96) = .instr (.rds 0x1050#16) ∧
    decode (.command 0x050000000000000000000000#96) = .rejected .reservedOpcode ∧
    decode (.command 0x000100000000000000000000#96) = .rejected .channelField ∧
    decode (.command 0x020000010000000000000000#96) = .rejected .selectorField ∧
    decode (.parameter 0x500000004#35) = .instr (.psetHpOrder 0x00000004#32) ∧
    decode (.parameter 0x340C00000#35) = .instr (.psetBellGain 0x40C00000#32) ∧
    decode (.parameter 0x700000000#35) = .rejected .reservedCell

/-- 30_encoding.md R90: the beats of the syntax table as numbers. -/
def Obligations.BeatsAsNumbers : Prop :=
  encode .nop = .command 0#96 ∧
    (∀ (n : Nat) (fs blk : Word), n < 256 →
      encode (.prepare n fs blk) =
        .command (BitVec.ofNat 96 ((0x01000000 + n * 2 ^ 16) * 2 ^ 64 + fs.toNat * 2 ^ 32 + blk.toNat))) ∧
    encode .update = .command (BitVec.ofNat 96 (0x02000000 * 2 ^ 64)) ∧
    (∀ l r : Word, encode (.frame l r) = .command (BitVec.ofNat 96 (0x03000000 * 2 ^ 64 + l.toNat * 2 ^ 32 + r.toNat))) ∧
    (∀ sel : BitVec 16, encode (.rds sel) = .command (BitVec.ofNat 96 ((0x04000000 + sel.toNat) * 2 ^ 64))) ∧
    ∀ (k : Nat) (v : Word) (i : Instr), psetInstr k v = [i] → encode i = .parameter (BitVec.ofNat 35 (k * 2 ^ 32 + v.toNat))

/-- 30_encoding.md R90, R91: the beats of a well-formed line decode, in order, to the commands the line stands for; each
plain line is the beat of its command with its operands in their places; a raw word stands for itself, a decimal for the
binary32 nearest to it, an integer for its own word; the pseudo-instructions stand for the commands of their table, and
`RDCOEF ch, s, r` is the RDS of that stage register. That a decimal beyond the midpoint above the largest finite number
stands for an infinity is IEEE 754's threshold, presumed (notes/assumptions/26.md); lines and operands as data, a decimal
with a sign among them, are the model's choice (28.md). -/
def Obligations.LinesAssembleToTheirCommands : Prop :=
  (∀ l : Line, lineWellFormed l = true → (assemble [l]).map decode = (expandLine l).map Decoded.instr) ∧
    (∀ a b : List Line, assemble (a ++ b) = assemble a ++ assemble b) ∧
    (assemble [.nop] = [.command 0#96] ∧ assemble [.update] = [.command (BitVec.ofNat 96 (0x02000000 * 2 ^ 64))] ∧
      (∀ (n : Nat) (fs blk : Operand), n < 256 →
        assemble [.prepare n fs blk] =
          [.command (BitVec.ofNat 96 ((0x01000000 + n * 2 ^ 16) * 2 ^ 64 + (operandWord fs).toNat * 2 ^ 32 +
            (operandWord blk).toNat))]) ∧
      (∀ l r : Operand,
        assemble [.frame l r] =
          [.command (BitVec.ofNat 96 (0x03000000 * 2 ^ 64 + (operandWord l).toNat * 2 ^ 32 + (operandWord r).toNat))]) ∧
      (∀ sel : Nat, sel < 2 ^ 16 → assemble [.rds sel] = [.command (BitVec.ofNat 96 ((0x04000000 + sel) * 2 ^ 64))]) ∧
      ∀ (k : Nat) (v : Operand), k < 7 →
        assemble [.pset k v] = [.parameter (BitVec.ofNat 35 (k * 2 ^ 32 + (operandWord v).toNat))]) ∧
    ((∀ w : Word, operandWord (.raw w) = w) ∧ (∀ n : Nat, n < 2 ^ 32 → (operandWord (.integer n)).toNat = n) ∧
      ∀ (negative : Bool) (num den : Nat), den ≠ 0 →
        NearestEven ((if negative then -1 else 1) * (num : ℚ) / den * 2 ^ 149) (operandWord (.decimal negative num den))) ∧
    (∀ frames : List (Operand × Operand),
      expandLine (.block frames) = Instr.update :: frames.flatMap fun f => expandLine (.frame f.1 f.2)) ∧
    (∀ (c : Chan) (s : Fin 9) (r : StageReg),
      expandLine (.rdcoef (chanNumber c) s.val (stageRegNumber r)) = [.rds (stageSelector c s r)]) ∧
    expandLine .rdstatus = [.rds 0x0000#16] ∧
    (∀ k : Cell, expandLine (.rdsnap (cellIndex k).val) = [.rds (snapSelector k)]) ∧
    ∀ fs : Operand, expandLine (.start fs) = expandLine (.prepare 2 fs (.integer 0))

/-! ### NOP, RDS, the fault phase -/

/-- 43_commands.md R161: NOP responds OK and does nothing else, in every phase but FAULTED. -/
def Obligations.NopOnlyResponds : Prop :=
  ∀ s : State, s.phase ≠ .faulted →
    exec .nop s =
      .next { s with responses := { st := s.phase.bits.setWidth 32 <<< 8, rw0 := 0#32, rw1 := 0#32 } :: s.responses }

/-- 60_exceptions.md R184: in FAULTED every command beat, legal or illegal, changes nothing and is answered
`(ERR + 0x300, 0, 0)`; PSET still writes its cell; nothing but RST leaves the phase or changes ERR. -/
def Obligations.FaultedIsAbsorbing : Prop :=
  ∀ s : State, s.phase = .faulted →
    (∀ i : Instr, isCommand i = true →
        exec i s =
          .next { s with responses := { st := s.err.setWidth 32 + 0x300#32, rw0 := 0#32, rw1 := 0#32 } :: s.responses }) ∧
      (∀ (bits : BitVec 96) (rest : List Input), s.inputs = .beat (.command bits) :: rest →
        step s =
          .next { s with
            inputs := rest
            pos := s.pos + 1
            responses := { st := s.err.setWidth 32 + 0x300#32, rw0 := 0#32, rw1 := 0#32 } :: s.responses }) ∧
      (∀ (k : Cell) (v : Word) (i : Instr), psetInstr (cellIndex k).val v = [i] →
        exec i s = .next { s with cells := s.cells.set k v }) ∧
      ∀ t : State, step s = .next t → s.inputs.head? ≠ some .rst → t.phase = .faulted ∧ t.err = s.err

/-- 43_commands.md R168 with 20_memory.md R65: RDS returns the word of each selector of the map and changes no other
state; every other selector faults with ERR_ILLEGAL. -/
def Obligations.RdsReadsTheMap : Prop :=
  ∀ s : State, s.phase ≠ .faulted →
    let answer (w : Word) : Host.Outcome State Fault Refusal :=
      .next { s with responses := { st := stWord 0#8 s.phase, rw0 := w, rw1 := 0#32 } :: s.responses }
    exec (.rds 0x0000#16) s = answer (statusWord s.phase s.err s.prep) ∧
      exec (.rds 0x0001#16) s = answer (s.fs.getD 0#32) ∧
      (∀ k : Cell, exec (.rds (snapSelector k)) s = answer (s.snap.get k)) ∧
      (∀ (c : Chan) (i : Fin 9),
        exec (.rds (stageSelector c i .b0)) s = answer ((s.chain c).stage i).coef.b0 ∧
          exec (.rds (stageSelector c i .b1)) s = answer ((s.chain c).stage i).coef.b1 ∧
          exec (.rds (stageSelector c i .b2)) s = answer ((s.chain c).stage i).coef.b2 ∧
          exec (.rds (stageSelector c i .a1)) s = answer ((s.chain c).stage i).coef.a1 ∧
          exec (.rds (stageSelector c i .a2)) s = answer ((s.chain c).stage i).coef.a2 ∧
          exec (.rds (stageSelector c i .z1)) s = answer ((s.chain c).stage i).z1 ∧
          exec (.rds (stageSelector c i .z2)) s = answer ((s.chain c).stage i).z2 ∧
          exec (.rds (stageSelector c i .byp)) s = answer (if (s.chain c).bypassed i = true then 1#32 else 0#32)) ∧
      (∀ c : Chan, exec (.rds (stageSelector c 4 .byp)) s = answer 0#32) ∧
      ∀ sel : BitVec 16, ¬ MappedSelector sel → exec (.rds sel) s = .next (afterFault 0x01#8 s)

/-- 10_state.md R31: the word RDS 0x0000 returns is assembled from PHASE, ERR and PREP, every other bit 0. -/
def Obligations.StatusWordLayout : Prop :=
  ∀ s : State, s.phase ≠ .faulted →
    ∃ (t : State) (st w : Word), exec (.rds 0x0000#16) s = .next t ∧
      t.responses = { st := st, rw0 := w, rw1 := 0#32 } :: s.responses ∧
      w.extractLsb' 0 2 = s.phase.bits ∧ w.extractLsb' 2 6 = 0#6 ∧ w.extractLsb' 8 8 = s.err ∧
      (w.getLsbD 16 = true ↔ s.prep = true) ∧ w.extractLsb' 17 15 = 0#15

/-! ### PSET -/

/-- 43_commands.md R169: each of the seven parameter beats stores its word in its own cell, in any phase, and changes
nothing else. -/
def Obligations.PsetStoresItsCell : Prop :=
  ∀ (s : State) (v : Word),
    exec (.psetHpFreq v) s = .next { s with cells := { s.cells with hpFreq := v } } ∧
      exec (.psetLpFreq v) s = .next { s with cells := { s.cells with lpFreq := v } } ∧
      exec (.psetBellFreq v) s = .next { s with cells := { s.cells with bellFreq := v } } ∧
      exec (.psetBellGain v) s = .next { s with cells := { s.cells with bellGain := v } } ∧
      exec (.psetBellQ v) s = .next { s with cells := { s.cells with bellQ := v } } ∧
      exec (.psetHpOrder v) s = .next { s with cells := { s.cells with hpOrder := v } } ∧
      exec (.psetLpOrder v) s = .next { s with cells := { s.cells with lpOrder := v } }

/-- 30_encoding.md R85: the parameter beat `(k << 32) + v` stores `v` in cell `k` and leaves every other cell, every
register and the position as they were; with the reserved `k = 7` it stores nothing. -/
def Obligations.ParameterBeatStores : Prop :=
  ∀ (s : State) (rest : List Input) (v : Word),
    (∀ k : Cell, s.inputs = .beat (.parameter (BitVec.ofNat 35 ((cellIndex k).val * 2 ^ 32 + v.toNat))) :: rest →
        ∃ t, step s = .next t ∧ t.cells.get k = v ∧ (∀ j : Cell, j ≠ k → t.cells.get j = s.cells.get j) ∧
          t = { s with inputs := rest, cells := t.cells }) ∧
      (s.inputs = .beat (.parameter (BitVec.ofNat 35 (7 * 2 ^ 32 + v.toNat))) :: rest →
        step s = .next { s with inputs := rest })

/-! ### PREPARE -/

/-- 43_commands.md R162, R165; 60_exceptions.md R182, R183: the faults of PREPARE in check order, each with exactly the
effect of fault entry (after the snapshot was read, for the checks that read it). -/
def Obligations.PrepareFaultsInOrder : Prop :=
  ∀ (s : State) (n : Nat) (fs blk : Word), s.phase ≠ .faulted →
    (n ≠ 2 → exec (.prepare n fs blk) s = .next (afterFault 0x03#8 s)) ∧
      (n = 2 → ¬ Positive fs → exec (.prepare n fs blk) s = .next (afterFault 0x04#8 s)) ∧
      (n = 2 → Positive fs → ¬ OrdersLegal s.snapRead.snapBuf →
        exec (.prepare n fs blk) s = .next (afterFault 0x05#8 s.snapRead)) ∧
      (n = 2 → Positive fs → OrdersLegal s.snapRead.snapBuf → ¬ ParamsLegal s.snapRead.snapBuf →
        exec (.prepare n fs blk) s = .next (afterFault 0x07#8 s.snapRead)) ∧
      (n = 2 → Positive fs → OrdersLegal s.snapRead.snapBuf → ParamsLegal s.snapRead.snapBuf →
        ¬ BelowNyquist s.snapRead.snapBuf fs → exec (.prepare n fs blk) s = .next (afterFault 0x06#8 s.snapRead))

/-- 43_commands.md R162: where no check fails, PREPARE completes: FS, PREP, PHASE, SNAP, the cleared delay registers,
both channels' coefficients and flags from the generator at the new rate, the response OK; ERR stays, the cells change
only by PSETs inside the SNAP_READ. The model's choices: the kept events, position and ELEM (notes/assumptions/1.md), the
turns of one SNAP_READ used up (2.md), the draw indexes (4.md), the words left in SNAPBUF (12.md) and the emptied scratch
buffers (13.md). -/
def Obligations.PrepareCompletes : Prop :=
  ∀ (s : State) (fs blk : Word), s.phase ≠ .faulted → Positive fs → OrdersLegal s.snapRead.snapBuf →
    ParamsLegal s.snapRead.snapBuf → BelowNyquist s.snapRead.snapBuf fs →
    ∃ t, exec (.prepare 2 fs blk) s = .next t ∧
      t.fs = some fs ∧ t.prep = true ∧ t.phase = .prepared ∧ t.err = s.err ∧ t.snap = s.snapRead.snapBuf ∧
      (∀ c : Chan, DelaysClear (t.chain c)) ∧
      (∀ c : Chan, ChainConfigured (f32 (Elem.ofChoice s.elem)) s.draws s.snapRead.snapBuf fs (s.chain c) (t.chain c)) ∧
      t.responses = { st := 0x00000100#32, rw0 := 0#32, rw1 := 0#32 } :: s.responses ∧
      t.cells = psWrites (s.psTurns.headD []) s.cells ∧ t.snapBuf = s.snapRead.snapBuf ∧ t.snapMask = 0#7 ∧
      t.scratch = emptyScratch ∧ t.inputs = s.inputs ∧ t.pos = s.pos ∧ t.psTurns = s.psTurns.tail ∧ t.elem = s.elem

/-! ### UPDATE -/

/-- 43_commands.md R163, R165; 60_exceptions.md R182, R183: the faults of UPDATE in check order. -/
def Obligations.UpdateFaultsInOrder : Prop :=
  ∀ s : State, s.phase ≠ .faulted →
    (s.phase = .uninit → exec .update s = .next (afterFault 0x02#8 s)) ∧
      ∀ fs : Word, s.phase ≠ .uninit → s.fs = some fs →
        (¬ OrdersLegal s.snapRead.snapBuf → exec .update s = .next (afterFault 0x05#8 s.snapRead)) ∧
          (OrdersLegal s.snapRead.snapBuf → ¬ ParamsLegal s.snapRead.snapBuf →
            exec .update s = .next (afterFault 0x07#8 s.snapRead)) ∧
          (OrdersLegal s.snapRead.snapBuf → ParamsLegal s.snapRead.snapBuf → ¬ BelowNyquist s.snapRead.snapBuf fs →
            exec .update s = .next (afterFault 0x06#8 s.snapRead))

/-- 43_commands.md R163: where no check fails, UPDATE completes: SNAP and both channels' coefficients and flags from
the generator at the recorded rate, the response OK; the delay registers, FS, PREP, PHASE and ERR stay, the cells change
only by PSETs inside the SNAP_READ. The model's choices: the kept events, position and ELEM (notes/assumptions/1.md), the
turns of one SNAP_READ used up (2.md), the draw indexes (4.md), the words left in SNAPBUF (12.md) and the emptied scratch
buffers (13.md). -/
def Obligations.UpdateCompletes : Prop :=
  ∀ (s : State) (fs : Word), RateRecorded s → s.phase = .prepared ∨ s.phase = .running → s.fs = some fs →
    OrdersLegal s.snapRead.snapBuf → ParamsLegal s.snapRead.snapBuf → BelowNyquist s.snapRead.snapBuf fs →
    ∃ t, exec .update s = .next t ∧
      t.fs = s.fs ∧ t.prep = s.prep ∧ t.phase = s.phase ∧ t.err = s.err ∧ t.snap = s.snapRead.snapBuf ∧
      (∀ c : Chan, SameDelays (t.chain c) (s.chain c)) ∧
      (∀ c : Chan, ChainConfigured (f32 (Elem.ofChoice s.elem)) s.draws s.snapRead.snapBuf fs (s.chain c) (t.chain c)) ∧
      t.responses = { st := s.phase.bits.setWidth 32 <<< 8, rw0 := 0#32, rw1 := 0#32 } :: s.responses ∧
      t.cells = psWrites (s.psTurns.headD []) s.cells ∧ t.snapBuf = s.snapRead.snapBuf ∧ t.snapMask = 0#7 ∧
      t.scratch = emptyScratch ∧ t.inputs = s.inputs ∧ t.pos = s.pos ∧ t.psTurns = s.psTurns.tail ∧ t.elem = s.elem

/-- 43_commands.md R163 corner case 3, 41_coefficient_generator.md R120: two UPDATEs in a row with no PSET between
leave what one leaves, wherever no enabled section's new coefficient is a NaN. That SNAPBUF keeps its words is the
model's choice (notes/assumptions/12.md). -/
def Obligations.UpdateTwiceIsOnce : Prop :=
  ∀ s t u : State, s.psTurns = [] → exec .update s = .next t → t.phase ≠ .faulted →
    (∀ (c : Chan) (i : Fin 9), (t.chain c).bypassed i = false → CoefNoNaN ((t.chain c).stage i).coef) →
    exec .update t = .next u →
      u.left = t.left ∧ u.right = t.right ∧ u.snap = t.snap ∧ u.fs = t.fs ∧ u.phase = t.phase ∧ u.err = t.err ∧
        u.prep = t.prep ∧ u.cells = t.cells ∧ u.snapBuf = t.snapBuf ∧ u.snapMask = t.snapMask ∧ u.scratch = t.scratch

/-! ### FRAME -/

/-- 43_commands.md R167 with 42_stage_bank_chain.md R142, R150: after PREPARE, FRAME completes: each channel's sample
goes through the nine stages in order, each stage keeping the registers the multiplexer leaves it, PHASE becomes
RUNNING, and the response carries the two outputs; in UNINIT it faults with ERR_NOT_PREPARED. The draw indexes are the
model's choice (notes/assumptions/4.md). -/
def Obligations.FrameRunsNineStages : Prop :=
  ∀ (s : State) (l r : Word),
    (s.phase = .uninit → exec (.frame l r) s = .next (afterFault 0x02#8 s)) ∧
      (s.phase = .prepared ∨ s.phase = .running →
        ∃ t, exec (.frame l r) s = .next t ∧ t.phase = .running ∧
          t.responses =
            { st := 0x00000200#32
              rw0 := sampleAt (f32 (Elem.ofChoice s.elem)) s.draws s.left l 9
              rw1 := sampleAt (f32 (Elem.ofChoice s.elem)) (s.draws + 81) s.right r 9 } :: s.responses ∧
          ∀ i : Fin 9,
            t.left.stage i =
                (muxAt (f32 (Elem.ofChoice s.elem)) s.draws s.left i
                  (sampleAt (f32 (Elem.ofChoice s.elem)) s.draws s.left l i.val)).2 ∧
              t.right.stage i =
                (muxAt (f32 (Elem.ofChoice s.elem)) (s.draws + 81) s.right i
                  (sampleAt (f32 (Elem.ofChoice s.elem)) (s.draws + 81) s.right r i.val)).2)

/-- 43_commands.md R167; 10_state.md R22, R40: the frame of FRAME. No coefficient, no flag, no delay register of a
bypassed stage (42_stage_bank_chain.md R143, HOLD), no FS, SNAP, PREP, cell or hidden register changes; ERR changes
only by the fault of UNINIT. That the run's own data stays is the model's form (notes/assumptions/1.md). -/
def Obligations.FrameLeavesTheRest : Prop :=
  ∀ (s t : State) (l r : Word), exec (.frame l r) s = .next t →
    (∀ (c : Chan) (i : Fin 9),
        ((t.chain c).stage i).coef = ((s.chain c).stage i).coef ∧ (t.chain c).bypassed i = (s.chain c).bypassed i ∧
          ((s.chain c).bypassed i = true → (t.chain c).stage i = (s.chain c).stage i)) ∧
      t.fs = s.fs ∧ t.snap = s.snap ∧ t.prep = s.prep ∧ t.cells = s.cells ∧ t.snapBuf = s.snapBuf ∧
      t.snapMask = s.snapMask ∧ t.scratch = s.scratch ∧ t.inputs = s.inputs ∧ t.pos = s.pos ∧ t.psTurns = s.psTurns ∧
      t.elem = s.elem ∧ (s.phase ≠ .uninit → t.err = s.err)

/-- 43_commands.md R167, 70_reset_and_hazards.md R204: FRAME reads no parameter cell, not FS and not SNAP. Two runs that
differ in those only differ in those only after it. -/
def Obligations.FrameIgnoresParameters : Prop :=
  ∀ (s t : State) (l r : Word) (cells snap buf : Snapshot) (fs : Option Word) (turns : List (List Turn)),
    exec (.frame l r) s = .next t →
      exec (.frame l r) { s with cells := cells, snap := snap, snapBuf := buf, fs := fs, psTurns := turns } =
        .next { t with cells := cells, snap := snap, snapBuf := buf, fs := fs, psTurns := turns }

/-- 42_stage_bank_chain.md R152, 10_state.md R39: a channel's output and registers after FRAME depend on the other channel
in nothing. -/
def Obligations.ChannelsAreIndependent : Prop :=
  ∀ (s t t' : State) (l r x : Word) (other : Chain Word), s.phase = .prepared ∨ s.phase = .running →
    (exec (.frame l r) s = .next t → exec (.frame l x) { s with right := other } = .next t' →
        t'.left = t.left ∧ (t'.responses.head?.map Response.rw0) = t.responses.head?.map Response.rw0) ∧
      (exec (.frame l r) s = .next t → exec (.frame x r) { s with left := other } = .next t' →
        t'.right = t.right ∧ (t'.responses.head?.map Response.rw1) = t.responses.head?.map Response.rw1)

/-! ### The stage, the selector, the banks -/

/-- 42_stage_bank_chain.md R140: the lines of STAGE_STEP's pseudocode under F32, "y = fadd(fmul(b0, x), z1)" and the two
after it, registers read before any write. The indexes of the NaN draws are the model's choice (notes/assumptions/4.md). -/
def Obligations.StageStepEquations : Prop :=
  ∀ (e : Elem Word) (d : Nat) (c : Coef Word) (z1 z2 x : Word), ∃ y n1 n2 : Word,
    stageStep (f32 e) d { coef := c, z1 := z1, z2 := z2 } x = (y, { coef := c, z1 := n1, z2 := n2 }) ∧
      y = F32.add (d + 1) (F32.mul d c.b0 x) z1 ∧
      n1 = F32.add (d + 5) (F32.sub (d + 4) (F32.mul (d + 2) c.b1 x) (F32.mul (d + 3) c.a1 y)) z2 ∧
      n2 = F32.sub (d + 8) (F32.mul (d + 6) c.b2 x) (F32.mul (d + 7) c.a2 y)

/-- 42_stage_bank_chain.md R142, R143: a bypassed stage returns its input word bit for bit under every policy; its registers
stay under HOLD, advance under ADVANCE, and under RESET are cleared by the APPLY that bypasses it; an enabled stage takes
the STAGE_STEP branch. That under RESET every APPLY that leaves the flag 1 clears them, also those of a stage that was
bypassed before, is the model's choice (notes/assumptions/11.md). -/
def Obligations.SelectorPassesOrSteps : Prop :=
  ∀ (N : Num Word) (d : Nat) (b : Biquad Word) (x : Word),
    (∀ p : BypassPolicy, (stageMux N p d { bq := b, byp := true } x).1 = x) ∧
      (stageMux N .hold d { bq := b, byp := true } x).2 = { bq := b, byp := true } ∧
      (stageMux N .advance d { bq := b, byp := true } x).2 = { bq := (stageStep N d b x).2, byp := true } ∧
      (stageMux N .reset d { bq := b, byp := true } x).2 = { bq := b, byp := true } ∧
      (∀ (cs : List (Coef Word)) (n i : Nat) (f : Bool), n ≤ i →
        configSection N .reset cs n i { bq := b, byp := f } =
          { bq := { coef := b.coef, z1 := N.zero, z2 := N.zero }, byp := true }) ∧
      ∀ p : BypassPolicy,
        stageMux N p d { bq := b, byp := false } x =
          ((stageStep N d b x).1, { bq := (stageStep N d b x).2, byp := false })

/-- 42_stage_bank_chain.md R147: after BANK_CFG with order `n` exactly the `n` lowest sections are enabled, whatever the bank
held, with the flag vectors 1110, 1100, 1000, 0000. -/
def Obligations.SelectorDecode : Prop :=
  ∀ (N : Num Word) (p : BypassPolicy) (cs : List (Coef Word)) (n : Nat) (b : Bank Word), 1 ≤ n → n ≤ 4 →
    (bankConfig N p cs n b).active = n ∧ Thermometer (bankConfig N p cs n b) n ∧
      (n = 1 → (bankConfig N p cs n b).flags = 0b1110#4) ∧ (n = 2 → (bankConfig N p cs n b).flags = 0b1100#4) ∧
      (n = 3 → (bankConfig N p cs n b).flags = 0b1000#4) ∧ (n = 4 → (bankConfig N p cs n b).flags = 0b0000#4)

/-- 42_stage_bank_chain.md R146: BANK_CFG twice with the same operands leaves exactly the state one leaves, delay registers
included. -/
def Obligations.BankConfigIdempotent : Prop :=
  ∀ (N : Num Word) (p : BypassPolicy) (cs : List (Coef Word)) (n : Nat) (b : Bank Word),
    bankConfig N p cs n (bankConfig N p cs n b) = bankConfig N p cs n b

/-! ### SNAP_READ -/

/-- 43_commands.md R164: if PS is quiet, the snapshot is the cells, which stay as they are. The turns of a SNAP_READ
as data are the model's form (notes/assumptions/2.md). -/
def Obligations.QuietSnapshotIsTheCells : Prop :=
  ∀ s : State, s.psTurns.headD [] = [] →
    s.snapRead.snapBuf = s.cells ∧ s.snapRead.cells = s.cells ∧ s.snapRead.snapMask = 0#7

/-- 20_memory.md R72: each word of a snapshot is the content its cell had at some instant of the SNAP_READ (what may
happen: no word from anywhere else); the cells afterwards are those the PSETs left. The turns of a SNAP_READ as data
are the model's form (notes/assumptions/2.md). -/
def Obligations.SnapshotWordsWereInTheirCells : Prop :=
  ∀ s : State,
    s.snapRead.cells = psWrites (s.psTurns.headD []) s.cells ∧
      ∀ k : Cell, ∃ before after : List Turn, s.psTurns.headD [] = before ++ after ∧
        s.snapRead.snapBuf.get k = (psWrites before s.cells).get k

/-- 20_memory.md R72: the seven instants are independent (what can happen): for any PSETs in any order and any choice
of an instant for each cell, there are turns of the two agents with those PSETs that give that snapshot. The turns of
a SNAP_READ as data are the model's form (notes/assumptions/2.md). -/
def Obligations.EveryTornSnapshotOccurs : Prop :=
  ∀ (s : State) (writes : List (Cell × Word)) (instant : Cell → Nat) (later : List (List Turn)),
    ∃ turns : List Turn, psetsOf turns = writes ∧
      ∀ k : Cell,
        ({ s with psTurns := turns :: later } : State).snapRead.snapBuf.get k =
          (writeAll (writes.take (instant k)) s.cells).get k

/-! ### Invariants -/

/-- 10_state.md R26, 43_commands.md R171: every step keeps the stereo symmetry. -/
def Obligations.StereoSymmetryKept : Prop :=
  ∀ s t : State, StereoSymmetric s → step s = .next t → StereoSymmetric t

/-- 10_state.md R25: every step keeps the flags the thermometer codes of the latched orders. -/
def Obligations.SelectorDecodedKept : Prop :=
  ∀ s t : State, SelectorDecoded s → step s = .next t → SelectorDecoded t

/-- 10_state.md R27, R32: every step keeps PHASE, PREP and FS in agreement. -/
def Obligations.RateRecordedKept : Prop :=
  ∀ s t : State, RateRecorded s → step s = .next t → RateRecorded t

/-- 10_state.md R30, 60_exceptions.md R181, R184: every step keeps ERR a code of the table and 0 exactly outside FAULTED. -/
def Obligations.ErrMatchesPhaseKept : Prop :=
  ∀ s t : State, ErrMatchesPhase s → step s = .next t → ErrMatchesPhase t

/-- 10_state.md R34: every step leaves the hidden state empty. That APPLY empties the scratch buffers is the model's
reading (notes/assumptions/13.md). -/
def Obligations.HiddenEmptyKept : Prop :=
  ∀ s t : State, HiddenEmpty s → step s = .next t → HiddenEmpty t

/-- 30_encoding.md R84: every step keeps one response per command taken. The history of responses is the model's form
(notes/assumptions/29.md). -/
def Obligations.AnsweredEachKept : Prop :=
  ∀ s t : State, AnsweredEach s → step s = .next t → AnsweredEach t

/-- The invariants hold at reset (10_state.md R25, R26, R32, R34). -/
def Obligations.ResetMeetsTheInvariants : Prop :=
  StereoSymmetric State.reset ∧ SelectorDecoded State.reset ∧ RateRecorded State.reset ∧ ErrMatchesPhase State.reset ∧
    HiddenEmpty State.reset ∧ AnsweredEach State.reset

/-- 43_commands.md R172 with 10_state.md R36 and 30_encoding.md R84: every run ends: within its events it reaches a state in
which every command of its list has produced its response and no SNAP_READ is in progress, with one position and one
response more for each command; events that stand behind the last command, RST among them, change nothing of whether the
final state is good. The events in one list, RST among them, are the model's form (notes/assumptions/1.md, 17.md, 20.md,
29.md). -/
def Obligations.EveryRunEnds : Prop :=
  ∀ s : State, HiddenEmpty s →
    runEnded (finalState s) = true ∧ (finalState s).pos = s.pos + commandsLeft s ∧
      (finalState s).responses.length = s.responses.length + commandsLeft s ∧
      ∀ later : List Input, (later.map inputAdvance).sum = 0 →
        (GoodEnd { s with inputs := s.inputs ++ later } ↔ GoodEnd s)

/-! ### Rules about every command -/

/-- 43_commands.md R160, 60_exceptions.md R183, R186: a command that faults writes no coefficient, flag, delay register,
FS, SNAP or PREP, and its response is the code of one of the seven faults with zeros. -/
def Obligations.FaultsWriteNothingElse : Prop :=
  ∀ (i : Instr) (s t : State), isCommand i = true → s.phase ≠ .faulted → exec i s = .next t → t.phase = .faulted →
    t.left = s.left ∧ t.right = s.right ∧ t.fs = s.fs ∧ t.snap = s.snap ∧ t.prep = s.prep ∧ t.scratch = s.scratch ∧
      ∃ code : FaultCode, t.err = (if s.err = 0#8 then code.bits else s.err) ∧
        t.responses = { st := code.bits.setWidth 32 + 0x300#32, rw0 := 0#32, rw1 := 0#32 } :: s.responses

/-- 10_state.md R29: the transition table of PHASE over every instruction. -/
def Obligations.PhaseTransitions : Prop :=
  ∀ (i : Instr) (s t : State), exec i s = .next t →
    (s.phase = .faulted → t.phase = .faulted) ∧
      (isCommand i = false → t.phase = s.phase) ∧
      (s.phase ≠ .faulted → t.phase ≠ .faulted →
        (∀ n fs blk, i = .prepare n fs blk → t.phase = .prepared) ∧
          (∀ l r, i = .frame l r → s.phase ≠ .uninit ∧ t.phase = .running) ∧
          (i = .update → s.phase ≠ .uninit ∧ t.phase = s.phase) ∧
          (i = .nop → t.phase = s.phase) ∧ ∀ sel, i = .rds sel → t.phase = s.phase) ∧
      (s.phase ≠ .faulted → t.phase = .faulted → t.err ≠ 0#8)

/-- 30_encoding.md R84: every command emits exactly one response, a parameter beat none; the response carries the code now
in ERR and PHASE after the command, zeros above, and zero data where the rule says so. -/
def Obligations.ResponseFormat : Prop :=
  ∀ (i : Instr) (s t : State), ErrMatchesPhase s → exec i s = .next t →
    (isCommand i = false → t.responses = s.responses) ∧
      (isCommand i = true → ∃ r : Response, t.responses = r :: s.responses ∧
        r.st.extractLsb' 0 8 = t.err ∧ r.st.extractLsb' 8 2 = t.phase.bits ∧ r.st.extractLsb' 10 22 = 0#22 ∧
        (t.err ≠ 0#8 → r.rw0 = 0#32 ∧ r.rw1 = 0#32) ∧
        ((∀ l x, i ≠ .frame l x) → r.rw1 = 0#32) ∧
        ((∀ l x, i ≠ .frame l x) → (∀ sel, i ≠ .rds sel) → r.rw0 = 0#32))

/-- 10_state.md R40: who may write what. Coefficients, flags and SNAP only PREPARE and UPDATE; delay registers only PREPARE
and FRAME (HOLD); FS and PREP only PREPARE; PHASE only PREPARE, FRAME and fault entry; ERR only fault entry; a cell only PSET
(its own beat, or one inside a SNAP_READ). -/
def Obligations.WriteRights : Prop :=
  ∀ (i : Instr) (s t : State), exec i s = .next t →
    ((∀ n fs blk, i ≠ .prepare n fs blk) → i ≠ .update → SameConfig t.left s.left ∧ SameConfig t.right s.right ∧
        t.snap = s.snap) ∧
      ((∀ n fs blk, i ≠ .prepare n fs blk) → (∀ l r, i ≠ .frame l r) → SameDelays t.left s.left ∧
        SameDelays t.right s.right) ∧
      ((∀ n fs blk, i ≠ .prepare n fs blk) → t.fs = s.fs ∧ t.prep = s.prep) ∧
      (t.phase ≠ s.phase → t.phase = .faulted ∨ (∃ n fs blk, i = .prepare n fs blk) ∨ ∃ l r, i = .frame l r) ∧
      (t.err ≠ s.err → t.phase = .faulted ∧ s.err = 0#8) ∧
      (isCommand i = true → t.cells = s.cells ∨ t.cells = psWrites (s.psTurns.headD []) s.cells)

/-! ### Arithmetic -/

/-- 40_numerics.md R102: addition, subtraction, multiplication and division of finite words round the exact result once,
to nearest with ties to even, and a result that overflows is an infinity of its sign. Values are in units of 2^-149, so
products and quotients are scaled. The threshold of overflow is IEEE 754's, presumed (notes/assumptions/26.md). -/
def Obligations.OperationsRoundToNearestEven : Prop :=
  ∀ (d : Nat) (a b : Word), F32.isFinite a = true → F32.isFinite b = true →
    NearestEven (F32.val a + F32.val b) (F32.add d a b) ∧
      NearestEven (F32.val a - F32.val b) (F32.sub d a b) ∧
      NearestEven (F32.val a * F32.val b / 2 ^ 149) (F32.mul d a b) ∧
      (F32.val b ≠ 0 → NearestEven (F32.val a * 2 ^ 149 / F32.val b) (F32.div d a b))

/-- 40_numerics.md R107: the comparisons are those of the extended reals, −0 equal to +0, and false on a NaN; a word is finite
exactly when its exponent field is not 255. -/
def Obligations.ComparisonsOfExtendedReals : Prop :=
  ∀ a b : Word,
    (F32.lt a b = true ↔ F32.isNaN a = false ∧ F32.isNaN b = false ∧ extVal a < extVal b) ∧
      (F32.le a b = true ↔ F32.isNaN a = false ∧ F32.isNaN b = false ∧ extVal a ≤ extVal b) ∧
      (F32.isFinite a = true ↔ a.extractLsb' 23 8 ≠ 0xFF#8) ∧ extVal 0x80000000#32 = extVal 0x00000000#32

/-- 40_numerics.md R104: the signs of zero. -/
def Obligations.SignedZeros : Prop :=
  (∀ d : Nat, F32.add d 0x00000000#32 0x80000000#32 = 0x00000000#32 ∧ F32.add d 0x80000000#32 0x00000000#32 = 0x00000000#32 ∧
      F32.add d 0x80000000#32 0x80000000#32 = 0x80000000#32) ∧
    (∀ (d : Nat) (x : Word), F32.isFinite x = true → F32.sub d x x = 0x00000000#32) ∧
    (∀ (d : Nat) (a b : Word), F32.isNaN (F32.mul d a b) = false → F32.sign (F32.mul d a b) = (F32.sign a != F32.sign b)) ∧
    (∀ (d : Nat) (a b : Word), F32.isNaN (F32.div d a b) = false → F32.sign (F32.div d a b) = (F32.sign a != F32.sign b)) ∧
    ∀ (e : Elem Word) (d : Nat),
      (stageStep (f32 e) d { coef := identityCoef, z1 := 0x00000000#32, z2 := 0x00000000#32 } 0x80000000#32).1 = 0x00000000#32 ∧
        (∀ p : BypassPolicy, (stageMux (f32 e) p d { bq := identityStage, byp := true } 0x80000000#32).1 = 0x80000000#32)

/-- 40_numerics.md R102, R106, whatever the draw: each of the four operations gives a NaN exactly when an operand is a NaN
or the operation is invalid; every other result with an infinite operand is the infinity or the zero of IEEE 754; division
of a finite non-zero value by zero gives an infinity of the exclusive-or of the signs. The drawn NaN is the model's free
value (notes/assumptions/3.md), the results of infinite operands are IEEE 754's, presumed (26.md). -/
def Obligations.NaNResults : Prop :=
  ∀ (d : Nat) (a b : Word),
    (F32.isNaN (F32.add d a b) = true ↔
        F32.isNaN a = true ∨ F32.isNaN b = true ∨ (F32.isInf a = true ∧ F32.isInf b = true ∧ F32.sign a ≠ F32.sign b)) ∧
      (F32.isNaN (F32.sub d a b) = true ↔
        F32.isNaN a = true ∨ F32.isNaN b = true ∨ (F32.isInf a = true ∧ F32.isInf b = true ∧ F32.sign a = F32.sign b)) ∧
      (F32.isNaN (F32.mul d a b) = true ↔
        F32.isNaN a = true ∨ F32.isNaN b = true ∨ (F32.isInf a = true ∧ F32.mag b = 0) ∨
          (F32.mag a = 0 ∧ F32.isInf b = true)) ∧
      (F32.isNaN (F32.div d a b) = true ↔
        F32.isNaN a = true ∨ F32.isNaN b = true ∨ (F32.isInf a = true ∧ F32.isInf b = true) ∨
          (F32.mag a = 0 ∧ F32.mag b = 0)) ∧
      (F32.isNaN (F32.add d a b) = false →
        (F32.isInf a = true → F32.add d a b = a) ∧ (F32.isInf b = true → F32.add d a b = b)) ∧
      (F32.isNaN (F32.sub d a b) = false →
        (F32.isInf a = true → F32.sub d a b = a) ∧ (F32.isInf b = true → F32.sub d a b = b ^^^ 0x80000000#32)) ∧
      (F32.isNaN (F32.mul d a b) = false → F32.isInf a = true ∨ F32.isInf b = true → F32.mul d a b = infOfSigns a b) ∧
      (F32.isNaN (F32.div d a b) = false →
        (F32.isInf a = true → F32.div d a b = infOfSigns a b) ∧ (F32.isInf b = true → F32.div d a b = zeroOfSigns a b)) ∧
      (F32.isFinite a = true → F32.mag a ≠ 0 → F32.mag b = 0 → F32.div d a b = infOfSigns a b)

/-- 40_numerics.md R111: E-UNITY, E-FINITE and E-ACC, for the reference instance with the bound 1/2 and for any
implementation with its own bound, which is open and at least 1/2. E-ACC is said wherever the binary32 nearest to the ideal
value lies in the bounds of E-FINITE, since elsewhere no word need meet both. The ideal values are those of the model's
fixed point, and how the model bounds an implementation is its own choice (notes/assumptions/5.md, 6.md, 8.md, 10.md). -/
def Obligations.ElemUnityAndFinite : Prop :=
  ∀ e : ElemChoice,
    (0 < (accBound e).2 ∧ (accBound e).2 ≤ 2 * (accBound e).1) ∧
      (∀ w : Word, F32.isFinite w = true → 0 ≤ F32.val w → F32.val w < 2 ^ 148 →
        (F32.isFinite ((Elem.ofChoice e).tanpi w) = true ∧ 0 ≤ F32.val ((Elem.ofChoice e).tanpi w) ∧
            (InBounds 0 0x7F7FFFFF (Elem.tanIdeal w) →
              WithinUlps (accBound e) ((Elem.ofChoice e).tanpi w) (Elem.tanIdeal w))) ∧
          (F32.isFinite ((Elem.ofChoice e).sin2pi w) = true ∧ 0 ≤ F32.val ((Elem.ofChoice e).sin2pi w) ∧
            (InBounds 0 0x7F7FFFFF (Elem.sinIdeal w) →
              WithinUlps (accBound e) ((Elem.ofChoice e).sin2pi w) (Elem.sinIdeal w))) ∧
          F32.isFinite ((Elem.ofChoice e).cos2pi w) = true ∧ |F32.val ((Elem.ofChoice e).cos2pi w)| ≤ 2 ^ 149 ∧
            (InBounds 0 0x3F800000 (Elem.cosIdeal w) →
              WithinUlps (accBound e) ((Elem.ofChoice e).cos2pi w) (Elem.cosIdeal w))) ∧
      (∀ g : Word, F32.isFinite g = true →
        F32.isFinite ((Elem.ofChoice e).db40 g) = true ∧ 0 < F32.val ((Elem.ofChoice e).db40 g) ∧
          (InBounds 1 0x7F7FFFFF (Elem.dbIdeal g) →
            WithinUlps (accBound e) ((Elem.ofChoice e).db40 g) (Elem.dbIdeal g))) ∧
      (Elem.ofChoice e).db40 0x00000000#32 = 0x3F800000#32 ∧ (Elem.ofChoice e).db40 0x80000000#32 = 0x3F800000#32

/-! ### The coefficient generator -/

/-- 41_coefficient_generator.md R121, R124, R125: the pseudocode of BELL_COEF, BW_SECTION and BW_COEF under F32, each call
one rounding in the order written (40_numerics.md R103); BW_COEF gives exactly `order` sections, `k` ascending. The indexes
of the NaN draws and one division for b1 and a1 are the model's choices (notes/assumptions/4.md, 15.md). -/
def Obligations.GeneratorEquations : Prop :=
  (∀ (e : Elem Word) (d : Nat) (fs f q g : Word),
      let w := F32.div d f fs
      let A := e.db40 g
      let cs := e.cos2pi w
      let sn := e.sin2pi w
      let al := F32.div (d + 2) sn (F32.mul (d + 1) 0x40000000#32 q)
      let aA := F32.mul (d + 3) al A
      let aoA := F32.div (d + 4) al A
      let a0 := F32.add (d + 5) 0x3F800000#32 aoA
      let m2c := F32.mul (d + 6) 0xC0000000#32 cs
      bellCoef (f32 e) d fs f q g =
        { b0 := F32.div (d + 8) (F32.add (d + 7) 0x3F800000#32 aA) a0
          b1 := F32.div (d + 9) m2c a0
          b2 := F32.div (d + 11) (F32.sub (d + 10) 0x3F800000#32 aA) a0
          a1 := F32.div (d + 9) m2c a0
          a2 := F32.div (d + 13) (F32.sub (d + 12) 0x3F800000#32 aoA) a0 }) ∧
    (∀ (e : Elem Word) (d : Nat) (w iq : Word),
      let K := e.tanpi w
      let K2 := F32.mul d K K
      let Ki := F32.mul (d + 1) K iq
      let den := F32.add (d + 3) (F32.add (d + 2) 0x3F800000#32 Ki) K2
      let norm := F32.div (d + 4) 0x3F800000#32 den
      let a1 := F32.mul (d + 7) (F32.mul (d + 6) 0x40000000#32 (F32.sub (d + 5) K2 0x3F800000#32)) norm
      let a2 := F32.mul (d + 10) (F32.add (d + 9) (F32.sub (d + 8) 0x3F800000#32 Ki) K2) norm
      bwSection (f32 e) d .lp w iq =
          { b0 := F32.mul (d + 11) K2 norm, b1 := F32.mul (d + 12) 0x40000000#32 (F32.mul (d + 11) K2 norm)
            b2 := F32.mul (d + 11) K2 norm, a1 := a1, a2 := a2 } ∧
        bwSection (f32 e) d .hp w iq =
          { b0 := norm, b1 := F32.mul (d + 11) 0xC0000000#32 norm, b2 := norm, a1 := a1, a2 := a2 }) ∧
    ∀ (e : Elem Word) (d : Nat) (kind : Kind) (f fs : Word) (order : Nat), 1 ≤ order → order ≤ 4 →
      (bwCoef (f32 e) d kind f fs order).length = order ∧
        ∀ (k : Nat) (iq : Word), (qinvF32 order)[k]? = some iq →
          (bwCoef (f32 e) d kind f fs order)[k]? =
            some (bwSection (f32 e) (d + 1 + 16 * k) kind (F32.div d f fs) iq)

/-- 41_coefficient_generator.md R128: a frequency that passes the Nyquist check gives an argument of at most 1/2 − 2^-25, so
the elementary functions stay in their range column. -/
def Obligations.NyquistKeepsBelowHalf : Prop :=
  ∀ (d : Nat) (f fs : Word), Positive f → Positive fs → F32.lt f (F32.mul d fs F32.half) = true →
    F32.isFinite (F32.div d f fs) = true ∧ F32.sign (F32.div d f fs) = false ∧ (F32.div d f fs).toNat ≤ 0x3EFFFFFF

/-- 41_coefficient_generator.md R122, first part: at a gain of ±0 dB, for operands that pass VALIDATE and a finite α,
`b0` is exactly ONE, `b1 = a1` and `b2 = a2`, for every ELEM, with `|b1| ≤ 2` and `|b2| ≤ 1`, as the second part needs. That a1 is the word computed for b1 is read from R121
(notes/assumptions/15.md). -/
def Obligations.UnityBellCoefficients : Prop :=
  ∀ (e : ElemChoice) (d : Nat) (fs f q g : Word), Positive fs → Positive f → Positive q →
    F32.lt f (F32.mul d fs F32.half) = true → F32.isFinite g = true → F32.val g = 0 →
    F32.isFinite (F32.div (d + 2) ((Elem.ofChoice e).sin2pi (F32.div d f fs)) (F32.mul (d + 1) F32.two q)) = true →
    (bellCoef (f32 (Elem.ofChoice e)) d fs f q g).b0 = F32.one ∧
      (bellCoef (f32 (Elem.ofChoice e)) d fs f q g).b1 = (bellCoef (f32 (Elem.ofChoice e)) d fs f q g).a1 ∧
      (bellCoef (f32 (Elem.ofChoice e)) d fs f q g).b2 = (bellCoef (f32 (Elem.ofChoice e)) d fs f q g).a2 ∧
      |F32.val (bellCoef (f32 (Elem.ofChoice e)) d fs f q g).b1| ≤ 2 ^ 150 ∧
      |F32.val (bellCoef (f32 (Elem.ofChoice e)) d fs f q g).b2| ≤ 2 ^ 149

/-- 41_coefficient_generator.md R122, second part: a stage with such coefficients and cleared delay registers returns every
finite input of magnitude up to 2^126 unchanged in value and keeps its delay registers zero, +0.0 unless the input is −0.0.
For −0.0 the statement follows R140's pseudocode, by which a register may be −0.0 (notes/assumptions/30.md). -/
def Obligations.UnityBellPassesThrough : Prop :=
  ∀ (e : Elem Word) (d : Nat) (c : Coef Word) (x : Word), c.b0 = F32.one → c.b1 = c.a1 → c.b2 = c.a2 →
    |F32.val c.b1| ≤ 2 ^ 150 → |F32.val c.b2| ≤ 2 ^ 149 → |F32.val x| ≤ 2 ^ 275 →
    ∃ y z1 z2 : Word,
      stageStep (f32 e) d { coef := c, z1 := 0x00000000#32, z2 := 0x00000000#32 } x = (y, { coef := c, z1 := z1, z2 := z2 }) ∧
        F32.val y = F32.val x ∧ (x ≠ 0x80000000#32 → y = x ∧ z1 = 0x00000000#32 ∧ z2 = 0x00000000#32) ∧
        (x = 0x80000000#32 → y = 0x00000000#32) ∧ F32.mag z1 = 0 ∧ F32.mag z2 = 0

/-- 42_stage_bank_chain.md R153: silence in, silence out. -/
def Obligations.SilenceInSilenceOut : Prop :=
  ∀ (e : Elem Word) (d : Nat) (c : Chain Word) (x : Word), DelaysSilent c →
    (∀ s : Fin 9, CoefFinite (c.stage s).coef) → F32.mag x = 0 →
    F32.mag (chainStep (f32 e) .hold d c x).1 = 0 ∧ DelaysSilent (chainStep (f32 e) .hold d c x).2

/-- 41_coefficient_generator.md R123: each stored QINV word is a binary32 nearest to `2·cos((2k+1)π/(4N))`: the error is at
most half a unit in the last place of the word. -/
def Obligations.QinvWordsAreNearest : Prop :=
  ∀ N : Nat, 1 ≤ N → N ≤ 4 → (qinvF32 N).length = N ∧
    ∀ (k : Nat) (w : Word), (qinvF32 N)[k]? = some w →
      |(F32.val w : ℝ) / 2 ^ 149 - 2 * Real.cos ((2 * (k : ℝ) + 1) * Real.pi / (4 * (N : ℝ)))| ≤
        (Elem.ulp w : ℝ) / 2 ^ 149 / 2

/-! ### Under REAL -/

/-- 42_stage_bank_chain.md R141: with constant coefficients and cleared delay registers, STAGE_STEP under REAL satisfies the
direct-form difference equation, and the delay registers hold what the rule says before sample `n`. -/
def Obligations.RealStageIsDifferenceEquation : Prop :=
  ∀ (c : Coef ℝ) (x : Nat → ℝ) (n : Nat),
    let y := stageOutput c x
    let x1 := if 1 ≤ n then x (n - 1) else 0
    let x2 := if 2 ≤ n then x (n - 2) else 0
    let y1 := if 1 ≤ n then y (n - 1) else 0
    let y2 := if 2 ≤ n then y (n - 2) else 0
    y n = c.b0 * x n + c.b1 * x1 + c.b2 * x2 - c.a1 * y1 - c.a2 * y2 ∧
      (stageRun c x n).z1 = c.b1 * x1 + c.b2 * x2 - c.a1 * y1 - c.a2 * y2 ∧ (stageRun c x n).z2 = c.b2 * x1 - c.a2 * y1

/-- 41_coefficient_generator.md R127 (a), (b): under REAL every section of a Butterworth bank is stable, with the stated
values at 0 Hz and at Nyquist; a lowpass section has gain 1 at 0 Hz and a double zero at Nyquist, a highpass section the
reverse. -/
def Obligations.RealSectionsStableWithUnitGain : Prop :=
  ∀ (N : Nat) (f fs iq : ℝ), 1 ≤ N → N ≤ 4 → 0 < f → f < fs / 2 → iq ∈ qinvReal N →
    let K := Real.tan (Real.pi * (f / fs))
    let norm := 1 / (1 + K * iq + K * K);
    (∀ kind : Kind,
        let c := bwSection realNum 0 kind (f / fs) iq
        0 < c.a2 ∧ c.a2 < 1 ∧ 1 + c.a1 + c.a2 = 4 * K ^ 2 * norm ∧ 0 < 1 + c.a1 + c.a2 ∧
          1 - c.a1 + c.a2 = 4 * norm ∧ 0 < 1 - c.a1 + c.a2) ∧
      (let c := bwSection realNum 0 .lp (f / fs) iq;
        (c.b0 + c.b1 + c.b2) / (1 + c.a1 + c.a2) = 1 ∧ c.b1 = 2 * c.b0 ∧ c.b2 = c.b0) ∧
      (let c := bwSection realNum 0 .hp (f / fs) iq;
        (c.b0 - c.b1 + c.b2) / (1 - c.a1 + c.a2) = 1 ∧ c.b1 = -2 * c.b0 ∧ c.b2 = c.b0)

/-- 41_coefficient_generator.md R127 (c), (d): under REAL the cascade of BW_COEF has the Butterworth magnitude, hence half the
power at its cutoff for every order; at 0 Hz, where the highpass formula divides by 0, a highpass has magnitude 0 (b). -/
def Obligations.RealCascadeIsButterworth : Prop :=
  ∀ (N : Nat) (f fs x : ℝ), 1 ≤ N → N ≤ 4 → 0 < f → f < fs / 2 → 0 ≤ x → x < fs / 2 →
    cascadeSq (bwCoef realNum 0 .lp f fs N) x fs =
        1 / (1 + (Real.tan (Real.pi * x / fs) / Real.tan (Real.pi * f / fs)) ^ (4 * N)) ∧
      (0 < x → cascadeSq (bwCoef realNum 0 .hp f fs N) x fs =
        1 / (1 + (Real.tan (Real.pi * f / fs) / Real.tan (Real.pi * x / fs)) ^ (4 * N))) ∧
      cascadeSq (bwCoef realNum 0 .hp f fs N) 0 fs = 0 ∧
      cascadeSq (bwCoef realNum 0 .lp f fs N) f fs = 1 / 2 ∧ cascadeSq (bwCoef realNum 0 .hp f fs N) f fs = 1 / 2

/-- 93_implementation_defined.md G6, 95_test_vectors.md S7: under REAL the bell's gain at its centre frequency is A², with
`A = 10^(g/40)`: its squared magnitude is A⁴. -/
def Obligations.RealBellCentreGain : Prop :=
  ∀ fs f q g : ℝ, 0 < f → f < fs / 2 → 0 < q →
    Complex.normSq ((bellCoef realNum 0 fs f q g).response f fs) = ((10 : ℝ) ^ (g / 40)) ^ 4
end

