-- ==== Sys2Proof/Laws/Decode.lean ====
section
/-! SUPPORT. The fields of a beat assembled from fields, and a beat as its fields. -/

namespace Sys2Proof

@[simp] theorem hdrOf_commandBits (h a b : Word) : hdrOf (commandBits h a b) = h := by
  unfold hdrOf commandBits
  ext i hi
  simp only [BitVec.getElem_extractLsb', BitVec.getLsbD_append, show ¬ (64 + i < 32) by omega,
    show ¬ (64 + i - 32 < 32) by omega, if_false]
  rw [show 64 + i - 32 - 32 = i by omega, BitVec.getLsbD_eq_getElem hi]

@[simp] theorem aOf_commandBits (h a b : Word) : aOf (commandBits h a b) = a := by
  unfold aOf commandBits
  ext i hi
  simp only [BitVec.getElem_extractLsb', BitVec.getLsbD_append, show ¬ (32 + i < 32) by omega,
    show 32 + i - 32 < 32 by omega, if_false, if_true]
  rw [show 32 + i - 32 = i by omega, BitVec.getLsbD_eq_getElem hi]

@[simp] theorem bOf_commandBits (h a b : Word) : bOf (commandBits h a b) = b := by
  unfold bOf commandBits
  ext i hi
  simp only [BitVec.getElem_extractLsb', BitVec.getLsbD_append, show 0 + i < 32 by omega, if_true]
  rw [show 0 + i = i by omega, BitVec.getLsbD_eq_getElem hi]

/-- A command beat is its three words (30_encoding.md R81). -/
theorem commandBits_fields (bits : BitVec 96) : commandBits (hdrOf bits) (aOf bits) (bOf bits) = bits := by
  unfold commandBits hdrOf aOf bOf
  ext i hi
  rw [← BitVec.getLsbD_eq_getElem hi, ← BitVec.getLsbD_eq_getElem hi]
  simp only [BitVec.getLsbD_append, BitVec.getLsbD_extractLsb']
  by_cases h1 : i < 32
  · simp [h1]
  · by_cases h2 : i - 32 < 32
    · simp [h1, h2, show 32 + (i - 32) = i by omega]
    · simp [h1, h2, show 64 + (i - 32 - 32) = i by omega, show i - 32 - 32 < 32 by omega]

@[simp] theorem opOf_header (op n : BitVec 8) (sel : BitVec 16) : opOf (header op n sel) = op := by
  unfold opOf header
  ext i hi
  simp only [BitVec.getElem_extractLsb', BitVec.getLsbD_append, show ¬ (24 + i < 16) by omega,
    show ¬ (24 + i - 16 < 8) by omega, if_false]
  rw [show 24 + i - 16 - 8 = i by omega, BitVec.getLsbD_eq_getElem hi]

@[simp] theorem nOf_header (op n : BitVec 8) (sel : BitVec 16) : nOf (header op n sel) = n := by
  unfold nOf header
  ext i hi
  simp only [BitVec.getElem_extractLsb', BitVec.getLsbD_append, show ¬ (16 + i < 16) by omega,
    show 16 + i - 16 < 8 by omega, if_false, if_true]
  rw [show 16 + i - 16 = i by omega, BitVec.getLsbD_eq_getElem hi]

@[simp] theorem selOf_header (op n : BitVec 8) (sel : BitVec 16) : selOf (header op n sel) = sel := by
  unfold selOf header
  ext i hi
  simp only [BitVec.getElem_extractLsb', BitVec.getLsbD_append, show 0 + i < 16 by omega, if_true]
  rw [show 0 + i = i by omega, BitVec.getLsbD_eq_getElem hi]

/-- A header is its three fields (30_encoding.md R82). -/
theorem header_fields (hdr : Word) : header (opOf hdr) (nOf hdr) (selOf hdr) = hdr := by
  unfold header opOf nOf selOf
  ext i hi
  rw [← BitVec.getLsbD_eq_getElem hi, ← BitVec.getLsbD_eq_getElem hi]
  simp only [BitVec.getLsbD_append, BitVec.getLsbD_extractLsb']
  by_cases h1 : i < 16
  · simp [h1]
  · by_cases h2 : i - 16 < 8
    · simp [h1, h2, show 16 + (i - 16) = i by omega]
    · simp [h1, h2, show 24 + (i - 16 - 8) = i by omega, show i - 16 - 8 < 8 by omega]

@[simp] theorem kOf_parameterBits (k : BitVec 3) (v : Word) : kOf (parameterBits k v) = k := by
  unfold kOf parameterBits
  ext i hi
  simp only [BitVec.getElem_extractLsb', BitVec.getLsbD_append, show ¬ (32 + i < 32) by omega, if_false]
  rw [show 32 + i - 32 = i by omega, BitVec.getLsbD_eq_getElem hi]

@[simp] theorem vOf_parameterBits (k : BitVec 3) (v : Word) : vOf (parameterBits k v) = v := by
  unfold vOf parameterBits
  ext i hi
  simp only [BitVec.getElem_extractLsb', BitVec.getLsbD_append, show 0 + i < 32 by omega, if_true]
  rw [show 0 + i = i by omega, BitVec.getLsbD_eq_getElem hi]

/-- A parameter beat is its two fields (30_encoding.md R85). -/
theorem parameterBits_fields (bits : BitVec 35) : parameterBits (kOf bits) (vOf bits) = bits := by
  unfold parameterBits kOf vOf
  ext i hi
  rw [← BitVec.getLsbD_eq_getElem hi, ← BitVec.getLsbD_eq_getElem hi]
  simp only [BitVec.getLsbD_append, BitVec.getLsbD_extractLsb']
  by_cases h1 : i < 32
  · simp [h1]
  · simp [h1, show 32 + (i - 32) = i by omega, show i - 32 < 3 by omega]

end Sys2Proof
end

