-- ==== Sys2Proof/Laws/F32.lean ====
section
/-! SUPPORT. Binary32 words as a sign and 31 low bits, and what rounding does: exact on representable values, monotone,
nearest. -/

namespace Sys2Proof.Machine.F32

/-! ### The fields of a word -/

/-- The 31 low bits of a word. -/
def low (w : Word) : Nat := w.toNat % 2 ^ 31

/-- The magnitude, in units of 2^-149, that 31 low bits stand for. -/
def magOf (m : Nat) : Nat := if m / 2 ^ 23 = 0 then m else (2 ^ 23 + m % 2 ^ 23) * 2 ^ (m / 2 ^ 23 - 1)

theorem low_lt (w : Word) : low w < 2 ^ 31 := Nat.mod_lt _ (by norm_num)

theorem expField_eq (w : Word) : expField w = low w / 2 ^ 23 := by
  have := w.isLt
  simp only [expField, low, BitVec.extractLsb'_toNat, Nat.shiftRight_eq_div_pow]
  omega

theorem frac_eq (w : Word) : frac w = low w % 2 ^ 23 := by
  simp only [frac, low, BitVec.extractLsb'_toNat, Nat.shiftRight_eq_div_pow]
  omega

theorem sign_eq (w : Word) : sign w = decide (2 ^ 31 ≤ w.toNat) := by
  simp [sign, BitVec.msb_eq_decide]

theorem mag_eq (w : Word) : mag w = magOf (low w) := by
  unfold mag magOf
  rw [expField_eq, frac_eq]
  by_cases h : low w / 2 ^ 23 = 0
  · simp only [h, if_true]
    omega
  · simp only [h, if_false]

theorem pack_toNat (s : Bool) {m : Nat} (h : m < 2 ^ 31) : (pack s m).toNat = m + if s then 2 ^ 31 else 0 := by
  unfold pack
  rw [BitVec.toNat_ofNat, Nat.mod_eq_of_lt]
  cases s
  · simp only [Bool.false_eq_true, if_false]
    omega
  · simp only [if_true]
    omega

theorem sign_pack (s : Bool) {m : Nat} (h : m < 2 ^ 31) : sign (pack s m) = s := by
  rw [sign_eq, pack_toNat s h]
  cases s
  · simp only [Bool.false_eq_true, if_false, decide_eq_false_iff_not]
    omega
  · simp only [if_true, decide_eq_true_eq]
    omega

theorem low_pack (s : Bool) {m : Nat} (h : m < 2 ^ 31) : low (pack s m) = m := by
  rw [low, pack_toNat s h]
  cases s
  · simp only [Bool.false_eq_true, if_false]
    omega
  · simp only [if_true]
    omega

/-- A word is its sign and its 31 low bits. -/
theorem pack_sign_low (w : Word) : pack (sign w) (low w) = w := by
  apply BitVec.eq_of_toNat_eq
  rw [pack_toNat _ (low_lt w), sign_eq, low]
  have := w.isLt
  by_cases h : 2 ^ 31 ≤ w.toNat
  · simp only [h, decide_true, if_true]
    omega
  · simp only [h, decide_false, Bool.false_eq_true, if_false]
    omega

theorem isFinite_iff (w : Word) : isFinite w = true ↔ low w < infBits := by
  have := low_lt w
  simp only [isFinite, expField_eq, infBits, bne_iff_ne, ne_eq]
  omega

theorem isInf_iff (w : Word) : isInf w = true ↔ low w = infBits := by
  have := low_lt w
  simp only [isInf, expField_eq, frac_eq, infBits, Bool.and_eq_true, beq_iff_eq]
  omega

theorem isNaN_iff (w : Word) : isNaN w = true ↔ infBits < low w := by
  have := low_lt w
  simp only [isNaN, expField_eq, frac_eq, infBits, Bool.and_eq_true, beq_iff_eq, bne_iff_ne, ne_eq]
  omega

/-- A finite word is neither a NaN nor an infinity. -/
theorem not_nan_of_finite {w : Word} (h : isFinite w = true) : isNaN w = false ∧ isInf w = false := by
  rw [isFinite_iff] at h
  refine ⟨?_, ?_⟩
  · rw [← Bool.not_eq_true, isNaN_iff]
    omega
  · rw [← Bool.not_eq_true, isInf_iff]
    omega

theorem low_neg (w : Word) : low (neg w) = low w := by
  unfold low neg
  have h : (w ^^^ 0x80000000#32).toNat % 2 ^ 31 = w.toNat % 2 ^ 31 := by
    rw [BitVec.toNat_xor]
    apply Nat.eq_of_testBit_eq
    intro i
    simp only [Nat.testBit_mod_two_pow, Nat.testBit_xor]
    by_cases hi : i < 31
    · have : Nat.testBit 2147483648 i = false := by
        rw [show (2147483648 : Nat) = 2 ^ 31 from rfl, Nat.testBit_two_pow]
        simp
        omega
      simp [hi, this]
    · simp [hi]
  exact h

theorem sign_neg (w : Word) : sign (neg w) = !sign w := by
  simp only [sign, neg, BitVec.msb_xor]
  cases w.msb <;> rfl

theorem mag_neg (w : Word) : mag (neg w) = mag w := by rw [mag_eq, mag_eq, low_neg]

theorem val_neg (w : Word) : val (neg w) = -val w := by
  unfold val
  rw [sign_neg, mag_neg]
  cases sign w <;> simp

/-! ### Magnitudes -/

theorem magOf_small {m : Nat} (h : m < 2 ^ 23) : magOf m = m := by
  rw [magOf, if_pos (Nat.div_eq_of_lt h)]

theorem magOf_step (e f : Nat) (hf : f < 2 ^ 23) : magOf ((e + 1) * 2 ^ 23 + f) = (2 ^ 23 + f) * 2 ^ e := by
  unfold magOf
  have h1 : ((e + 1) * 2 ^ 23 + f) / 2 ^ 23 = e + 1 := by omega
  have h2 : ((e + 1) * 2 ^ 23 + f) % 2 ^ 23 = f := by omega
  rw [h1, h2]
  simp

/-- The magnitude of `q·2^23 + i` for a rounded significand `2^23 ≤ i ≤ 2^24`, the carry included. -/
theorem magOf_scaled (q i : Nat) (h1 : 2 ^ 23 ≤ i) (h2 : i ≤ 2 ^ 24) : magOf (q * 2 ^ 23 + i) = i * 2 ^ q := by
  by_cases h : i = 2 ^ 24
  · subst h
    have := magOf_step (q + 1) 0 (by norm_num)
    rw [show q * 2 ^ 23 + 2 ^ 24 = (q + 1 + 1) * 2 ^ 23 + 0 by omega, this]
    ring
  · have := magOf_step q (i - 2 ^ 23) (by omega)
    rw [show q * 2 ^ 23 + i = (q + 1) * 2 ^ 23 + (i - 2 ^ 23) by omega, this,
      show 2 ^ 23 + (i - 2 ^ 23) = i by omega]

/-! ### Rounding a quotient -/

theorem divEven_exact (i : Nat) {d : Nat} (hd : 0 < d) : divEven (i * d) d = i := by
  simp only [divEven, Nat.mul_mod_left, Nat.mul_div_left _ hd]
  rw [if_pos (by omega)]

theorem divEven_le (n d : Nat) : divEven n d ≤ n / d + 1 := by
  unfold divEven
  simp only
  split_ifs <;> omega

theorem le_divEven (n d : Nat) : n / d ≤ divEven n d := by
  unfold divEven
  simp only
  split_ifs <;> omega

theorem divEven_mono {n1 d1 n2 d2 : Nat} (h1 : 0 < d1) (h2 : 0 < d2) (h : n1 * d2 ≤ n2 * d1) :
    divEven n1 d1 ≤ divEven n2 d2 := by
  have hi : n1 / d1 ≤ n2 / d2 := by
    rw [Nat.le_div_iff_mul_le h2]
    have := Nat.div_mul_le_self n1 d1
    have h3 : n1 / d1 * d2 * d1 ≤ n2 * d1 := by nlinarith
    exact Nat.le_of_mul_le_mul_right h3 h1
  rcases Nat.lt_or_eq_of_le hi with hlt | heq
  · exact le_trans (divEven_le n1 d1) (le_trans hlt (le_divEven n2 d2))
  · have e1 := Nat.div_add_mod n1 d1
    have e2 := Nat.div_add_mod n2 d2
    have hr : n1 % d1 * d2 ≤ n2 % d2 * d1 := by
      rw [heq] at e1
      have : (d1 * (n2 / d2) + n1 % d1) * d2 ≤ (d2 * (n2 / d2) + n2 % d2) * d1 := by rw [e1, e2]; exact h
      nlinarith
    unfold divEven
    simp only [heq]
    split_ifs with a1 a2 a3 a4 a5 a6 a7
    all_goals first | omega | skip
    all_goals exfalso; nlinarith

/-- The error of a rounded quotient is at most half its divisor. -/
theorem divEven_error {n d : Nat} (hd : 0 < d) : 2 * ((n : Int) - (divEven n d : Int) * d).natAbs ≤ d := by
  have e := Nat.div_add_mod n d
  have hm := Nat.mod_lt n hd
  have key : (n : Int) = (d : Int) * ((n / d : Nat) : Int) + ((n % d : Nat) : Int) := by exact_mod_cast e.symm
  unfold divEven
  simp only
  split_ifs with h1 h2
  · rw [key, show (d : Int) * ((n / d : Nat) : Int) + ((n % d : Nat) : Int) - ((n / d : Nat) : Int) * d =
      ((n % d : Nat) : Int) by ring]
    omega
  · push_cast
    rw [show (n : Int) - ((n : Int) / d + 1) * d = ((n % d : Nat) : Int) - d by
      push_cast at key ⊢
      linarith [key]]
    omega
  · have h3 : 2 * (n % d) = d := by omega
    rcases Nat.mod_two_eq_zero_or_one (n / d) with h4 | h4 <;> rw [h4]
    · rw [key, show (d : Int) * ((n / d : Nat) : Int) + ((n % d : Nat) : Int) - ((n / d + 0 : Nat) : Int) * d =
        ((n % d : Nat) : Int) by push_cast; ring]
      omega
    · rw [key, show (d : Int) * ((n / d : Nat) : Int) + ((n % d : Nat) : Int) - ((n / d + 1 : Nat) : Int) * d =
        ((n % d : Nat) : Int) - d by push_cast; ring]
      omega

/-! ### Rounding to binary32 -/

theorem quantum_bound {n d : Nat} (hd : 0 < d) : n < 2 ^ 24 * (d * 2 ^ quantum n d) := by
  have h1 : n / d < 2 ^ (Nat.log2 (n / d) + 1) := Nat.lt_log2_self
  have h2 : (2 : Nat) ^ (Nat.log2 (n / d) + 1) ≤ 2 ^ (24 + quantum n d) :=
    Nat.pow_le_pow_right (by norm_num) (by unfold quantum; omega)
  have h3 : n < 2 ^ (24 + quantum n d) * d := (Nat.div_lt_iff_lt_mul hd).1 (lt_of_lt_of_le h1 h2)
  calc n < 2 ^ (24 + quantum n d) * d := h3
    _ = 2 ^ 24 * (d * 2 ^ quantum n d) := by rw [pow_add]; ring

theorem quantum_normal {n d : Nat} (h : 0 < quantum n d) : 2 ^ 23 * (d * 2 ^ quantum n d) ≤ n := by
  have hlog : 23 + quantum n d = Nat.log2 (n / d) := by unfold quantum at h ⊢; omega
  have h0 : n / d ≠ 0 := by
    intro h0
    rw [h0] at hlog
    simp at hlog
  have h1 : 2 ^ Nat.log2 (n / d) ≤ n / d := Nat.log2_self_le h0
  have h2 : 2 ^ Nat.log2 (n / d) * d ≤ n := le_trans (Nat.mul_le_mul_right d h1) (Nat.div_mul_le_self n d)
  calc 2 ^ 23 * (d * 2 ^ quantum n d) = 2 ^ (23 + quantum n d) * d := by rw [pow_add]; ring
    _ = 2 ^ Nat.log2 (n / d) * d := by rw [hlog]
    _ ≤ n := h2

theorem scale_pos {n d : Nat} (hd : 0 < d) : 0 < d * 2 ^ quantum n d := Nat.mul_pos hd (Nat.two_pow_pos _)

/-- The rounded significand is at most 2^24. -/
theorem significand_le {n d : Nat} (hd : 0 < d) : divEven n (d * 2 ^ quantum n d) ≤ 2 ^ 24 := by
  have h1 := divEven_le n (d * 2 ^ quantum n d)
  have h2 : n / (d * 2 ^ quantum n d) < 2 ^ 24 := (Nat.div_lt_iff_lt_mul (scale_pos hd)).2 (quantum_bound hd)
  omega

/-- Above the subnormals the rounded significand is at least 2^23. -/
theorem le_significand {n d : Nat} (hd : 0 < d) (h : 0 < quantum n d) : 2 ^ 23 ≤ divEven n (d * 2 ^ quantum n d) :=
  le_trans ((Nat.le_div_iff_mul_le (scale_pos hd)).2 (quantum_normal h)) (le_divEven _ _)

theorem round_le (n d : Nat) : round n d ≤ infBits := Nat.min_le_right _ _

theorem round_lt (n d : Nat) : round n d < 2 ^ 31 := lt_of_le_of_lt (round_le n d) (by norm_num [infBits])

/-- Rounding a representable magnitude changes nothing. -/
theorem round_exact {m d : Nat} (hd : 0 < d) (hm : m < infBits) : round (magOf m * d) d = m := by
  unfold round
  simp only
  have hq : quantum (magOf m * d) d = Nat.log2 (magOf m) - 23 := by rw [quantum, Nat.mul_div_left _ hd]
  rw [hq]
  by_cases h : m < 2 ^ 23
  · rw [magOf_small h]
    have hl : Nat.log2 m - 23 = 0 := by
      by_cases h0 : m = 0
      · subst h0; simp
      · have : Nat.log2 m < 23 := (Nat.log2_lt h0).2 h
        omega
    rw [hl]
    simp only [zero_mul, pow_zero, mul_one, zero_add]
    rw [divEven_exact m hd]
    exact Nat.min_eq_left (le_of_lt hm)
  · obtain ⟨e, f, hf, he⟩ : ∃ e f, f < 2 ^ 23 ∧ m = (e + 1) * 2 ^ 23 + f :=
      ⟨m / 2 ^ 23 - 1, m % 2 ^ 23, by omega, by omega⟩
    have hmag : magOf m = (2 ^ 23 + f) * 2 ^ e := by rw [he, magOf_step e f hf]
    have hlog : Nat.log2 (magOf m) = 23 + e := by
      have hne : magOf m ≠ 0 := by rw [hmag]; positivity
      rw [Nat.log2_eq_iff hne, hmag]
      constructor
      · rw [pow_add]
        exact Nat.mul_le_mul_right _ (by omega)
      · rw [show 23 + e + 1 = 24 + e by omega, pow_add]
        exact Nat.mul_lt_mul_of_pos_right (by omega) (Nat.two_pow_pos e)
    rw [hlog, show 23 + e - 23 = e by omega, hmag,
      show (2 ^ 23 + f) * 2 ^ e * d = (2 ^ 23 + f) * (d * 2 ^ e) by ring,
      divEven_exact _ (Nat.mul_pos hd (Nat.two_pow_pos e))]
    rw [show e * 2 ^ 23 + (2 ^ 23 + f) = m by omega]
    exact Nat.min_eq_left (le_of_lt hm)

/-- Rounding is monotone. -/
theorem round_mono {n1 d1 n2 d2 : Nat} (h1 : 0 < d1) (h2 : 0 < d2) (h : n1 * d2 ≤ n2 * d1) :
    round n1 d1 ≤ round n2 d2 := by
  have hdiv : n1 / d1 ≤ n2 / d2 := by
    rw [Nat.le_div_iff_mul_le h2]
    have := Nat.div_mul_le_self n1 d1
    have h3 : n1 / d1 * d2 * d1 ≤ n2 * d1 := by nlinarith
    exact Nat.le_of_mul_le_mul_right h3 h1
  have hq : quantum n1 d1 ≤ quantum n2 d2 := by
    unfold quantum
    have : Nat.log2 (n1 / d1) ≤ Nat.log2 (n2 / d2) := by
      by_cases h0 : n1 / d1 = 0
      · rw [h0]; simp
      · have h2' : n2 / d2 ≠ 0 := fun e => h0 (Nat.le_zero.1 (e ▸ hdiv))
        exact (Nat.le_log2 h2').2 (le_trans (Nat.log2_self_le h0) hdiv)
    omega
  unfold round
  simp only
  refine min_le_min_right _ ?_
  rcases Nat.lt_or_eq_of_le hq with hlt | heq
  · have a1 := significand_le (n := n1) h1
    have a2 := le_significand h2 (by omega : 0 < quantum n2 d2)
    have : (quantum n1 d1 + 1) * 2 ^ 23 ≤ quantum n2 d2 * 2 ^ 23 := Nat.mul_le_mul_right _ hlt
    omega
  · rw [heq]
    refine Nat.add_le_add_left (divEven_mono (Nat.mul_pos h1 (Nat.two_pow_pos _)) (Nat.mul_pos h2 (Nat.two_pow_pos _)) ?_) _
    nlinarith [Nat.two_pow_pos (quantum n2 d2), Nat.mul_le_mul_right (2 ^ quantum n2 d2) h]

/-- The magnitude a rounding gives, when it does not overflow, is the rounded significand in units of the quantum. -/
theorem magOf_round {n d : Nat} (hd : 0 < d) (h : round n d < infBits) :
    magOf (round n d) = divEven n (d * 2 ^ quantum n d) * 2 ^ quantum n d := by
  have hr : round n d = quantum n d * 2 ^ 23 + divEven n (d * 2 ^ quantum n d) := by
    unfold round at h ⊢
    simp only at h ⊢
    omega
  rw [hr]
  by_cases hq : quantum n d = 0
  · rw [hq]
    simp only [zero_mul, zero_add, pow_zero, mul_one]
    have hle := significand_le (n := n) hd
    rw [hq, pow_zero, mul_one] at hle
    by_cases hs : divEven n d < 2 ^ 23
    · exact magOf_small hs
    · have := magOf_scaled 0 (divEven n d) (by omega) hle
      simpa using this
  · exact magOf_scaled _ _ (le_significand hd (by omega)) (significand_le hd)

/-- `magOf` of any 31 low bits below those of an infinity is a whole number of units of 2^q once it is at least 2^23 of
them. -/
theorem magOf_dvd {m q : Nat} (h : 2 ^ 23 * 2 ^ q ≤ magOf m) : 2 ^ q ∣ magOf m := by
  by_cases hs : m < 2 ^ 23
  · rw [magOf_small hs] at h ⊢
    have : 2 ^ q = 1 := by
      have := Nat.two_pow_pos q
      nlinarith
    rw [this]
    exact one_dvd _
  · obtain ⟨e, f, hf, he⟩ : ∃ e f, f < 2 ^ 23 ∧ m = (e + 1) * 2 ^ 23 + f :=
      ⟨m / 2 ^ 23 - 1, m % 2 ^ 23, by omega, by omega⟩
    have hmag : magOf m = (2 ^ 23 + f) * 2 ^ e := by rw [he, magOf_step e f hf]
    rw [hmag] at h ⊢
    have hqe : q ≤ e := by
      by_contra hlt
      have h1 : (2 : Nat) ^ (e + 1) ≤ 2 ^ q := Nat.pow_le_pow_right (by norm_num) (by omega)
      have h2 := Nat.two_pow_pos e
      rw [pow_succ] at h1
      nlinarith
    exact Dvd.dvd.mul_left (pow_dvd_pow 2 hqe) _

/-- A whole number of divisors is no nearer to `n` than the rounded quotient. -/
theorem divEven_nearest {n d : Nat} (hd : 0 < d) (j : Nat) :
    ((n : Int) - (divEven n d : Int) * d).natAbs ≤ ((n : Int) - (j : Int) * d).natAbs := by
  have he := divEven_error (n := n) hd
  by_cases hj : (j : Int) = divEven n d
  · rw [hj]
  · have hsep : (d : Int) ≤ |((divEven n d : Int) - j) * d| := by
      rw [abs_mul, abs_of_pos (by exact_mod_cast hd : (0 : Int) < d)]
      have : (1 : Int) ≤ |(divEven n d : Int) - j| := Int.one_le_abs (sub_ne_zero.2 (Ne.symm hj))
      nlinarith [(by exact_mod_cast hd : (0 : Int) < d)]
    have htri : ((divEven n d : Int) - j) * d = ((n : Int) - j * d) - ((n : Int) - divEven n d * d) := by ring
    rw [htri] at hsep
    have := abs_sub ((n : Int) - j * d) ((n : Int) - divEven n d * d)
    zify at he ⊢
    linarith

/-- The binary32 magnitude that rounding gives is nearest to `n / d` among all binary32 magnitudes, unless the result
overflows. -/
theorem round_nearest {n d : Nat} (hd : 0 < d) (h : round n d < infBits) (m : Nat) :
    ((n : Int) - (magOf (round n d) : Int) * d).natAbs ≤ ((n : Int) - (magOf m : Int) * d).natAbs := by
  have hs := scale_pos (n := n) hd
  rw [magOf_round hd h]
  have hform (j : Nat) : ((n : Int) - ((j * 2 ^ quantum n d : Nat) : Int) * d) =
      (n : Int) - (j : Int) * ((d * 2 ^ quantum n d : Nat) : Int) := by
    push_cast
    ring
  rw [hform]
  by_cases hbig : 2 ^ 23 * 2 ^ quantum n d ≤ magOf m
  · obtain ⟨j, hj⟩ := magOf_dvd hbig
    rw [hj, Nat.mul_comm (2 ^ quantum n d) j, hform]
    exact divEven_nearest hs j
  · by_cases hq : quantum n d = 0
    · have := divEven_nearest hs (n := n) (magOf m)
      rw [← hform (magOf m)] at this
      simpa [hq] using this
    · have h23 := divEven_nearest hs (n := n) (2 ^ 23)
      have hnorm := quantum_normal (n := n) (d := d) (by omega)
      have hm : magOf m * d ≤ 2 ^ 23 * (d * 2 ^ quantum n d) := by
        have : magOf m ≤ 2 ^ 23 * 2 ^ quantum n d := by omega
        calc magOf m * d ≤ 2 ^ 23 * 2 ^ quantum n d * d := Nat.mul_le_mul_right d this
          _ = 2 ^ 23 * (d * 2 ^ quantum n d) := by ring
      refine le_trans h23 ?_
      zify at hm hnorm ⊢
      rw [abs_of_nonneg (by push_cast; linarith), abs_of_nonneg (by linarith)]
      push_cast
      linarith

/-! ### Operations on finite words -/

/-- A finite word's magnitude rounds to its own low bits. -/
theorem round_mag {w : Word} (h : isFinite w = true) {d : Nat} (hd : 0 < d) : round (mag w * d) d = low w := by
  rw [mag_eq]
  exact round_exact hd ((isFinite_iff w).1 h)

/-- A rounded result is finite exactly when it did not overflow. -/
theorem isFinite_pack_round (s : Bool) (n d : Nat) : isFinite (pack s (round n d)) = true ↔ round n d < infBits := by
  rw [isFinite_iff, low_pack s (round_lt n d)]

/-- The signed value of a packed magnitude. -/
theorem val_pack (s : Bool) {m : Nat} (h : m < 2 ^ 31) : val (pack s m) = if s then -(magOf m : Int) else (magOf m : Int) := by
  unfold val
  rw [sign_pack s h, mag_eq, low_pack s h]

end Sys2Proof.Machine.F32
end

