-- ==== Sys2Proof/Laws/Elem.lean ====
section
/-! SUPPORT. The nearest word to an ideal value: its bounds and its distance. -/

namespace Sys2Proof.Machine.Elem

/-- The low bits of a nearest word lie in its bounds. -/
theorem nearest_bounds {lo hi : Nat} (i : Ideal) (h : lo ≤ hi) (hh : hi < F32.infBits) :
    lo ≤ F32.low (nearest lo hi i) ∧ F32.low (nearest lo hi i) ≤ hi := by
  have : F32.infBits < 2 ^ 31 := by norm_num [F32.infBits]
  unfold nearest
  rw [F32.low_pack _ (by omega)]
  omega

/-- A nearest word is finite. -/
theorem nearest_finite {lo hi : Nat} (i : Ideal) (h : lo ≤ hi) (hh : hi < F32.infBits) :
    F32.isFinite (nearest lo hi i) = true := by
  rw [F32.isFinite_iff]
  exact lt_of_le_of_lt (nearest_bounds i h hh).2 hh

/-- Where the bounds do not bind, the nearest word is within half a unit in the last place of the ideal value. -/
theorem nearest_within {lo hi : Nat} {i : Ideal} (hd : 0 < i.den) (hl : lo ≤ F32.round i.num i.den)
    (hu : F32.round i.num i.den ≤ hi) (hh : hi < F32.infBits) : within (1, 2) (nearest lo hi i) i = true := by
  have hm : max lo (min hi (F32.round i.num i.den)) = F32.round i.num i.den := by omega
  have hr : F32.round i.num i.den < F32.infBits := by omega
  simp only [within, nearest, hm, decide_eq_true_eq, one_mul, Ideal.ulp, Ideal.signed]
  have e := F32.divEven_error (n := i.num) (F32.scale_pos (n := i.num) hd)
  rw [F32.val_pack _ (F32.round_lt _ _)]
  have hval : ((i.num : Int) - (F32.divEven i.num (i.den * 2 ^ F32.quantum i.num i.den) : Int) *
      ((i.den * 2 ^ F32.quantum i.num i.den : Nat) : Int)) =
      (i.num : Int) - (F32.magOf (F32.round i.num i.den) : Int) * i.den := by
    rw [F32.magOf_round hd hr]
    push_cast
    ring
  rw [hval] at e
  have hzero : F32.round i.num i.den = 0 → F32.magOf (F32.round i.num i.den) = 0 := fun h => by rw [h]; rfl
  generalize F32.magOf (F32.round i.num i.den) = m at e hzero ⊢
  have hc : i.den * 2 ^ F32.quantum i.num i.den = 2 ^ F32.quantum i.num i.den * i.den := Nat.mul_comm _ _
  rw [hc] at e
  have flip : ((m : Int) * i.den - i.num).natAbs = ((i.num : Int) - m * i.den).natAbs := by omega
  have flop : (-(m : Int) * i.den - -i.num).natAbs = ((i.num : Int) - m * i.den).natAbs := by
    congr 1
    ring
  cases i.negative with
  | false =>
    simp only [Bool.false_and, Bool.false_eq_true, if_false]
    omega
  | true =>
    by_cases h0 : F32.round i.num i.den = 0
    · rw [hzero h0] at e ⊢
      simp only [h0, bne_self_eq_false, Bool.and_false, Bool.false_eq_true, if_false, if_true]
      simp only [Nat.cast_zero, zero_mul, sub_zero, zero_sub, neg_neg] at e ⊢
      omega
    · simp only [Bool.true_and, bne_iff_ne, ne_eq, h0, not_false_iff, if_true]
      omega

/-- A bound below half a unit is not needed: what is within half a unit is within ELEM_ULP. -/
theorem within_elemUlp {r : Word} {i : Ideal} (h : within (1, 2) r i = true) : within elemUlp r i = true := by
  unfold elemUlp
  split
  · rename_i hc
    simp only [within, decide_eq_true_eq, one_mul] at h ⊢
    calc (F32.val r * i.den - i.signed).natAbs * Config.elemUlp.2
        ≤ (F32.val r * i.den - i.signed).natAbs * (2 * Config.elemUlp.1) := Nat.mul_le_mul_left _ hc.2
      _ = Config.elemUlp.1 * ((F32.val r * i.den - i.signed).natAbs * 2) := by ring
      _ ≤ Config.elemUlp.1 * (i.ulp * i.den) := Nat.mul_le_mul_left _ h
  · exact h

end Sys2Proof.Machine.Elem
end

