-- ==== Sys2Proof/Laws/State.lean ====
section
/-! SUPPORT. One lemma per field per update of the state. -/

namespace Sys2Proof.Machine

section Updates

variable (s : State)

/-! ### State.respond -/

@[simp] theorem State.respond_left (c : BitVec 8) (a b : Word) : (s.respond c a b).left = s.left := rfl
@[simp] theorem State.respond_right (c : BitVec 8) (a b : Word) : (s.respond c a b).right = s.right := rfl
@[simp] theorem State.respond_fs (c : BitVec 8) (a b : Word) : (s.respond c a b).fs = s.fs := rfl
@[simp] theorem State.respond_snap (c : BitVec 8) (a b : Word) : (s.respond c a b).snap = s.snap := rfl
@[simp] theorem State.respond_phase (c : BitVec 8) (a b : Word) : (s.respond c a b).phase = s.phase := rfl
@[simp] theorem State.respond_err (c : BitVec 8) (a b : Word) : (s.respond c a b).err = s.err := rfl
@[simp] theorem State.respond_prep (c : BitVec 8) (a b : Word) : (s.respond c a b).prep = s.prep := rfl
@[simp] theorem State.respond_cells (c : BitVec 8) (a b : Word) : (s.respond c a b).cells = s.cells := rfl
@[simp] theorem State.respond_snapBuf (c : BitVec 8) (a b : Word) : (s.respond c a b).snapBuf = s.snapBuf := rfl
@[simp] theorem State.respond_snapMask (c : BitVec 8) (a b : Word) : (s.respond c a b).snapMask = s.snapMask := rfl
@[simp] theorem State.respond_scratch (c : BitVec 8) (a b : Word) : (s.respond c a b).scratch = s.scratch := rfl
@[simp] theorem State.respond_inputs (c : BitVec 8) (a b : Word) : (s.respond c a b).inputs = s.inputs := rfl
@[simp] theorem State.respond_pos (c : BitVec 8) (a b : Word) : (s.respond c a b).pos = s.pos := rfl
@[simp] theorem State.respond_responses (c : BitVec 8) (a b : Word) :
    (s.respond c a b).responses =
      { st := stWord c s.phase, rw0 := a, rw1 := b } :: s.responses :=
  rfl
@[simp] theorem State.respond_psTurns (c : BitVec 8) (a b : Word) : (s.respond c a b).psTurns = s.psTurns := rfl
@[simp] theorem State.respond_elem (c : BitVec 8) (a b : Word) : (s.respond c a b).elem = s.elem := rfl
@[simp] theorem State.respond_draws (c : BitVec 8) (a b : Word) : (s.respond c a b).draws = s.draws := rfl
@[simp] theorem State.respond_num (c : BitVec 8) (a b : Word) : (s.respond c a b).num = s.num := rfl

/-! ### State.enterFault -/

@[simp] theorem State.enterFault_left (c : FaultCode) : (s.enterFault c).left = s.left := rfl
@[simp] theorem State.enterFault_right (c : FaultCode) : (s.enterFault c).right = s.right := rfl
@[simp] theorem State.enterFault_fs (c : FaultCode) : (s.enterFault c).fs = s.fs := rfl
@[simp] theorem State.enterFault_snap (c : FaultCode) : (s.enterFault c).snap = s.snap := rfl
@[simp] theorem State.enterFault_phase (c : FaultCode) : (s.enterFault c).phase = .faulted := rfl
@[simp] theorem State.enterFault_err (c : FaultCode) : (s.enterFault c).err = if s.err = 0#8 then c.bits else s.err :=
  rfl
@[simp] theorem State.enterFault_prep (c : FaultCode) : (s.enterFault c).prep = s.prep := rfl
@[simp] theorem State.enterFault_cells (c : FaultCode) : (s.enterFault c).cells = s.cells := rfl
@[simp] theorem State.enterFault_snapBuf (c : FaultCode) : (s.enterFault c).snapBuf = s.snapBuf := rfl
@[simp] theorem State.enterFault_snapMask (c : FaultCode) : (s.enterFault c).snapMask = s.snapMask := rfl
@[simp] theorem State.enterFault_scratch (c : FaultCode) : (s.enterFault c).scratch = s.scratch := rfl
@[simp] theorem State.enterFault_inputs (c : FaultCode) : (s.enterFault c).inputs = s.inputs := rfl
@[simp] theorem State.enterFault_pos (c : FaultCode) : (s.enterFault c).pos = s.pos := rfl
@[simp] theorem State.enterFault_responses (c : FaultCode) : (s.enterFault c).responses = s.responses := rfl
@[simp] theorem State.enterFault_psTurns (c : FaultCode) : (s.enterFault c).psTurns = s.psTurns := rfl
@[simp] theorem State.enterFault_elem (c : FaultCode) : (s.enterFault c).elem = s.elem := rfl
@[simp] theorem State.enterFault_draws (c : FaultCode) : (s.enterFault c).draws = s.draws := rfl
@[simp] theorem State.enterFault_num (c : FaultCode) : (s.enterFault c).num = s.num := rfl

/-! ### State.raise -/

@[simp] theorem State.raise_left (c : FaultCode) : (s.raise c).left = s.left := rfl
@[simp] theorem State.raise_right (c : FaultCode) : (s.raise c).right = s.right := rfl
@[simp] theorem State.raise_fs (c : FaultCode) : (s.raise c).fs = s.fs := rfl
@[simp] theorem State.raise_snap (c : FaultCode) : (s.raise c).snap = s.snap := rfl
@[simp] theorem State.raise_phase (c : FaultCode) : (s.raise c).phase = .faulted := rfl
@[simp] theorem State.raise_err (c : FaultCode) : (s.raise c).err = if s.err = 0#8 then c.bits else s.err := rfl
@[simp] theorem State.raise_prep (c : FaultCode) : (s.raise c).prep = s.prep := rfl
@[simp] theorem State.raise_cells (c : FaultCode) : (s.raise c).cells = s.cells := rfl
@[simp] theorem State.raise_snapBuf (c : FaultCode) : (s.raise c).snapBuf = s.snapBuf := rfl
@[simp] theorem State.raise_snapMask (c : FaultCode) : (s.raise c).snapMask = s.snapMask := rfl
@[simp] theorem State.raise_scratch (c : FaultCode) : (s.raise c).scratch = s.scratch := rfl
@[simp] theorem State.raise_inputs (c : FaultCode) : (s.raise c).inputs = s.inputs := rfl
@[simp] theorem State.raise_pos (c : FaultCode) : (s.raise c).pos = s.pos := rfl
@[simp] theorem State.raise_responses (c : FaultCode) :
    (s.raise c).responses =
      { st := stWord c.bits .faulted, rw0 := 0#32, rw1 := 0#32 } :: s.responses :=
  rfl
@[simp] theorem State.raise_psTurns (c : FaultCode) : (s.raise c).psTurns = s.psTurns := rfl
@[simp] theorem State.raise_elem (c : FaultCode) : (s.raise c).elem = s.elem := rfl
@[simp] theorem State.raise_draws (c : FaultCode) : (s.raise c).draws = s.draws := rfl
@[simp] theorem State.raise_num (c : FaultCode) : (s.raise c).num = s.num := rfl

/-! ### State.writeCell -/

@[simp] theorem State.writeCell_left (k : Cell) (v : Word) : (s.writeCell k v).left = s.left := rfl
@[simp] theorem State.writeCell_right (k : Cell) (v : Word) : (s.writeCell k v).right = s.right := rfl
@[simp] theorem State.writeCell_fs (k : Cell) (v : Word) : (s.writeCell k v).fs = s.fs := rfl
@[simp] theorem State.writeCell_snap (k : Cell) (v : Word) : (s.writeCell k v).snap = s.snap := rfl
@[simp] theorem State.writeCell_phase (k : Cell) (v : Word) : (s.writeCell k v).phase = s.phase := rfl
@[simp] theorem State.writeCell_err (k : Cell) (v : Word) : (s.writeCell k v).err = s.err := rfl
@[simp] theorem State.writeCell_prep (k : Cell) (v : Word) : (s.writeCell k v).prep = s.prep := rfl
@[simp] theorem State.writeCell_cells (k : Cell) (v : Word) : (s.writeCell k v).cells = s.cells.set k v := rfl
@[simp] theorem State.writeCell_snapBuf (k : Cell) (v : Word) : (s.writeCell k v).snapBuf = s.snapBuf := rfl
@[simp] theorem State.writeCell_snapMask (k : Cell) (v : Word) : (s.writeCell k v).snapMask = s.snapMask := rfl
@[simp] theorem State.writeCell_scratch (k : Cell) (v : Word) : (s.writeCell k v).scratch = s.scratch := rfl
@[simp] theorem State.writeCell_inputs (k : Cell) (v : Word) : (s.writeCell k v).inputs = s.inputs := rfl
@[simp] theorem State.writeCell_pos (k : Cell) (v : Word) : (s.writeCell k v).pos = s.pos := rfl
@[simp] theorem State.writeCell_responses (k : Cell) (v : Word) : (s.writeCell k v).responses = s.responses := rfl
@[simp] theorem State.writeCell_psTurns (k : Cell) (v : Word) : (s.writeCell k v).psTurns = s.psTurns := rfl
@[simp] theorem State.writeCell_elem (k : Cell) (v : Word) : (s.writeCell k v).elem = s.elem := rfl
@[simp] theorem State.writeCell_draws (k : Cell) (v : Word) : (s.writeCell k v).draws = s.draws := rfl
@[simp] theorem State.writeCell_num (k : Cell) (v : Word) : (s.writeCell k v).num = s.num := rfl

/-! ### State.recordRate -/

@[simp] theorem State.recordRate_left (f : Word) : (s.recordRate f).left = s.left := rfl
@[simp] theorem State.recordRate_right (f : Word) : (s.recordRate f).right = s.right := rfl
@[simp] theorem State.recordRate_fs (f : Word) : (s.recordRate f).fs = some f := rfl
@[simp] theorem State.recordRate_snap (f : Word) : (s.recordRate f).snap = s.snap := rfl
@[simp] theorem State.recordRate_phase (f : Word) : (s.recordRate f).phase = s.phase := rfl
@[simp] theorem State.recordRate_err (f : Word) : (s.recordRate f).err = s.err := rfl
@[simp] theorem State.recordRate_prep (f : Word) : (s.recordRate f).prep = true := rfl
@[simp] theorem State.recordRate_cells (f : Word) : (s.recordRate f).cells = s.cells := rfl
@[simp] theorem State.recordRate_snapBuf (f : Word) : (s.recordRate f).snapBuf = s.snapBuf := rfl
@[simp] theorem State.recordRate_snapMask (f : Word) : (s.recordRate f).snapMask = s.snapMask := rfl
@[simp] theorem State.recordRate_scratch (f : Word) : (s.recordRate f).scratch = s.scratch := rfl
@[simp] theorem State.recordRate_inputs (f : Word) : (s.recordRate f).inputs = s.inputs := rfl
@[simp] theorem State.recordRate_pos (f : Word) : (s.recordRate f).pos = s.pos := rfl
@[simp] theorem State.recordRate_responses (f : Word) : (s.recordRate f).responses = s.responses := rfl
@[simp] theorem State.recordRate_psTurns (f : Word) : (s.recordRate f).psTurns = s.psTurns := rfl
@[simp] theorem State.recordRate_elem (f : Word) : (s.recordRate f).elem = s.elem := rfl
@[simp] theorem State.recordRate_draws (f : Word) : (s.recordRate f).draws = s.draws := rfl
@[simp] theorem State.recordRate_num (f : Word) : (s.recordRate f).num = s.num := rfl

/-! ### State.setPhase -/

@[simp] theorem State.setPhase_left (p : Phase) : (s.setPhase p).left = s.left := rfl
@[simp] theorem State.setPhase_right (p : Phase) : (s.setPhase p).right = s.right := rfl
@[simp] theorem State.setPhase_fs (p : Phase) : (s.setPhase p).fs = s.fs := rfl
@[simp] theorem State.setPhase_snap (p : Phase) : (s.setPhase p).snap = s.snap := rfl
@[simp] theorem State.setPhase_phase (p : Phase) : (s.setPhase p).phase = p := rfl
@[simp] theorem State.setPhase_err (p : Phase) : (s.setPhase p).err = s.err := rfl
@[simp] theorem State.setPhase_prep (p : Phase) : (s.setPhase p).prep = s.prep := rfl
@[simp] theorem State.setPhase_cells (p : Phase) : (s.setPhase p).cells = s.cells := rfl
@[simp] theorem State.setPhase_snapBuf (p : Phase) : (s.setPhase p).snapBuf = s.snapBuf := rfl
@[simp] theorem State.setPhase_snapMask (p : Phase) : (s.setPhase p).snapMask = s.snapMask := rfl
@[simp] theorem State.setPhase_scratch (p : Phase) : (s.setPhase p).scratch = s.scratch := rfl
@[simp] theorem State.setPhase_inputs (p : Phase) : (s.setPhase p).inputs = s.inputs := rfl
@[simp] theorem State.setPhase_pos (p : Phase) : (s.setPhase p).pos = s.pos := rfl
@[simp] theorem State.setPhase_responses (p : Phase) : (s.setPhase p).responses = s.responses := rfl
@[simp] theorem State.setPhase_psTurns (p : Phase) : (s.setPhase p).psTurns = s.psTurns := rfl
@[simp] theorem State.setPhase_elem (p : Phase) : (s.setPhase p).elem = s.elem := rfl
@[simp] theorem State.setPhase_draws (p : Phase) : (s.setPhase p).draws = s.draws := rfl
@[simp] theorem State.setPhase_num (p : Phase) : (s.setPhase p).num = s.num := rfl

/-! ### State.generate -/

@[simp] theorem State.generate_left (f : Word) : (s.generate f).left = s.left := rfl
@[simp] theorem State.generate_right (f : Word) : (s.generate f).right = s.right := rfl
@[simp] theorem State.generate_fs (f : Word) : (s.generate f).fs = s.fs := rfl
@[simp] theorem State.generate_snap (f : Word) : (s.generate f).snap = s.snap := rfl
@[simp] theorem State.generate_phase (f : Word) : (s.generate f).phase = s.phase := rfl
@[simp] theorem State.generate_err (f : Word) : (s.generate f).err = s.err := rfl
@[simp] theorem State.generate_prep (f : Word) : (s.generate f).prep = s.prep := rfl
@[simp] theorem State.generate_cells (f : Word) : (s.generate f).cells = s.cells := rfl
@[simp] theorem State.generate_snapBuf (f : Word) : (s.generate f).snapBuf = s.snapBuf := rfl
@[simp] theorem State.generate_snapMask (f : Word) : (s.generate f).snapMask = s.snapMask := rfl
@[simp] theorem State.generate_scratch (f : Word) : (s.generate f).scratch = generated s.num s.draws s.snapBuf f :=
  rfl
@[simp] theorem State.generate_inputs (f : Word) : (s.generate f).inputs = s.inputs := rfl
@[simp] theorem State.generate_pos (f : Word) : (s.generate f).pos = s.pos := rfl
@[simp] theorem State.generate_responses (f : Word) : (s.generate f).responses = s.responses := rfl
@[simp] theorem State.generate_psTurns (f : Word) : (s.generate f).psTurns = s.psTurns := rfl
@[simp] theorem State.generate_elem (f : Word) : (s.generate f).elem = s.elem := rfl
@[simp] theorem State.generate_draws (f : Word) : (s.generate f).draws = s.draws + configDraws := rfl
@[simp] theorem State.generate_num (f : Word) : (s.generate f).num = s.num := rfl

/-! ### State.apply -/

@[simp] theorem State.apply_left (p : BypassPolicy) : (s.apply p).left = configured s.num p s.snapBuf s.scratch s.left :=
  rfl
@[simp] theorem State.apply_right (p : BypassPolicy) :
    (s.apply p).right =
      configured s.num p s.snapBuf s.scratch s.right :=
  rfl
@[simp] theorem State.apply_fs (p : BypassPolicy) : (s.apply p).fs = s.fs := rfl
@[simp] theorem State.apply_snap (p : BypassPolicy) : (s.apply p).snap = s.snapBuf := rfl
@[simp] theorem State.apply_phase (p : BypassPolicy) : (s.apply p).phase = s.phase := rfl
@[simp] theorem State.apply_err (p : BypassPolicy) : (s.apply p).err = s.err := rfl
@[simp] theorem State.apply_prep (p : BypassPolicy) : (s.apply p).prep = s.prep := rfl
@[simp] theorem State.apply_cells (p : BypassPolicy) : (s.apply p).cells = s.cells := rfl
@[simp] theorem State.apply_snapBuf (p : BypassPolicy) : (s.apply p).snapBuf = s.snapBuf := rfl
@[simp] theorem State.apply_snapMask (p : BypassPolicy) : (s.apply p).snapMask = s.snapMask := rfl
@[simp] theorem State.apply_scratch (p : BypassPolicy) : (s.apply p).scratch = emptyScratch := rfl
@[simp] theorem State.apply_inputs (p : BypassPolicy) : (s.apply p).inputs = s.inputs := rfl
@[simp] theorem State.apply_pos (p : BypassPolicy) : (s.apply p).pos = s.pos := rfl
@[simp] theorem State.apply_responses (p : BypassPolicy) : (s.apply p).responses = s.responses := rfl
@[simp] theorem State.apply_psTurns (p : BypassPolicy) : (s.apply p).psTurns = s.psTurns := rfl
@[simp] theorem State.apply_elem (p : BypassPolicy) : (s.apply p).elem = s.elem := rfl
@[simp] theorem State.apply_draws (p : BypassPolicy) : (s.apply p).draws = s.draws := rfl
@[simp] theorem State.apply_num (p : BypassPolicy) : (s.apply p).num = s.num := rfl

/-! ### State.chainClear -/

@[simp] theorem State.chainClear_left : (s.chainClear).left = Machine.chainClear s.num s.left := rfl
@[simp] theorem State.chainClear_right : (s.chainClear).right = Machine.chainClear s.num s.right := rfl
@[simp] theorem State.chainClear_fs : (s.chainClear).fs = s.fs := rfl
@[simp] theorem State.chainClear_snap : (s.chainClear).snap = s.snap := rfl
@[simp] theorem State.chainClear_phase : (s.chainClear).phase = s.phase := rfl
@[simp] theorem State.chainClear_err : (s.chainClear).err = s.err := rfl
@[simp] theorem State.chainClear_prep : (s.chainClear).prep = s.prep := rfl
@[simp] theorem State.chainClear_cells : (s.chainClear).cells = s.cells := rfl
@[simp] theorem State.chainClear_snapBuf : (s.chainClear).snapBuf = s.snapBuf := rfl
@[simp] theorem State.chainClear_snapMask : (s.chainClear).snapMask = s.snapMask := rfl
@[simp] theorem State.chainClear_scratch : (s.chainClear).scratch = s.scratch := rfl
@[simp] theorem State.chainClear_inputs : (s.chainClear).inputs = s.inputs := rfl
@[simp] theorem State.chainClear_pos : (s.chainClear).pos = s.pos := rfl
@[simp] theorem State.chainClear_responses : (s.chainClear).responses = s.responses := rfl
@[simp] theorem State.chainClear_psTurns : (s.chainClear).psTurns = s.psTurns := rfl
@[simp] theorem State.chainClear_elem : (s.chainClear).elem = s.elem := rfl
@[simp] theorem State.chainClear_draws : (s.chainClear).draws = s.draws := rfl
@[simp] theorem State.chainClear_num : (s.chainClear).num = s.num := rfl

/-! ### State.rstBlock -/

@[simp] theorem State.rstBlock_left : s.rstBlock.left = State.reset.left := rfl
@[simp] theorem State.rstBlock_right : s.rstBlock.right = State.reset.right := rfl
@[simp] theorem State.rstBlock_fs : s.rstBlock.fs = State.reset.fs := rfl
@[simp] theorem State.rstBlock_snap : s.rstBlock.snap = State.reset.snap := rfl
@[simp] theorem State.rstBlock_phase : s.rstBlock.phase = State.reset.phase := rfl
@[simp] theorem State.rstBlock_err : s.rstBlock.err = State.reset.err := rfl
@[simp] theorem State.rstBlock_prep : s.rstBlock.prep = State.reset.prep := rfl
@[simp] theorem State.rstBlock_cells : s.rstBlock.cells = State.reset.cells := rfl
@[simp] theorem State.rstBlock_snapBuf : s.rstBlock.snapBuf = State.reset.snapBuf := rfl
@[simp] theorem State.rstBlock_snapMask : s.rstBlock.snapMask = State.reset.snapMask := rfl
@[simp] theorem State.rstBlock_scratch : s.rstBlock.scratch = State.reset.scratch := rfl
@[simp] theorem State.rstBlock_inputs : s.rstBlock.inputs = s.inputs := rfl
@[simp] theorem State.rstBlock_pos : s.rstBlock.pos = s.pos := rfl
@[simp] theorem State.rstBlock_responses : s.rstBlock.responses = s.responses := rfl
@[simp] theorem State.rstBlock_psTurns : s.rstBlock.psTurns = s.psTurns := rfl
@[simp] theorem State.rstBlock_elem : s.rstBlock.elem = s.elem := rfl
@[simp] theorem State.rstBlock_draws : s.rstBlock.draws = s.draws := rfl

end Updates

/-! ### State.chain -/

@[simp] theorem State.chain_left (s : State) : s.chain .left = s.left := rfl
@[simp] theorem State.chain_right (s : State) : s.chain .right = s.right := rfl

/-! ### Snapshot.set and Snapshot.get -/

/-- A cell reads as the word last written to it. -/
@[simp] theorem Snapshot.get_set_same (p : Snapshot) (k : Cell) (v : Word) : (p.set k v).get k = v := by
  cases k <;> rfl

/-- Writing one cell leaves every other cell as it was. -/
theorem Snapshot.get_set_other (p : Snapshot) {k j : Cell} (v : Word) (h : j ≠ k) : (p.set k v).get j = p.get j := by
  cases k <;> cases j <;> first | rfl | exact absurd rfl h

/-- Two snapshots with the same seven words are the same. -/
theorem Snapshot.ext_get {p q : Snapshot} (h : ∀ k, p.get k = q.get k) : p = q := by
  cases p
  cases q
  have h0 := h .hpFreq
  have h1 := h .lpFreq
  have h2 := h .bellFreq
  have h3 := h .bellGain
  have h4 := h .bellQ
  have h5 := h .hpOrder
  have h6 := h .lpOrder
  simp only [Snapshot.get] at h0 h1 h2 h3 h4 h5 h6
  subst h0 h1 h2 h3 h4 h5 h6
  rfl

end Sys2Proof.Machine
end

