-- ==== Sys2Proof/Laws/Ops.lean ====
section
/-! SUPPORT. What each shared operation can do, said once: the common rule, SNAP_READ, taking an event, each command. -/

namespace Sys2Proof.Machine

/-! ### The common rule -/

theorem State.command_faulted {body : State → State} {s : State} (h : s.phase = .faulted) :
    s.command body = s.respond s.err 0#32 0#32 := by
  simp [State.command, h]

theorem State.command_running {body : State → State} {s : State} (h : s.phase ≠ .faulted) : s.command body = body s := by
  simp [State.command, h]

/-! ### SNAP_READ -/

/-- What the turns of a SNAP_READ can change: the cells, SNAPBUF and SNAPMASK. -/
theorem State.takeTurns_frame (ts : List Turn) (s : State) :
    ∃ c b m, State.takeTurns ts s = { s with cells := c, snapBuf := b, snapMask := m } := by
  induction ts generalizing s with
  | nil => exact ⟨_, _, _, rfl⟩
  | cons t ts ih =>
    obtain ⟨c, b, m, h⟩ := ih (s.takeTurn t)
    refine ⟨c, b, m, ?_⟩
    rw [State.takeTurns, h]
    cases t with
    | read k =>
      by_cases hk : s.snapMask &&& cellBit k = 0#7 <;> simp [State.takeTurn, State.readCell, hk]
    | pset k v => rfl

/-- What SNAP_READ can change: the cells (by PSETs taken inside it), SNAPBUF, SNAPMASK (cleared) and the run's turns. -/
theorem State.snapRead_frame (s : State) :
    ∃ c b, s.snapRead = { s with cells := c, snapBuf := b, snapMask := 0#7, psTurns := s.psTurns.tail } := by
  obtain ⟨c1, b1, m1, h1⟩ :=
    State.takeTurns_frame (s.psTurns.headD []) { s with snapMask := 0#7, psTurns := s.psTurns.tail }
  obtain ⟨c2, b2, m2, h2⟩ := State.takeTurns_frame (allCells.map Turn.read)
    { s with cells := c1, snapBuf := b1, snapMask := m1, psTurns := s.psTurns.tail }
  exact ⟨c2, b2, by simp only [State.snapRead, h1, h2]⟩

section SnapRead

variable (s : State)

@[simp] theorem State.snapRead_left : s.snapRead.left = s.left := by
  obtain ⟨_, _, h⟩ := s.snapRead_frame; rw [h]
@[simp] theorem State.snapRead_right : s.snapRead.right = s.right := by
  obtain ⟨_, _, h⟩ := s.snapRead_frame; rw [h]
@[simp] theorem State.snapRead_fs : s.snapRead.fs = s.fs := by
  obtain ⟨_, _, h⟩ := s.snapRead_frame; rw [h]
@[simp] theorem State.snapRead_snap : s.snapRead.snap = s.snap := by
  obtain ⟨_, _, h⟩ := s.snapRead_frame; rw [h]
@[simp] theorem State.snapRead_phase : s.snapRead.phase = s.phase := by
  obtain ⟨_, _, h⟩ := s.snapRead_frame; rw [h]
@[simp] theorem State.snapRead_err : s.snapRead.err = s.err := by
  obtain ⟨_, _, h⟩ := s.snapRead_frame; rw [h]
@[simp] theorem State.snapRead_prep : s.snapRead.prep = s.prep := by
  obtain ⟨_, _, h⟩ := s.snapRead_frame; rw [h]
@[simp] theorem State.snapRead_snapMask : s.snapRead.snapMask = 0#7 := by
  obtain ⟨_, _, h⟩ := s.snapRead_frame; rw [h]
@[simp] theorem State.snapRead_scratch : s.snapRead.scratch = s.scratch := by
  obtain ⟨_, _, h⟩ := s.snapRead_frame; rw [h]
@[simp] theorem State.snapRead_inputs : s.snapRead.inputs = s.inputs := by
  obtain ⟨_, _, h⟩ := s.snapRead_frame; rw [h]
@[simp] theorem State.snapRead_pos : s.snapRead.pos = s.pos := by
  obtain ⟨_, _, h⟩ := s.snapRead_frame; rw [h]
@[simp] theorem State.snapRead_responses : s.snapRead.responses = s.responses := by
  obtain ⟨_, _, h⟩ := s.snapRead_frame; rw [h]
@[simp] theorem State.snapRead_psTurns : s.snapRead.psTurns = s.psTurns.tail := by
  obtain ⟨_, _, h⟩ := s.snapRead_frame; rw [h]
@[simp] theorem State.snapRead_elem : s.snapRead.elem = s.elem := by
  obtain ⟨_, _, h⟩ := s.snapRead_frame; rw [h]
@[simp] theorem State.snapRead_draws : s.snapRead.draws = s.draws := by
  obtain ⟨_, _, h⟩ := s.snapRead_frame; rw [h]
@[simp] theorem State.snapRead_num : s.snapRead.num = s.num := by simp [State.num]

end SnapRead

/-! ### Taking an event -/

section TakeInput

variable (s : State)

/-- What taking an event leaves alone. -/
theorem State.takeInput_frame : ∃ i p, s.takeInput = { s with inputs := i, pos := p } := by
  unfold State.takeInput
  split <;> exact ⟨_, _, rfl⟩

@[simp] theorem State.takeInput_left : s.takeInput.left = s.left := by
  obtain ⟨_, _, h⟩ := s.takeInput_frame; rw [h]
@[simp] theorem State.takeInput_right : s.takeInput.right = s.right := by
  obtain ⟨_, _, h⟩ := s.takeInput_frame; rw [h]
@[simp] theorem State.takeInput_fs : s.takeInput.fs = s.fs := by
  obtain ⟨_, _, h⟩ := s.takeInput_frame; rw [h]
@[simp] theorem State.takeInput_snap : s.takeInput.snap = s.snap := by
  obtain ⟨_, _, h⟩ := s.takeInput_frame; rw [h]
@[simp] theorem State.takeInput_phase : s.takeInput.phase = s.phase := by
  obtain ⟨_, _, h⟩ := s.takeInput_frame; rw [h]
@[simp] theorem State.takeInput_err : s.takeInput.err = s.err := by
  obtain ⟨_, _, h⟩ := s.takeInput_frame; rw [h]
@[simp] theorem State.takeInput_prep : s.takeInput.prep = s.prep := by
  obtain ⟨_, _, h⟩ := s.takeInput_frame; rw [h]
@[simp] theorem State.takeInput_cells : s.takeInput.cells = s.cells := by
  obtain ⟨_, _, h⟩ := s.takeInput_frame; rw [h]
@[simp] theorem State.takeInput_snapBuf : s.takeInput.snapBuf = s.snapBuf := by
  obtain ⟨_, _, h⟩ := s.takeInput_frame; rw [h]
@[simp] theorem State.takeInput_snapMask : s.takeInput.snapMask = s.snapMask := by
  obtain ⟨_, _, h⟩ := s.takeInput_frame; rw [h]
@[simp] theorem State.takeInput_scratch : s.takeInput.scratch = s.scratch := by
  obtain ⟨_, _, h⟩ := s.takeInput_frame; rw [h]
@[simp] theorem State.takeInput_responses : s.takeInput.responses = s.responses := by
  obtain ⟨_, _, h⟩ := s.takeInput_frame; rw [h]
@[simp] theorem State.takeInput_psTurns : s.takeInput.psTurns = s.psTurns := by
  obtain ⟨_, _, h⟩ := s.takeInput_frame; rw [h]
@[simp] theorem State.takeInput_elem : s.takeInput.elem = s.elem := by
  obtain ⟨_, _, h⟩ := s.takeInput_frame; rw [h]
@[simp] theorem State.takeInput_draws : s.takeInput.draws = s.draws := by
  obtain ⟨_, _, h⟩ := s.takeInput_frame; rw [h]

@[simp] theorem State.takeInput_inputs : s.takeInput.inputs = s.inputs.tail := by
  unfold State.takeInput
  split <;> simp [*]

/-- Taking an event on a state whose head is known. -/
theorem State.takeInput_cons {s : State} {i : Input} {rest : List Input} (h : s.inputs = i :: rest) :
    s.takeInput = { s with inputs := rest, pos := s.pos + inputAdvance i } := by
  simp [State.takeInput, h]

end TakeInput

/-! ### What each command can do -/

/-- The outcomes of NOP. -/
theorem nopBody_eq (s : State) : nopBody s = s.respond 0#8 0#32 0#32 := rfl

/-- The outcomes of RDS: a word read, or the fault of an unmapped selector. -/
theorem rdsBody_cases (sel : BitVec 16) (s : State) :
    (∃ x, decodeSelector sel = some x ∧ rdsBody sel s = s.respond 0#8 (readSelected s x) 0#32) ∨
      (decodeSelector sel = none ∧ rdsBody sel s = s.raise .illegal) := by
  unfold rdsBody
  cases h : decodeSelector sel with
  | none => exact .inr ⟨rfl, rfl⟩
  | some x => exact .inl ⟨x, rfl, rfl⟩

/-- The outcomes of PREPARE, in check order. -/
theorem prepareBody_cases (policy : BypassPolicy) (n : Nat) (a : Word) (s : State) :
    (n ≠ 2 ∧ prepareBody policy n a s = s.raise .layout) ∨
      (n = 2 ∧ positive s.num (s.num.ofWord a) = false ∧ prepareBody policy n a s = s.raise .fs) ∨
      (n = 2 ∧ positive s.num (s.num.ofWord a) = true ∧
        ((∃ code, validate s.num s.draws s.snapRead.snapBuf (s.num.ofWord a) = some code ∧
            prepareBody policy n a s = s.snapRead.raise code) ∨
          (validate s.num s.draws s.snapRead.snapBuf (s.num.ofWord a) = none ∧
            prepareBody policy n a s = prepareCommit policy (s.num.ofWord a) (s.snapRead.generate (s.num.ofWord a))))) := by
  unfold prepareBody
  by_cases hn : n = 2
  · cases hp : positive s.num (s.num.ofWord a) with
    | false => exact .inr (.inl ⟨hn, rfl, by simp [hn, hp]⟩)
    | true =>
      refine .inr (.inr ⟨hn, rfl, ?_⟩)
      cases hv : validate s.num s.draws s.snapRead.snapBuf (s.num.ofWord a) with
      | some code => exact .inl ⟨code, rfl, by simp [hn, hp, hv]⟩
      | none => exact .inr ⟨rfl, by simp [hn, hp, hv]⟩
  · exact .inl ⟨hn, by simp [hn]⟩

/-- The outcomes of UPDATE, in check order. -/
theorem updateBody_cases (policy : BypassPolicy) (s : State) :
    (s.phase = .uninit ∧ updateBody policy s = s.raise .notPrepared) ∨
      (s.phase ≠ .uninit ∧
        ((∃ code, validate s.num s.draws s.snapRead.snapBuf s.rate = some code ∧
            updateBody policy s = s.snapRead.raise code) ∨
          (validate s.num s.draws s.snapRead.snapBuf s.rate = none ∧
            updateBody policy s = ((s.snapRead.generate s.rate).apply policy).respond 0#8 0#32 0#32))) := by
  unfold updateBody
  by_cases hp : s.phase = .uninit
  · exact .inl ⟨hp, by simp [hp]⟩
  · refine .inr ⟨hp, ?_⟩
    cases hv : validate s.num s.draws s.snapRead.snapBuf s.rate with
    | some code => exact .inl ⟨code, rfl, by simp [hp]⟩
    | none => exact .inr ⟨rfl, by simp [hp]⟩

/-- The outcomes of FRAME. -/
theorem frameBody_cases (policy : BypassPolicy) (l r : Word) (s : State) :
    (s.phase = .uninit ∧ frameBody policy l r s = s.raise .notPrepared) ∨
      (s.phase ≠ .uninit ∧
        frameBody policy l r s =
          { s with
            left := (frameLeft policy l s).2
            right := (frameRight policy r s).2
            draws := s.draws + frameDraws
            phase := .running
            responses := { st := stWord 0#8 .running, rw0 := (frameLeft policy l s).1, rw1 := (frameRight policy r s).1 } ::
              s.responses }) := by
  unfold frameBody
  by_cases hp : s.phase = .uninit
  · exact .inl ⟨hp, by simp [hp]⟩
  · exact .inr ⟨hp, by simp only [hp, if_false]; rfl⟩

/-- The word a validated snapshot leaves as orders. -/
theorem orderLegal_iff (w : Word) : orderLegal w = true ↔ 1 ≤ w.toNat ∧ w.toNat ≤ 4 := by
  simp [orderLegal]

/-- VALIDATE answers no code exactly when every check of R165 passes. -/
theorem validate_none_iff {α : Type} (N : Num α) (d : Nat) (p : Snapshot) (fs : α) :
    validate N d p fs = none ↔
      (orderLegal p.hpOrder = true ∧ orderLegal p.lpOrder = true) ∧
        (positive N (N.ofWord p.hpFreq) = true ∧ positive N (N.ofWord p.lpFreq) = true ∧
          positive N (N.ofWord p.bellFreq) = true) ∧
        positive N (N.ofWord p.bellQ) = true ∧ N.fisfinite (N.ofWord p.bellGain) = true ∧
        N.flt (N.ofWord p.hpFreq) (N.fmul d fs N.half) = true ∧
        N.flt (N.ofWord p.lpFreq) (N.fmul d fs N.half) = true ∧
        N.flt (N.ofWord p.bellFreq) (N.fmul d fs N.half) = true := by
  constructor
  · intro h
    simp only [validate] at h
    split_ifs at h with h1 h2 h3 h4 h5
    simp_all
  · rintro ⟨⟨h1, h2⟩, ⟨h3, h4, h5⟩, h6, h7, h8, h9, h10⟩
    simp [validate, h1, h2, h3, h4, h5, h6, h7, h8, h9, h10]

/-! ### The dispatch and the step -/

/-- Every instruction answers a next state: the state its meaning computes. -/
def execState (i : Instr) (s : State) : State :=
  match i with
  | .nop => s.command nopBody
  | .prepare n fs _ => s.command (prepareBody .hold n fs)
  | .update => s.command (updateBody .hold)
  | .frame l r => s.command (frameBody .hold l r)
  | .rds sel => s.command (rdsBody sel)
  | .psetHpFreq v => s.writeCell .hpFreq v
  | .psetLpFreq v => s.writeCell .lpFreq v
  | .psetBellFreq v => s.writeCell .bellFreq v
  | .psetBellGain v => s.writeCell .bellGain v
  | .psetBellQ v => s.writeCell .bellQ v
  | .psetHpOrder v => s.writeCell .hpOrder v
  | .psetLpOrder v => s.writeCell .lpOrder v

theorem exec_eq (i : Instr) (s : State) : exec i s = .next (execState i s) := by
  cases i <;> rfl

/-- The five things a step can be. -/
theorem step_cases (s : State) :
    (s.nextEvent = .idle ∧ step s = .next s) ∨ (s.nextEvent = .rst ∧ step s = .next s.takeInput.rstBlock) ∨
      (∃ i, s.nextEvent = .instr i ∧ step s = .next (execState i s.takeInput)) ∨
      (s.nextEvent = .illegal ∧ step s = .next s.takeInput.illegalBeat) ∨
      (s.nextEvent = .dropped ∧ step s = .next s.takeInput) := by
  unfold step
  cases h : s.nextEvent with
  | idle => exact .inl ⟨rfl, rfl⟩
  | rst => exact .inr (.inl ⟨rfl, rfl⟩)
  | instr i => exact .inr (.inr (.inl ⟨i, rfl, exec_eq i _⟩))
  | illegal => exact .inr (.inr (.inr (.inl ⟨rfl, rfl⟩)))
  | dropped => exact .inr (.inr (.inr (.inr ⟨rfl, rfl⟩)))

end Sys2Proof.Machine
end

