-- ==== Sys2Proof/Laws/PerInstr.lean ====
section
/-! SUPPORT. Statements about every instruction as syntax, one lemma per constructor: its encoding matches its own row of
spec/opcode_table.json. -/

namespace Sys2Proof.Laws.Encodes

/-- A command beat whose header, under a row's mask, is the row's match (30_encoding.md R83). -/
def CommandMatches (pattern mask : Word) : Beat → Prop
  | .command bits => hdrOf bits &&& mask = pattern
  | .parameter _ => False

/-- A parameter beat that, under the mask 0x700000000, is the match of cell number `k` (R85). -/
def ParameterMatches (k : Nat) : Beat → Prop
  | .command _ => False
  | .parameter bits => bits &&& 0x700000000#35 = BitVec.ofNat 35 (k * 2 ^ 32)

/-- The row of spec/opcode_table.json that an instruction's beat must match. -/
def RowMatches : Instr → Beat → Prop
  | .nop => CommandMatches 0x00000000#32 0xFFFFFFFF#32
  | .prepare _ _ _ => CommandMatches 0x01000000#32 0xFF00FFFF#32
  | .update => CommandMatches 0x02000000#32 0xFFFFFFFF#32
  | .frame _ _ => CommandMatches 0x03000000#32 0xFFFFFFFF#32
  | .rds _ => CommandMatches 0x04000000#32 0xFFFF0000#32
  | .psetHpFreq _ => ParameterMatches 0
  | .psetLpFreq _ => ParameterMatches 1
  | .psetBellFreq _ => ParameterMatches 2
  | .psetBellGain _ => ParameterMatches 3
  | .psetBellQ _ => ParameterMatches 4
  | .psetHpOrder _ => ParameterMatches 5
  | .psetLpOrder _ => ParameterMatches 6

/-- A well-formed instruction's encoding matches its row. -/
def Statement (i : Instr) : Prop := i.WellFormed → RowMatches i (encode i)

/-- A header built from its fields, under the mask of PREPARE's row. -/
theorem header_prepare (n : BitVec 8) : header 0x01#8 n 0#16 &&& 0xFF00FFFF#32 = 0x01000000#32 := by
  revert n
  decide

/-- A header built from its fields, under the mask of RDS's row. -/
theorem header_rds (sel : BitVec 16) : header 0x04#8 0#8 sel &&& 0xFFFF0000#32 = 0x04000000#32 := by
  unfold header
  ext i hi
  rw [← BitVec.getLsbD_eq_getElem hi, ← BitVec.getLsbD_eq_getElem hi]
  rw [BitVec.getLsbD_and]
  simp only [BitVec.getLsbD_append]
  by_cases h : i < 16
  · have hmask : BitVec.getLsbD 0xFFFF0000#32 i = false := by
      interval_cases i <;> rfl
    have hpat : BitVec.getLsbD 0x04000000#32 i = false := by
      interval_cases i <;> rfl
    rw [hmask, hpat, Bool.and_false]
  · have : 16 ≤ i := by omega
    interval_cases i <;> rfl

/-- A parameter beat built from its fields, under the mask of its row. -/
theorem parameter_mask (k : BitVec 3) (v : Word) :
    parameterBits k v &&& 0x700000000#35 = BitVec.ofNat 35 (k.toNat * 2 ^ 32) := by
  unfold parameterBits
  ext i hi
  rw [← BitVec.getLsbD_eq_getElem hi, ← BitVec.getLsbD_eq_getElem hi, BitVec.getLsbD_and]
  simp only [BitVec.getLsbD_append]
  have hk : BitVec.getLsbD (BitVec.ofNat 35 (k.toNat * 2 ^ 32)) i = (decide (32 ≤ i) && k.getLsbD (i - 32)) := by
    rw [BitVec.getLsbD_ofNat, Nat.testBit_mul_two_pow]
    simp [hi, BitVec.getLsbD]
  rw [hk]
  by_cases h : i < 32
  · have hmask : BitVec.getLsbD 0x700000000#35 i = false := by
      interval_cases i <;> rfl
    simp [hmask, show ¬ 32 ≤ i by omega]
  · have hmask : BitVec.getLsbD 0x700000000#35 i = true := by
      have : 32 ≤ i := by omega
      interval_cases i <;> rfl
    simp [h, hmask, show 32 ≤ i by omega]

theorem nop : Statement .nop := fun _ => by
  simp only [RowMatches, encode, CommandMatches, hdrOf_commandBits]
  rfl

theorem prepare (n : Nat) (fs maxblk : Word) : Statement (.prepare n fs maxblk) := fun _ => by
  simp only [RowMatches, encode, CommandMatches, hdrOf_commandBits]
  exact header_prepare _

theorem update : Statement .update := fun _ => by
  simp only [RowMatches, encode, CommandMatches, hdrOf_commandBits]
  rfl

theorem frame (l r : Word) : Statement (.frame l r) := fun _ => by
  simp only [RowMatches, encode, CommandMatches, hdrOf_commandBits]
  rfl

theorem rds (sel : BitVec 16) : Statement (.rds sel) := fun _ => by
  simp only [RowMatches, encode, CommandMatches, hdrOf_commandBits]
  exact header_rds sel

theorem psetHpFreq (v : Word) : Statement (.psetHpFreq v) := fun _ => parameter_mask 0#3 v

theorem psetLpFreq (v : Word) : Statement (.psetLpFreq v) := fun _ => parameter_mask 1#3 v

theorem psetBellFreq (v : Word) : Statement (.psetBellFreq v) := fun _ => parameter_mask 2#3 v

theorem psetBellGain (v : Word) : Statement (.psetBellGain v) := fun _ => parameter_mask 3#3 v

theorem psetBellQ (v : Word) : Statement (.psetBellQ v) := fun _ => parameter_mask 4#3 v

theorem psetHpOrder (v : Word) : Statement (.psetHpOrder v) := fun _ => parameter_mask 5#3 v

theorem psetLpOrder (v : Word) : Statement (.psetLpOrder v) := fun _ => parameter_mask 6#3 v

end Sys2Proof.Laws.Encodes
end

