-- ==== Sys2Proof/Laws/Real.lean ====
section
/-! SUPPORT. Under REAL: division by what is not zero, the tangent in the range column, the conversion of a finite word, and the words that are refused. -/

namespace Sys2Proof.Machine

theorem realDiv_of_ne {a b : ℝ} (h : b ≠ 0) : realDiv a b = a / b := if_neg h

/-- In the range column TANPI is the tangent. -/
theorem elemReal_tanpi {w : ℝ} (h0 : 0 ≤ w) (h : w < 1 / 2) : elemReal.tanpi w = Real.tan (Real.pi * w) := by
  have : 0 < Real.cos (Real.pi * w) :=
    Real.cos_pos_of_mem_Ioo ⟨by nlinarith [Real.pi_pos], by nlinarith [Real.pi_pos]⟩
  exact if_neg this.ne'

theorem realOfWord?_eq_none {w : Word} (h : F32.isFinite w = false) : realOfWord? w = none := by simp [realOfWord?, h]

theorem realNum_ofWord {w : Word} (h : F32.isFinite w = true) : realNum.ofWord w = (F32.val w : ℝ) / 2 ^ 149 := by
  simp [realNum, realOfWord?, h]

theorem realFrame?_eq_none (policy : BypassPolicy) (c : Chain ℝ) {x : Word} (h : F32.isFinite x = false) :
    realFrame? policy c x = none := by simp [realFrame?, h]

theorem realValidate?_eq_none {p : Snapshot} {fs : Word} (h : (snapshotFinite p && F32.isFinite fs) = false) :
    realValidate? p fs = none := by simp [realValidate?, h]

theorem realBell?_eq_none {p : Snapshot} {fs : Word} (h : (snapshotFinite p && F32.isFinite fs) = false) :
    realBell? p fs = none := by simp [realBell?, h]

theorem realBank?_eq_none {p : Snapshot} {fs : Word} (kind : Kind) (h : (snapshotFinite p && F32.isFinite fs) = false) :
    realBank? p fs kind = none := by simp [realBank?, h]

end Sys2Proof.Machine
end

