-- ==== Sys2Proof/Laws/Run.lean ====
section
/-! SUPPORT. Runs: when one goes on, and how the commands still to come are counted. -/

namespace Sys2Proof.Machine

theorem runFor_ended (n : Nat) {s : State} (h : runEnded s = true) : runFor n s = s := by
  cases n with
  | zero => rfl
  | succ n => simp [runFor, h]

theorem runFor_step {n : Nat} {s t : State} (h : runEnded s = false) (ht : step s = .next t) :
    runFor (n + 1) s = runFor n t := by simp [runFor, h, ht]

theorem runEnded_iff (s : State) : runEnded s = true ↔ commandsLeft s = 0 ∧ s.snapMask = 0#7 := by simp [runEnded]

theorem commandsLeft_cons {s : State} {i : Input} {rest : List Input} (h : s.inputs = i :: rest) :
    commandsLeft s = inputAdvance i + (rest.map inputAdvance).sum := by simp [commandsLeft, h]

end Sys2Proof.Machine
end

