-- ==== Sys2Proof/Machine/AssemblerText.lean ====
section
/-! DEFINITION. The textual form of a run read from its characters (30_encoding.md R90, R91): comments, numeric operands,
cell names, one command or `BLOCK` per line. -/

namespace Sys2Proof.Machine

/-- The characters that stand between words: space, tab, carriage return and the comma of an operand list. -/
def isGap (c : Char) : Bool := c.toNat == 32 || c.toNat == 9 || c.toNat == 13 || c == ','

/-- The characters that are words by themselves: the semicolon and the two braces. -/
def isMark (c : Char) : Bool := c.toNat == 59 || c.toNat == 123 || c.toNat == 125

/-- The words of one line; `w` is the word read so far, last character first. -/
def wordsOf (w : List Char) : List Char → List (List Char)
  | [] => if w.isEmpty then [] else [w.reverse]
  | c :: cs =>
    if isGap c then (if w.isEmpty then wordsOf [] cs else w.reverse :: wordsOf [] cs)
    else if isMark c then (if w.isEmpty then [c] :: wordsOf [] cs else w.reverse :: [c] :: wordsOf [] cs)
    else wordsOf (c :: w) cs

/-- The value of a digit in a base up to 16. -/
def digitOf (base : Nat) (c : Char) : Option Nat :=
  let n := c.toNat
  let v := if 48 ≤ n ∧ n ≤ 57 then n - 48 else if 65 ≤ n ∧ n ≤ 70 then n - 55 else if 97 ≤ n ∧ n ≤ 102 then n - 87 else 16
  if v < base then some v else none

/-- Digits read after the value `acc`; none where a character is no digit. -/
def digitsFrom (base acc : Nat) : List Char → Option Nat
  | [] => some acc
  | c :: cs =>
    match digitOf base c with
    | some d => digitsFrom base (acc * base + d) cs
    | none => none

/-- A number of at least one digit. -/
def numberOf (base : Nat) : List Char → Option Nat
  | [] => none
  | c :: cs => digitsFrom base 0 (c :: cs)

/-- The part of a word before its first point and the part after it; none where it has no point. -/
def atPoint : List Char → Option (List Char × List Char)
  | [] => none
  | c :: cs => if c = '.' then some ([], cs) else (atPoint cs).map fun p => (c :: p.1, p.2)

/-- `<decimal>`: digits, or digits with a point and further digits. -/
def decimalOf (negative : Bool) (w : List Char) : Option Operand :=
  match atPoint w with
  | none => (numberOf 10 w).map fun n => .decimal negative n 1
  | some (i, f) =>
    match numberOf 10 i, numberOf 10 f with
    | some a, some b => some (.decimal negative (a * 10 ^ f.length + b) (10 ^ f.length))
    | _, _ => none

/-- A numeric operand (R90): `0x…`, `f:<decimal>`, a bare decimal integer. A raw word has at most 32 bits. -/
def operandOf : List Char → Option Operand
  | '0' :: 'x' :: w =>
    match numberOf 16 w with
    | some n => if n < 2 ^ 32 then some (.raw (BitVec.ofNat 32 n)) else none
    | none => none
  | 'f' :: ':' :: '-' :: w => decimalOf true w
  | 'f' :: ':' :: w => decimalOf false w
  | w => (numberOf 10 w).map Operand.integer

/-- A small number: a channel count, a selector, a cell, a stage, a register (`n`, `sel`, `k`, `ch`, `s`, `r`). R90 gives its
three numeric forms for operands in general; that these, which are no whole words, are written in decimal or `0x…` and not as
`f:<decimal>` is the model's choice (DESIGN CHOICE, notes/assumptions/28.md). -/
def smallOf : List Char → Option Nat
  | '0' :: 'x' :: w => numberOf 16 w
  | w => numberOf 10 w

/-- The names of the seven cells, in order (R90). -/
def cellNames : List (List Char) :=
  [['H', 'P', '_', 'F', 'R', 'E', 'Q'], ['L', 'P', '_', 'F', 'R', 'E', 'Q'], ['B', 'E', 'L', 'L', '_', 'F', 'R', 'E', 'Q'],
    ['B', 'E', 'L', 'L', '_', 'G', 'A', 'I', 'N'], ['B', 'E', 'L', 'L', '_', 'Q'],
    ['H', 'P', '_', 'O', 'R', 'D', 'E', 'R'], ['L', 'P', '_', 'O', 'R', 'D', 'E', 'R']]

/-- A cell, by its name or its number. -/
def cellNumberOf (w : List Char) : Option Nat :=
  match cellNames.findIdx? (· == w) with
  | some k => some k
  | none => smallOf w

/-- One command without braces: a mnemonic and its operands. A cell name may stand for the `k` of PSET, the one line of
R90's table with a cell; that RDSNAP (R91) takes its `k` as a number only is the model's choice (DESIGN CHOICE,
notes/assumptions/28.md). -/
def commandOf : List (List Char) → Option Line
  | [m] =>
    if m = ['N', 'O', 'P'] then some .nop
    else if m = ['U', 'P', 'D', 'A', 'T', 'E'] then some .update
    else if m = ['R', 'D', 'S', 'T', 'A', 'T', 'U', 'S'] then some .rdstatus
    else none
  | [m, a] =>
    if m = ['R', 'D', 'S'] then (smallOf a).map Line.rds
    else if m = ['R', 'D', 'S', 'N', 'A', 'P'] then (smallOf a).map Line.rdsnap
    else if m = ['S', 'T', 'A', 'R', 'T'] then (operandOf a).map Line.start
    else none
  | [m, a, b] =>
    if m = ['F', 'R', 'A', 'M', 'E'] then
      match operandOf a, operandOf b with
      | some l, some r => some (.frame l r)
      | _, _ => none
    else if m = ['P', 'S', 'E', 'T'] then
      match cellNumberOf a, operandOf b with
      | some k, some v => some (.pset k v)
      | _, _ => none
    else none
  | [m, a, b, c] =>
    if m = ['P', 'R', 'E', 'P', 'A', 'R', 'E'] then
      match smallOf a, operandOf b, operandOf c with
      | some n, some fs, some blk => some (.prepare n fs blk)
      | _, _, _ => none
    else if m = ['R', 'D', 'C', 'O', 'E', 'F'] then
      match smallOf a, smallOf b, smallOf c with
      | some ch, some s, some r => some (.rdcoef ch s r)
      | _, _, _ => none
    else none
  | _ => none

/-- The words before the first semicolon: what a comment leaves of a line. -/
def uncommented : List (List Char) → List (List Char)
  | [] => []
  | w :: ws => if w = [';'] then [] else w :: uncommented ws

/-- The frames of a `BLOCK` up to its closing brace, after which only a comment may follow. R91 shows a BLOCK with frames and
does not say whether it may list none: that the text has at least one FRAME and no semicolon before the closing brace, while
the line `Line.block []` as data stands for its UPDATE alone, is the model's choice (DESIGN CHOICE,
notes/assumptions/28.md). -/
def framesOf : List (List Char) → Option (List (Operand × Operand))
  | f :: a :: b :: m :: rest =>
    if f = ['F', 'R', 'A', 'M', 'E'] then
      match operandOf a, operandOf b with
      | some l, some r =>
        if m = [Char.ofNat 125] then (if (uncommented rest).isEmpty then some [(l, r)] else none)
        else if m = [';'] then (framesOf rest).map fun fs => (l, r) :: fs
        else none
      | _, _ => none
    else none
  | _ => none

/-- One line of text: nothing, a command, or a `BLOCK`; the outer `none` where it is no line of the syntax. -/
def textLine (cs : List Char) : Option (Option Line) :=
  match wordsOf [] cs with
  | b :: m :: rest =>
    if b = ['B', 'L', 'O', 'C', 'K'] ∧ m = [Char.ofNat 123] then (framesOf rest).map fun fs => some (.block fs)
    else plain (b :: m :: rest)
  | ws => plain ws
where
  /-- A line without braces. -/
  plain (ws : List (List Char)) : Option (Option Line) :=
    if (uncommented ws).isEmpty then some none else (commandOf (uncommented ws)).map some

/-- The lines of a text, split at the line feeds; `w` is the line read so far, last character first. -/
def splitLines (w : List Char) : List Char → List (List Char)
  | [] => [w.reverse]
  | c :: cs => if c.toNat = 10 then w.reverse :: splitLines [] cs else splitLines (c :: w) cs

/-- The well-formed lines of a list of text lines, or none where one is not. -/
def linesOf : List (List Char) → Option (List Line)
  | [] => some []
  | t :: ts =>
    match textLine t, linesOf ts with
    | some none, some ls => some ls
    | some (some l), some ls => if lineWellFormed l then some (l :: ls) else none
    | _, _ => none

/-- The beats of a run's text (R90). -/
def assembleText (text : List Char) : Option (List Beat) := (linesOf (splitLines [] text)).map assemble

end Sys2Proof.Machine
end

