-- ==== Sys2Proof/Tests/Slice0.lean ====
section
/-! SUPPORT. Tests: ill-formed terms refused, written-out words decoded, the vectors of 95_test_vectors.md, and a witness
for the hypotheses of each statement. -/

namespace Sys2Proof.Tests

set_option Elab.async false

open Sys2Proof Sys2Proof.Machine

/-! ### Helpers -/

/-- The state an instruction leaves. -/
def after (i : Instr) (s : State) : State :=
  match exec i s with
  | .next t => t
  | .fault _ => s
  | .refused _ => s

/-- The state a step leaves. -/
def stepped (s : State) : State :=
  match step s with
  | .next t => t
  | .fault _ => s
  | .refused _ => s

/-- The newest response as three words. -/
def answer (s : State) : List Word :=
  match s.responses with
  | [] => []
  | r :: _ => [r.st, r.rw0, r.rw1]

/-- Five coefficients as a list. -/
def words (c : Coef Word) : List Word := [c.b0, c.b1, c.b2, c.a1, c.a2]

/-- Five words as coefficients. -/
def coef (b0 b1 b2 a1 a2 : Word) : Coef Word := { b0 := b0, b1 := b1, b2 := b2, a1 := a1, a2 := a2 }

/-- A stage with cleared delay registers. -/
def fresh (c : Coef Word) : Biquad Word := { coef := c, z1 := 0#32, z2 := 0#32 }

/-- A bank whose first section only is enabled. -/
def oneSection (c : Coef Word) : Bank Word := { resetBank with s0 := { bq := fresh c, byp := false } }

/-- A channel with one section per bank. -/
def channel (hp bell lp : Coef Word) : Chain Word := { hp := oneSection hp, bell := fresh bell, lp := oneSection lp }

/-- Program P1 after its first step (95_test_vectors.md). -/
def p1 : State :=
  let c := channel (coef 0x3F7F86CB#32 0xBFFF86CB#32 0x3F7F86CB#32 0xBFFF86AE#32 0x3F7F0DCF#32)
    (coef 0x3F800000#32 0xBFF2DD65#32 0x3F681474#32 0xBFF2DD65#32 0x3F681474#32)
    (coef 0x3F30765E#32 0x3FB0765E#32 0x3F30765E#32 0x3FA3CAFE#32 0x3EF486F7#32)
  { State.reset with
    left := c, right := c, fs := some 0x473B8000#32, snap := defaultCells, phase := .prepared, prep := true }

/-- Reset with the rate of a stream recorded and other cells, for UPDATE. -/
def withCells (fs : Word) (cells : Snapshot) : State := { p1 with fs := some fs, cells := cells }

/-- That state with a NOP arriving. -/
def waiting : State := { p1 with inputs := [.beat (.command 0x000000000000000000000000#96)] }

/-- Reset with one fault recorded. -/
def faulted : State := { State.reset with phase := .faulted, err := 0x06#8 }

/-! ### WellFormed refuses (30_encoding.md R82, R85, R87, R90) -/

theorem test_wf_prepare_256 : (Instr.prepare 256 0#32 0#32).wellFormed = false := by decide
theorem test_wf_prepare_255 : (Instr.prepare 255 0#32 0#32).wellFormed = true := by decide
theorem test_wf_line_prepare : lineWellFormed (.prepare 256 (.raw 0#32) (.raw 0#32)) = false := by decide
theorem test_wf_line_rds : lineWellFormed (.rds 65536) = false := by decide
theorem test_wf_line_pset : lineWellFormed (.pset 7 (.raw 0#32)) = false := by decide
theorem test_wf_line_rdcoef_channel : lineWellFormed (.rdcoef 2 0 0) = false := by decide
theorem test_wf_line_rdcoef_stage : lineWellFormed (.rdcoef 0 9 0) = false := by decide
theorem test_wf_line_rdcoef_register : lineWellFormed (.rdcoef 0 0 8) = false := by decide
theorem test_wf_line_rdsnap : lineWellFormed (.rdsnap 7) = false := by decide
theorem test_wf_operand_decimal : operandWellFormed (.decimal false 1 0) = false := by decide
theorem test_wf_operand_integer : operandWellFormed (.integer 4294967296) = false := by decide
theorem test_wf_line_frame : lineWellFormed (.frame (.decimal false 1 0) (.raw 0#32)) = false := by decide
theorem test_wf_line_block : lineWellFormed (.block [(.raw 0#32, .integer 4294967296)]) = false := by decide
theorem test_wf_line_start : lineWellFormed (.start (.decimal true 1 0)) = false := by decide

/-! ### Decoding, one word per constructor written out (30_encoding.md R81 to R87; 95_test_vectors.md 2.8) -/

theorem test_decode_nop : decode (.command 0x00000000FFFFFFFF00000001#96) = .instr .nop := by decide
theorem test_decode_prepare :
    decode (.command 0x01020000473B800000000200#96) = .instr (.prepare 2 0x473B8000#32 0x00000200#32) := by decide
theorem test_decode_update : decode (.command 0x020000001234567889ABCDEF#96) = .instr .update := by decide
theorem test_decode_frame :
    decode (.command 0x030000003F80000080000000#96) = .instr (.frame 0x3F800000#32 0x80000000#32) := by decide
theorem test_decode_rds : decode (.command 0x04001050DEADBEEF00000000#96) = .instr (.rds 0x1050#16) := by decide
theorem test_decode_pset_hp_freq : decode (.parameter 0x042C80000#35) = .instr (.psetHpFreq 0x42C80000#32) := by decide
theorem test_decode_pset_lp_freq : decode (.parameter 0x146AC4400#35) = .instr (.psetLpFreq 0x46AC4400#32) := by decide
theorem test_decode_pset_bell_freq : decode (.parameter 0x2447A0000#35) = .instr (.psetBellFreq 0x447A0000#32) := by
  decide
theorem test_decode_pset_bell_gain : decode (.parameter 0x340C00000#35) = .instr (.psetBellGain 0x40C00000#32) := by
  decide
theorem test_decode_pset_bell_q : decode (.parameter 0x43F800000#35) = .instr (.psetBellQ 0x3F800000#32) := by decide
theorem test_decode_pset_hp_order : decode (.parameter 0x500000004#35) = .instr (.psetHpOrder 0x00000004#32) := by
  decide
theorem test_decode_pset_lp_order : decode (.parameter 0x6FFFFFFFF#35) = .instr (.psetLpOrder 0xFFFFFFFF#32) := by
  decide

/-- The illegal beats of 95_test_vectors.md 2.8. -/
theorem test_decode_illegal :
    [decode (.command 0x050000000000000000000000#96), decode (.command 0xFF0000000000000000000000#96),
      decode (.command 0x000100000000000000000000#96), decode (.command 0x020000010000000000000000#96),
      decode (.command 0x030200000000000000000000#96), decode (.command 0x010200010000000000000000#96),
      decode (.command 0x040100000000000000000000#96), decode (.parameter 0x700000000#35)] =
      [.rejected .reservedOpcode, .rejected .reservedOpcode, .rejected .channelField, .rejected .selectorField,
        .rejected .channelField, .rejected .selectorField, .rejected .channelField, .rejected .reservedCell] := by decide

/-- The table numbers bit 0 as the least significant bit of the first word, `HDR`. -/
theorem test_table_word : decodeTableWord 96 (0x03000000 + 0x3F800000 * 2 ^ 32 + 0x40000000 * 2 ^ 64) =
    some (.frame 0x3F800000#32 0x40000000#32) := by decide +kernel
theorem test_table_word_parameter : decodeTableWord 40 0x340C00000 = some (.psetBellGain 0x40C00000#32) := by
  decide +kernel
theorem test_fetch_word : answer (stepped (State.reset.withFetchWord 32 0x04001000)) = [0#32, 0x3F800000#32, 0#32] := by
  decide +kernel

/-- Numeric operands (R90): `f:44100.0`, `f:0.1`, `f:-48000.0` (95_test_vectors.md 2.1, 2.10). -/
theorem test_operands :
    [operandWord (.decimal false 441000 10), operandWord (.decimal false 1 10), operandWord (.decimal true 48000 1),
      operandWord (.integer 512)] = [0x472C4400#32, 0x3DCCCCCD#32, 0xC73B8000#32, 0x00000200#32] := by decide +kernel

/-- P2 line 5 and a comment, `PSET HP_ORDER, 4 ; c`, then P3 line 9, `NOP`. -/
theorem test_text :
    assembleText ['P', 'S', 'E', 'T', ' ', 'H', 'P', '_', 'O', 'R', 'D', 'E', 'R', ',', ' ', '4', ' ', ';', ' ', 'c',
        Char.ofNat 10, 'N', 'O', 'P'] =
      some [.parameter 0x500000004#35, .command 0#96] := by decide +kernel

/-! ### Arithmetic (95_test_vectors.md 2.1) -/

theorem test_fadd : [F32.add 0 0x3F800000#32 0x33800000#32, F32.add 0 0x3F800001#32 0x33800000#32,
    F32.add 0 0x3DCCCCCD#32 0x3E4CCCCD#32, F32.add 0 0x80000000#32 0x00000000#32] =
    [0x3F800000#32, 0x3F800002#32, 0x3E99999A#32, 0x00000000#32] := by decide +kernel
theorem test_fmul : [F32.mul 0 0x3F800001#32 0x3F800001#32, F32.mul 0 0x00800000#32 0x3F000000#32,
    F32.mul 0 0x00000003#32 0x3F000000#32, F32.mul 0 0x00000001#32 0x3F000000#32,
    F32.mul 0 0x7F7FFFFF#32 0x40000000#32] =
    [0x3F800002#32, 0x00400000#32, 0x00000002#32, 0x00000000#32, 0x7F800000#32] := by decide +kernel
theorem test_fdiv : F32.div 0 0x3F800000#32 0x40400000#32 = 0x3EAAAAAB#32 := by decide +kernel
theorem test_flt : [F32.lt 0x46AC4200#32 0x46AC4400#32, F32.lt 0x46AC4400#32 0x46AC4400#32,
    F32.lt 0x7FC00000#32 0x3F800000#32, F32.lt 0x00000000#32 0x80000000#32] = [true, false, false, false] := by
  decide +kernel

/-- Overflow keeps the sign; subtraction of infinities; an infinite divisor (40_numerics.md R102, R104). -/
theorem test_infinities : [F32.add 0 0xFF7FFFFF#32 0xFF7FFFFF#32, F32.sub 0 0x3F800000#32 0x7F800000#32,
    F32.sub 0 0xFF800000#32 0x7F800000#32, F32.div 0 0xBF800000#32 0x7F800000#32] =
    [0xFF800000#32, 0xFF800000#32, 0xFF800000#32, 0x80000000#32] := by decide +kernel

/-! ### Elementary functions and coefficients (95_test_vectors.md 2.2, 2.4, 2.5) -/

theorem test_tanpi : [Elem.reference.tanpi 0x3E800000#32, Elem.reference.tanpi 0x3EFFFFFF#32,
    Elem.reference.tanpi 0x3EE83315#32] = [0x3F800000#32, 0x4B22F983#32, 0x40D98FB8#32] := by decide +kernel
theorem test_cos_sin : [Elem.reference.cos2pi 0x3C800000#32, Elem.reference.sin2pi 0x3C800000#32,
    Elem.reference.sin2pi 0x3E800000#32] = [0x3F7EC46D#32, 0x3DC8BD36#32, 0x3F800000#32] := by decide +kernel
theorem test_db40 : [Elem.reference.db40 0x80000000#32, Elem.reference.db40 0x40C00000#32,
    Elem.reference.db40 0xC1400000#32, Elem.reference.db40 0x41C00000#32] =
    [0x3F800000#32, 0x3FB4CE08#32, 0x3F004DCE#32, 0x407EC9E1#32] := by decide +kernel
theorem test_bell_coef :
    words (bellCoef (f32 Elem.reference) 0 0x473B8000#32 0x447A0000#32 0x3F800000#32 0x40C00000#32) =
      [0x3F85A041#32, 0xBFF299DE#32, 0x3F5E230C#32, 0xBFF299DE#32, 0x3F69638E#32] := by decide +kernel
theorem test_bw_coef :
    (bwCoef (f32 Elem.reference) 0 .lp 0x447A0000#32 0x473B8000#32 2).map words =
      [[0x3B7A2AC2#32, 0x3BFA2AC2#32, 0x3B7A2AC2#32, 0xBFE27F1E#32, 0x3F48E6E8#32],
        [0x3B857FC4#32, 0x3C057FC4#32, 0x3B857FC4#32, 0xBFF1BC33#32, 0x3F67A465#32]] := by decide +kernel
theorem test_bw_coef_hp :
    (bwCoef (f32 Elem.reference) 0 .hp 0x42C80000#32 0x472C4400#32 1).map words =
      [[0x3F7D6F11#32, 0xBFFD6F11#32, 0x3F7D6F11#32, 0xBFFD6BC7#32, 0x3F7AE4B8#32]] := by decide +kernel

/-! ### The datapath (95_test_vectors.md 2.6, 2.7) -/

theorem test_stage_step :
    stageStep (f32 Elem.reference) 0 (fresh (coef 0x3F85A041#32 0xBFF299DE#32 0x3F5E230C#32 0xBFF299DE#32 0x3F69638E#32))
        0x3F800000#32 =
      (0x3F85A041#32, { fresh (coef 0x3F85A041#32 0xBFF299DE#32 0x3F5E230C#32 0xBFF299DE#32 0x3F69638E#32) with
        z1 := 0x3DAA9BE0#32, z2 := 0xBDAC14C8#32 }) := by decide +kernel
theorem test_stage_step_minus_zero :
    stageStep (f32 Elem.reference) 0 identityStage 0x80000000#32 =
      (0x00000000#32, { identityStage with z2 := 0x80000000#32 }) := by decide +kernel
theorem test_bank_cfg :
    let b := bankConfig (f32 Elem.reference) .hold [coef 1#32 2#32 3#32 4#32 5#32, coef 6#32 7#32 8#32 9#32 10#32] 2
      (oneSection (coef 11#32 12#32 13#32 14#32 15#32))
    ([words b.s0.bq.coef, words b.s1.bq.coef, words b.s2.bq.coef], b.flags) =
      ([[1#32, 2#32, 3#32, 4#32, 5#32], [6#32, 7#32, 8#32, 9#32, 10#32], [0x3F800000#32, 0#32, 0#32, 0#32, 0#32]],
        0b1100#4) := by decide +kernel

/-- ADVANCE and RESET on a bypassed section (42_stage_bank_chain.md R143). -/
theorem test_bypass_policies :
    ((stageMux (f32 Elem.reference) .advance 0
          { bq := fresh (coef 0x3F000000#32 0x3E800000#32 0x3E000000#32 0xBF000000#32 0x3E800000#32), byp := true }
          0x3F800000#32).2.bq.z1,
      (configSection (f32 Elem.reference) .reset [] 1 1 { bq := { identityStage with z1 := 7#32 }, byp := false }).bq.z1) =
      (0x3F000000#32, 0x00000000#32) := by decide +kernel

/-! ### Commands (95_test_vectors.md 2.8 to 2.10 and section 3) -/

/-- P1, step 1: the coefficients PREPARE writes. -/
theorem test_prepare_p1 :
    let t := after (.prepare 2 0x473B8000#32 0x00000200#32) State.reset
    (t.left, t.right, t.snap, answer t) = (p1.left, p1.right, defaultCells, [0x00000100#32, 0#32, 0#32]) := by
  decide +kernel
theorem test_prepare_faults :
    [answer (after (.prepare 1 0#32 0#32) State.reset), answer (after (.prepare 2 0x80000000#32 0#32) State.reset),
      answer (after (.prepare 2 0x471C4000#32 0#32) State.reset)] =
      [[0x303#32, 0#32, 0#32], [0x304#32, 0#32, 0#32], [0x306#32, 0#32, 0#32]] := by decide +kernel

/-- P1, step 2. -/
theorem test_frame_p1 :
    let t := after (.frame 0x3F800000#32 0#32) p1
    (answer t, t.phase) = ([0x00000200#32, 0x3F3022D2#32, 0x00000000#32], .running) := by decide +kernel
theorem test_frame_uninit : answer (after (.frame 0#32 0#32) State.reset) = [0x302#32, 0#32, 0#32] := by decide +kernel

/-- An order change rewrites the enabled section and its flags, never a delay register. -/
theorem test_update_order :
    let t := after .update (withCells 0x473B8000#32 { defaultCells with lpOrder := 2#32, lpFreq := 0x447A0000#32 })
    (words t.right.lp.s1.bq.coef, t.right.lp.flags, answer t) =
      ([0x3B857FC4#32, 0x3C057FC4#32, 0x3B857FC4#32, 0xBFF1BC33#32, 0x3F67A465#32], 0b1100#4,
        [0x00000100#32, 0#32, 0#32]) := by decide +kernel

/-- The priorities of 2.10: order before Nyquist, positivity before Nyquist. -/
theorem test_update_faults :
    [answer (after .update (withCells 0x472C4400#32 { defaultCells with hpOrder := 9#32, lpFreq := 0x46EA6000#32 })),
      answer (after .update (withCells 0x472C4400#32 { defaultCells with bellQ := 0#32, lpFreq := 0x46EA6000#32 })),
      answer (after .update (withCells 0x472C4400#32 { defaultCells with lpFreq := 0x46AC4400#32 }))] =
      [[0x305#32, 0#32, 0#32], [0x307#32, 0#32, 0#32], [0x306#32, 0#32, 0#32]] := by decide +kernel

/-- 2.9, and the unmapped selectors of 2.8. -/
theorem test_rds_reset :
    ([0x0000#16, 0x0001#16, 0x0016#16, 0x1000#16, 0x1007#16, 0x1047#16, 0x1187#16].map fun sel =>
        answer (after (.rds sel) State.reset)) =
      [[0#32, 0#32, 0#32], [0#32, 0#32, 0#32], [0#32, 0#32, 0#32], [0#32, 0x3F800000#32, 0#32], [0#32, 1#32, 0#32],
        [0#32, 0#32, 0#32], [0#32, 1#32, 0#32]] := by decide +kernel
theorem test_rds_unmapped :
    ([0x0002#16, 0x0017#16, 0x1090#16, 0x1048#16, 0x1200#16].map fun sel => answer (after (.rds sel) State.reset)) =
      List.replicate 5 [0x301#32, 0#32, 0#32] := by decide +kernel
theorem test_nop_running : answer (after .nop { p1 with phase := .running }) = [0x200#32, 0#32, 0#32] := by decide

/-- P3, steps 5 to 9: the first code for ever, while PSET still writes. -/
theorem test_faulted :
    ([Instr.nop, .frame 0x3F800000#32 0x3F800000#32, .rds 0x1050#16].map fun i => answer (after i faulted)) =
        List.replicate 3 [0x306#32, 0#32, 0#32] ∧
      (after (.psetLpFreq 0x469C4000#32) faulted).cells.lpFreq = 0x469C4000#32 := by decide

/-- P4: cell 3 read after the second PSET, cell 2 before the first (20_memory.md R72). -/
theorem test_torn_snapshot :
    let s := { State.reset with
      psTurns := [[.read .bellFreq, .pset .bellFreq 0x447A0000#32, .pset .bellGain 0x40C00000#32, .read .bellGain]] }
    (s.snapRead.snapBuf.bellFreq, s.snapRead.snapBuf.bellGain, s.snapRead.cells.bellFreq) =
      (0x443B8000#32, 0x40C00000#32, 0x447A0000#32) := by decide

theorem test_rst : (stepped { faulted with inputs := [.rst] }).phase = .uninit := by decide
theorem test_reserved_cell_dropped :
    stepped { State.reset with inputs := [.beat (.parameter 0x700000001#35)] } = State.reset := by decide +kernel

/-- A run has ended with a parameter beat left; an RST behind a faulting UPDATE is no part of the run (43_commands.md
R172). -/
theorem test_run_ends :
    runEnded { State.reset with inputs := [.beat (.parameter 0#35)] } = true ∧
      (finalState { State.reset with inputs := [.beat (.command 0x020000000000000000000000#96), .rst] }).phase = .faulted := by
  decide +kernel

/-- PSETs, NOP and RDS before PREPARE and in a block; a FRAME or a second PREPARE out of place (43_commands.md R170;
70_reset_and_hazards.md R202). -/
theorem test_streams :
    [wellFormedStream [.psetHpFreq 0#32, .nop, .rds 0#16, .prepare 2 0#32 0#32, .frame 0#32 0#32, .update, .rds 0#16],
      wellFormedStream [.frame 0#32 0#32, .prepare 2 0#32 0#32], wellFormedStream [.prepare 1 0#32 0#32],
      wellFormedStream [.prepare 2 0#32 0#32, .prepare 2 0#32 0#32]] = [true, false, false, false] := by decide

/-- A model under REAL refuses a NaN sample (40_numerics.md R113). -/
theorem test_real_refuses (c : Chain ℝ) : realFrame? .hold c 0x7FC00000#32 = none := realFrame?_eq_none _ _ (by decide)

/-! ### The statements' hypotheses can be met -/

theorem test_meets_rst :
    ({ p1 with inputs := [.rst] } : State).inputs = .rst :: [] ∧
      step { p1 with inputs := [.rst] } = .next (stepped { p1 with inputs := [.rst] }) := ⟨rfl, rfl⟩
theorem test_meets_idle : State.reset.inputs = [] := rfl
theorem test_meets_step_runs :
    ({ p1 with inputs := [.beat (.command 0#96)] } : State).inputs = .beat (.command 0#96) :: [] ∧
      decode (.command 0#96) = .instr .nop := by decide

/-- One illegal beat per clause, at the border: opcode 5, a channel field of 1, a selector of 1. -/
theorem test_meets_illegal :
    State.reset.phase ≠ .faulted ∧ 5 ≤ (opOf (hdrOf 0x050000000000000000000000#96)).toNat ∧
      (nOf (hdrOf 0x000100000000000000000000#96) ≠ 0#8 ∧ opOf (hdrOf 0x000100000000000000000000#96) ≠ 0x01#8) ∧
      (selOf (hdrOf 0x030000010000000000000000#96) ≠ 0#16 ∧ opOf (hdrOf 0x030000010000000000000000#96) ≠ 0x04#8) ∧
      kOf 0x700000000#35 = 7#3 ∧ (0 : Nat) ≠ 2 ∧ (3 : Nat) ≠ 2 := by decide

theorem test_meets_unmapped : ¬ MappedSelector 0x1048#16 := by
  rintro (h | h | ⟨k, h⟩ | ⟨c, s, r, h⟩)
  · exact absurd h (by decide)
  · exact absurd h (by decide)
  · revert h; cases k <;> decide
  · revert h; revert s; cases c <;> cases r <;> decide

theorem test_meets_decode_of_encode : (Instr.prepare 255 0x473B8000#32 0#32).WellFormed := by decide
theorem test_meets_encode_of_decode : decode (.command 0x0000000012345678FFFFFFFF#96) = .instr .nop := by decide

/-- A header for each row of the match and mask table, and one for none. -/
theorem test_meets_match_mask :
    (0x00000000#32 &&& 0xFFFFFFFF#32 = 0x00000000#32) ∧ (0x01FF0000#32 &&& 0xFF00FFFF#32 = 0x01000000#32) ∧
      (0x02000000#32 &&& 0xFFFFFFFF#32 = 0x02000000#32) ∧ (0x03000000#32 &&& 0xFFFFFFFF#32 = 0x03000000#32) ∧
      (0x0400FFFF#32 &&& 0xFFFF0000#32 = 0x04000000#32) ∧
      matchMaskRows.countP (fun r => 0x04010000#32 &&& r.2 == r.1) = 0 := by decide

theorem test_meets_beats_as_numbers : (255 : Nat) < 256 ∧ psetInstr 6 0xFFFFFFFF#32 = [.psetLpOrder 0xFFFFFFFF#32] := by
  decide
theorem test_meets_lines :
    lineWellFormed (.block [(.decimal false 1 2, .raw 0x80000000#32)]) = true ∧ (255 : Nat) < 256 ∧ (65535 : Nat) < 2 ^ 16 ∧
      (6 : Nat) < 7 ∧ (4294967295 : Nat) < 2 ^ 32 ∧ (10 : Nat) ≠ 0 := by decide

/-- `FRAME f:0.5, 0x80000000` and `PSET 6, 4` as beats (30_encoding.md R90). -/
theorem test_plain_lines :
    assemble [.frame (.decimal false 1 2) (.raw 0x80000000#32), .pset 6 (.integer 4)] =
      [.command 0x030000003F00000080000000#96, .parameter 0x600000004#35] := by decide +kernel

theorem test_meets_not_faulted : p1.phase ≠ .faulted ∧ p1.phase ≠ .uninit ∧ (p1.phase = .prepared ∨ p1.phase = .running) := by
  decide
theorem test_meets_faulted :
    faulted.phase = .faulted ∧ isCommand (.frame 0#32 0#32) = true ∧
      psetInstr (cellIndex .bellQ).val 5#32 = [.psetBellQ 5#32] ∧
      ({ faulted with inputs := [.beat (.command 0xFF0000000000000000000000#96)] } : State).inputs.head? ≠ some .rst := by
  decide
theorem test_meets_parameter_beat :
    ({ p1 with inputs := [.beat (.parameter 0x6FFFFFFFF#35)] } : State).inputs =
      .beat (.parameter (BitVec.ofNat 35 ((cellIndex .lpOrder).val * 2 ^ 32 + (0xFFFFFFFF#32 : Word).toNat))) :: [] := by
  decide
theorem test_meets_parameter_reserved :
    ({ p1 with inputs := [.beat (.parameter 0x700000000#35)] } : State).inputs =
      .beat (.parameter (BitVec.ofNat 35 (7 * 2 ^ 32 + (0#32 : Word).toNat))) :: [] := by
  decide

/-- 48000 Hz is positive; −0.0, an infinity and a NaN are not. -/
theorem test_meets_positive :
    Positive 0x473B8000#32 ∧ ¬ Positive 0x80000000#32 ∧ ¬ Positive 0x7F800000#32 ∧ ¬ Positive 0x7FC00000#32 := by
  unfold Positive
  decide +kernel

/-- The orders' borders: 1 and 4 legal, 0 and 5 not. -/
theorem test_meets_orders :
    OrdersLegal { defaultCells with hpOrder := 4#32 } ∧ ¬ OrdersLegal { defaultCells with hpOrder := 0#32 } ∧
      ¬ OrdersLegal { defaultCells with lpOrder := 5#32 } := by
  unfold OrdersLegal
  decide

theorem test_meets_params :
    ParamsLegal State.reset.snapRead.snapBuf ∧ ¬ ParamsLegal { defaultCells with hpFreq := 0x80000000#32 } ∧
      ¬ ParamsLegal { defaultCells with bellGain := 0x7F800000#32 } := by
  unfold ParamsLegal Positive
  decide +kernel

/-- 20000 Hz is below half of 48000 Hz, and not below half of 40000 Hz (2.10). -/
theorem test_meets_nyquist :
    BelowNyquist State.reset.snapRead.snapBuf 0x473B8000#32 ∧ ¬ BelowNyquist State.reset.snapRead.snapBuf 0x471C4000#32 := by
  unfold BelowNyquist
  decide +kernel

theorem test_meets_prepare_completes :
    State.reset.phase ≠ .faulted ∧ Positive 0x473B8000#32 ∧ OrdersLegal State.reset.snapRead.snapBuf ∧
      ParamsLegal State.reset.snapRead.snapBuf ∧ BelowNyquist State.reset.snapRead.snapBuf 0x473B8000#32 := by
  unfold OrdersLegal ParamsLegal BelowNyquist Positive
  decide +kernel

/-- One state for each fault of PREPARE: a layout of 3, a rate of −0.0, an order of 5, a frequency of −0.0, a rate of
40000 Hz with the reset cells. -/
theorem test_meets_prepare_faults :
    State.reset.phase ≠ .faulted ∧ (3 : Nat) ≠ 2 ∧ ¬ Positive 0x80000000#32 ∧ Positive 0x471C4000#32 ∧
      ¬ OrdersLegal ({ State.reset with cells := { defaultCells with lpOrder := 5#32 } } : State).snapRead.snapBuf ∧
      (OrdersLegal ({ State.reset with cells := { defaultCells with hpFreq := 0x80000000#32 } } : State).snapRead.snapBuf ∧
        ¬ ParamsLegal ({ State.reset with cells := { defaultCells with hpFreq := 0x80000000#32 } } : State).snapRead.snapBuf) ∧
      OrdersLegal State.reset.snapRead.snapBuf ∧ ParamsLegal State.reset.snapRead.snapBuf ∧
      ¬ BelowNyquist State.reset.snapRead.snapBuf 0x471C4000#32 := by
  unfold OrdersLegal ParamsLegal BelowNyquist Positive
  decide +kernel

/-- The rate's invariant in a prepared state. -/
theorem test_meets_rate_recorded : RateRecorded p1 := by
  refine ⟨fun _ => rfl, by decide, ?_⟩
  intro f h
  have : f = 0x473B8000#32 := (Option.some.inj h).symm
  subst this
  decide +kernel

theorem test_meets_update_completes :
    RateRecorded p1 ∧ (p1.phase = .prepared ∨ p1.phase = .running) ∧ p1.fs = some 0x473B8000#32 ∧
      OrdersLegal p1.snapRead.snapBuf ∧ ParamsLegal p1.snapRead.snapBuf ∧
      BelowNyquist p1.snapRead.snapBuf 0x473B8000#32 := by
  refine ⟨test_meets_rate_recorded, ?_⟩
  unfold OrdersLegal ParamsLegal BelowNyquist Positive
  decide +kernel

/-- The first three clauses of the faults of UPDATE: in UNINIT, with an order of 0, with a quality of 0, above Nyquist. -/
theorem test_meets_update_faults :
    State.reset.phase = .uninit ∧
      ¬ OrdersLegal (withCells 0x472C4400#32 { defaultCells with hpOrder := 0#32 }).snapRead.snapBuf ∧
      (OrdersLegal (withCells 0x472C4400#32 { defaultCells with bellQ := 0#32 }).snapRead.snapBuf ∧
        ¬ ParamsLegal (withCells 0x472C4400#32 { defaultCells with bellQ := 0#32 }).snapRead.snapBuf) ∧
      OrdersLegal (withCells 0x472C4400#32 { defaultCells with lpFreq := 0x46AC4400#32 }).snapRead.snapBuf ∧
      ParamsLegal (withCells 0x472C4400#32 { defaultCells with lpFreq := 0x46AC4400#32 }).snapRead.snapBuf ∧
      ¬ BelowNyquist (withCells 0x472C4400#32 { defaultCells with lpFreq := 0x46AC4400#32 }).snapRead.snapBuf
        0x472C4400#32 := by
  unfold OrdersLegal ParamsLegal BelowNyquist Positive
  decide +kernel

/-- After an UPDATE of program P1's state no coefficient is a NaN. -/
theorem test_meets_update_twice :
    p1.psTurns = [] ∧ exec .update p1 = .next (after .update p1) ∧ (after .update p1).phase ≠ .faulted ∧
      (∀ (c : Chan) (i : Fin 9), ((after .update p1).chain c).bypassed i = false →
        CoefNoNaN (((after .update p1).chain c).stage i).coef) ∧
      exec .update (after .update p1) = .next (after .update (after .update p1)) := by
  refine ⟨rfl, rfl, by decide +kernel, ?_, rfl⟩
  intro c
  unfold CoefNoNaN
  cases c <;> decide +kernel

theorem test_meets_frame :
    (p1.phase = .prepared ∨ p1.phase = .running) ∧
      exec (.frame 1#32 2#32) p1 = .next (after (.frame 1#32 2#32) p1) ∧
      exec (.frame 1#32 3#32) { p1 with right := resetChain } =
        .next (after (.frame 1#32 3#32) { p1 with right := resetChain }) ∧
      exec (.frame 3#32 2#32) { p1 with left := resetChain } =
        .next (after (.frame 3#32 2#32) { p1 with left := resetChain }) :=
  ⟨.inl rfl, rfl, rfl, rfl⟩

theorem test_meets_selector_decode : (1 : Nat) ≤ 1 ∧ (1 : Nat) ≤ 4 ∧ (4 : Nat) ≤ 4 := by decide
theorem test_meets_selector_reset : (3 : Nat) ≤ 3 := by decide
theorem test_meets_quiet : p1.psTurns.headD [] = [] := rfl

/-- The invariants in a state a run reaches, with an event that steps it on. -/
theorem test_meets_stereo : StereoSymmetric waiting ∧ step waiting = .next (stepped waiting) := ⟨fun _ => ⟨rfl, rfl⟩, rfl⟩
theorem test_meets_selector_decoded : SelectorDecoded waiting ∧ step waiting = .next (stepped waiting) := by
  refine ⟨⟨fun _ => ⟨by decide, by decide, ?_⟩, fun h => absurd h (by decide)⟩, rfl⟩
  intro c
  cases c <;> (unfold ChainThermometer Thermometer; decide)
theorem test_meets_rate : RateRecorded waiting ∧ step waiting = .next (stepped waiting) :=
  ⟨test_meets_rate_recorded, rfl⟩
theorem test_meets_err :
    ErrMatchesPhase waiting ∧ ErrMatchesPhase faulted ∧ step waiting = .next (stepped waiting) ∧
      exec .nop waiting = .next (after .nop waiting) := by
  refine ⟨?_, ?_, rfl, rfl⟩ <;> (unfold ErrMatchesPhase; decide)
theorem test_meets_hidden : HiddenEmpty waiting ∧ step waiting = .next (stepped waiting) := ⟨⟨rfl, rfl⟩, rfl⟩
theorem test_meets_run : HiddenEmpty waiting ∧ ([Input.rst].map inputAdvance).sum = 0 := ⟨⟨rfl, rfl⟩, rfl⟩
theorem test_meets_answered : AnsweredEach waiting ∧ step waiting = .next (stepped waiting) := ⟨rfl, rfl⟩

/-- A command that faults from a phase that is not FAULTED. -/
theorem test_meets_fault :
    isCommand .update = true ∧ State.reset.phase ≠ .faulted ∧ exec .update State.reset = .next (after .update State.reset) ∧
      (after .update State.reset).phase = .faulted :=
  ⟨rfl, by decide, rfl, by decide⟩

theorem test_meets_finite :
    F32.isFinite 0x3F800000#32 = true ∧ F32.isFinite 0x80000000#32 = true ∧ F32.val 0x3F800000#32 ≠ 0 ∧
      F32.isNaN (F32.mul 0 0x80000000#32 0x3F800000#32) = false ∧ F32.isNaN (F32.div 0 0x80000000#32 0x3F800000#32) = false ∧
      F32.mag 0x3F800000#32 ≠ 0 ∧ F32.mag 0x80000000#32 = 0 := by decide +kernel

/-- The ends of the range column: 0, −0.0 and 1/2 − 2^-25 inside, 1/2 outside (40_numerics.md R110). -/
theorem test_meets_elem_range :
    [0x00000000#32, 0x80000000#32, 0x3EFFFFFF#32, 0x3F000000#32].map Elem.inHalf = [true, true, true, false] ∧
      F32.isFinite 0xC1C00000#32 = true := by decide +kernel

/-- The premises of E-ACC for an argument of the range column. -/
def TrigInBounds (w : Word) : Prop :=
  InBounds 0 0x7F7FFFFF (Elem.tanIdeal w) ∧ InBounds 0 0x7F7FFFFF (Elem.sinIdeal w) ∧
    InBounds 0 0x3F800000 (Elem.cosIdeal w)

/-- Both ends of the range column and 1/4; −24, −0 and 24 dB. -/
theorem test_meets_accuracy_trig :
    TrigInBounds 0x00000000#32 ∧ TrigInBounds 0x80000000#32 ∧ TrigInBounds 0x3E800000#32 ∧ TrigInBounds 0x3EFFFFFF#32 := by
  unfold TrigInBounds InBounds
  decide +kernel
theorem test_meets_accuracy_gain :
    InBounds 1 0x7F7FFFFF (Elem.dbIdeal 0xC1C00000#32) ∧ InBounds 1 0x7F7FFFFF (Elem.dbIdeal 0x80000000#32) ∧
      InBounds 1 0x7F7FFFFF (Elem.dbIdeal 0x41C00000#32) := by
  unfold InBounds
  decide +kernel

/-- DB40(40) = 10 and DB40(-40) = 0.1, exact before one rounding; beyond the range of binary32 the ends of E-FINITE, also at
the largest gains (40_numerics.md R110 to R112). -/
theorem test_db40_ends : [Elem.reference.db40 0x42200000#32, Elem.reference.db40 0xC2200000#32,
    Elem.reference.db40 0x44FA0000#32, Elem.reference.db40 0xC4FA0000#32, Elem.reference.db40 0x7F7FFFFF#32,
    Elem.reference.db40 0xFF7FFFFF#32] =
    [0x41200000#32, 0x3DCCCCCD#32, 0x7F7FFFFF#32, 0x00000001#32, 0x7F7FFFFF#32, 0x00000001#32] := by decide +kernel

/-- At −2000 dB and at the most negative gain only 2^-149 is positive and within one unit (R111, E-ACC). -/
theorem test_within_tiny : [Elem.within (1, 1) 0x00000001#32 (Elem.dbIdeal 0xC4FA0000#32),
    Elem.within (1, 1) 0x00000002#32 (Elem.dbIdeal 0xC4FA0000#32),
    Elem.within (1, 1) 0x00000001#32 (Elem.dbIdeal 0xFF7FFFFF#32),
    Elem.within (1, 1) 0x00000002#32 (Elem.dbIdeal 0xFF7FFFFF#32)] = [true, false, true, false] := by decide +kernel

/-- TANPI(0.25) = 1.0 (40_numerics.md R112), so the next word is one unit off, and the one after it two. -/
theorem test_within : [Elem.within (1, 2) 0x3F800000#32 (Elem.tanIdeal 0x3E800000#32),
    Elem.within (1, 2) 0x3F800001#32 (Elem.tanIdeal 0x3E800000#32),
    Elem.within (101, 100) 0x3F800001#32 (Elem.tanIdeal 0x3E800000#32),
    Elem.within (3, 2) 0x3F800002#32 (Elem.tanIdeal 0x3E800000#32)] = [true, false, true, false] := by decide +kernel

theorem test_meets_infinite :
    F32.isInf 0xFF800000#32 = true ∧ F32.isNaN (F32.add 0 0xFF800000#32 0x3F800000#32) = false ∧
      F32.isNaN (F32.sub 0 0xFF800000#32 0x7F800000#32) = false ∧
      F32.isNaN (F32.mul 0 0xFF800000#32 0x7F800000#32) = false ∧
      F32.isNaN (F32.div 0 0x3F800000#32 0xFF800000#32) = false := by decide +kernel

theorem test_meets_generator : (1 : Nat) ≤ 4 ∧ (4 : Nat) ≤ 4 ∧ (qinvF32 4)[3]? = some 0x3EC7C5C2#32 := by decide

/-- 22049 Hz at 44100 Hz passes; 22050 Hz does not (2.10). -/
theorem test_meets_below_half :
    Positive 0x46AC4200#32 ∧ Positive 0x472C4400#32 ∧
      F32.lt 0x46AC4200#32 (F32.mul 0 0x472C4400#32 F32.half) = true ∧
      F32.lt 0x46AC4400#32 (F32.mul 0 0x472C4400#32 F32.half) = false := by
  unfold Positive
  decide +kernel

/-- 48000 Hz, 750 Hz, quality 1, −0.0 dB (2.4). -/
theorem test_meets_unity_bell :
    Positive 0x473B8000#32 ∧ Positive 0x443B8000#32 ∧ Positive 0x3F800000#32 ∧
      F32.lt 0x443B8000#32 (F32.mul 0 0x473B8000#32 F32.half) = true ∧ F32.isFinite 0x80000000#32 = true ∧
      F32.val 0x80000000#32 = 0 ∧
      F32.isFinite (F32.div 2 ((Elem.ofChoice .reference).sin2pi (F32.div 0 0x443B8000#32 0x473B8000#32))
        (F32.mul 1 F32.two 0x3F800000#32)) = true := by
  unfold Positive
  decide +kernel
theorem test_meets_unity_stage :
    let c := coef F32.one 0xC0000000#32 0x3F800000#32 0xC0000000#32 0x3F800000#32
    c.b0 = F32.one ∧ c.b1 = c.a1 ∧ c.b2 = c.a2 ∧ |F32.val c.b1| ≤ 2 ^ 150 ∧ |F32.val c.b2| ≤ 2 ^ 149 ∧
      |F32.val 0xFE800000#32| ≤ 2 ^ 275 := by decide +kernel
theorem test_meets_silence :
    DelaysSilent p1.left ∧ (∀ s : Fin 9, CoefFinite (p1.left.stage s).coef) ∧ F32.mag 0x80000000#32 = 0 := by
  unfold DelaysSilent CoefFinite
  decide +kernel
theorem test_meets_qinv : (1 : Nat) ≤ 4 ∧ (qinvF32 4)[3]? = some 0x3EC7C5C2#32 := by decide

theorem test_meets_real_section : (0 : ℝ) < 1 ∧ (1 : ℝ) < 4 / 2 ∧ ∃ iq : ℝ, iq ∈ qinvReal 4 := by
  refine ⟨by norm_num, by norm_num, ?_⟩
  simp only [qinvReal, Nat.one_le_ofNat, le_refl, and_self, if_true]
  exact ⟨_, List.mem_map_of_mem (List.mem_range.2 (by norm_num : 3 < 4))⟩
theorem test_meets_real_cascade : (0 : ℝ) < 1 ∧ (1 : ℝ) < 8 / 2 ∧ (0 : ℝ) ≤ 0 ∧ (0 : ℝ) < 3 ∧ (3 : ℝ) < 8 / 2 := by norm_num
theorem test_meets_real_bell : (0 : ℝ) < 1000 ∧ (1000 : ℝ) < 48000 / 2 ∧ (0 : ℝ) < 1 := by norm_num

end Sys2Proof.Tests
end

section
/-! The reset table of 10_state.md R38 and the layout of STATUS (R31). -/

namespace Sys2Proof.Machine

/-! ### Reset -/

/-- With RST at the head of the event list the step resets the block (70_reset_and_hazards.md R200). -/
theorem step_of_rst {s : State} {rest : List Input} (h : s.inputs = .rst :: rest) :
    step s = .next s.takeInput.rstBlock := by
  simp [step, State.nextEvent, h]

/-- The start is itself a state RST leaves, so what RST leaves holds at the start too. -/
theorem reset_eq_rstBlock : State.reset = State.reset.rstBlock := rfl

/-- Both ways into a reset state, the start and a step on RST, end in the state `rstBlock` leaves. -/
theorem eq_rstBlock_of_reset_or_step_rst {t : State}
    (h : t = State.reset ∨ ∃ (s : State) (rest : List Input), s.inputs = .rst :: rest ∧ step s = .next t) :
    ∃ s : State, t = s.rstBlock := by
  rcases h with rfl | ⟨s, rest, hrst, hstep⟩
  · exact ⟨_, reset_eq_rstBlock⟩
  · rw [step_of_rst hrst] at hstep
    injection hstep with ht
    exact ⟨_, ht.symm⟩

@[simp] theorem State.rstBlock_chain (s : State) (c : Chan) : s.rstBlock.chain c = resetChain := by
  cases c <;> rfl

@[simp] theorem resetChain_stage (i : Fin 9) : resetChain.stage i = identityStage := by
  revert i; decide

theorem resetChain_bypassed {i : Fin 9} (h : i ≠ 4) : resetChain.bypassed i = true := by
  revert i; decide

/-- Stage 4, the bell, is never bypassed (10_state.md R24). -/
@[simp] theorem Chain.bypassed_bell {α : Type} (c : Chain α) : c.bypassed 4 = false := rfl

@[simp] theorem zeroSnapshot_get (k : Cell) : zeroSnapshot.get k = 0#32 := by
  cases k <;> rfl

/-! ### STATUS -/

section StatusWord

variable (phase : Phase) (err : BitVec 8) (prep : Bool)

/-- STATUS as four fields placed one above the other. -/
theorem statusWord_eq_append :
    statusWord phase err prep = (((if prep then 1#16 else 0#16) ++ err) ++ 0#6) ++ phase.bits := rfl

theorem statusWord_phase : (statusWord phase err prep).extractLsb' 0 2 = phase.bits := by
  rw [statusWord_eq_append, BitVec.extractLsb'_append_eq_of_add_le (by decide), BitVec.extractLsb'_eq_self]

theorem statusWord_low_zeros : (statusWord phase err prep).extractLsb' 2 6 = 0#6 := by
  rw [statusWord_eq_append, BitVec.extractLsb'_append_eq_of_le (by decide),
    BitVec.extractLsb'_append_eq_of_add_le (by decide), BitVec.extractLsb'_eq_self]

theorem statusWord_err : (statusWord phase err prep).extractLsb' 8 8 = err := by
  rw [statusWord_eq_append, BitVec.extractLsb'_append_eq_of_le (by decide),
    BitVec.extractLsb'_append_eq_of_le (by decide), BitVec.extractLsb'_append_eq_of_add_le (by decide),
    BitVec.extractLsb'_eq_self]

/-- What lies above ERR is PREP, zero-extended. -/
theorem statusWord_above_err {start : Nat} (h : 16 ≤ start) (len : Nat) :
    (statusWord phase err prep).extractLsb' start len =
      (if prep then 1#16 else 0#16).extractLsb' (start - 16) len := by
  rw [statusWord_eq_append, BitVec.extractLsb'_append_eq_of_le (by omega),
    BitVec.extractLsb'_append_eq_of_le (by omega), BitVec.extractLsb'_append_eq_of_le (by omega),
    show start - 2 - 6 - 8 = start - 16 by omega]

theorem statusWord_prep : (statusWord phase err prep).getLsbD 16 = prep := by
  have h := congrArg (·.getLsbD 0) (statusWord_above_err phase err prep le_rfl 1)
  cases prep <;> simpa using h

theorem statusWord_high_zeros : (statusWord phase err prep).extractLsb' 17 15 = 0#15 := by
  rw [statusWord_above_err phase err prep (by decide)]
  cases prep <;> rfl

end StatusWord

/-- Outside FAULTED, RDS of a mapped selector answers the word it names and does nothing else (43_commands.md R168). -/
theorem exec_rds_of_mapped {s : State} {sel : BitVec 16} {x : Selected} (hp : s.phase ≠ .faulted)
    (hx : decodeSelector sel = some x) : exec (.rds sel) s = .next (s.respond 0#8 (readSelected s x) 0#32) := by
  rw [exec_eq, execState, State.command_running hp, rdsBody, hx]

/-! ### The statements -/

/-- Settles O15: the selector 0x0000 is STATUS, and the word read has each field of R31 in its place. -/
theorem statusWordLayout : Obligations.StatusWordLayout := by
  intro s hp
  have hread : exec (.rds 0x0000#16) s = .next (s.respond 0#8 (statusWord s.phase s.err s.prep) 0#32) :=
    exec_rds_of_mapped hp (x := .status) rfl
  exact ⟨_, _, _, hread, rfl, statusWord_phase .., statusWord_low_zeros .., statusWord_err ..,
    by rw [statusWord_prep], statusWord_high_zeros ..⟩

/-- Settles O1: the start and the state after RST are both left by `rstBlock`, whose registers are the table's. -/
theorem resetState : Obligations.ResetState := by
  intro t ht
  obtain ⟨s, rfl⟩ := eq_rstBlock_of_reset_or_step_rst ht
  refine ⟨fun c i => ?stages, fun c i hi => ?flags, fun c => Chain.bypassed_bell _, rfl, rfl, zeroSnapshot_get,
    rfl, rfl, rfl, rfl, rfl⟩
  case stages =>
    rw [State.rstBlock_chain, resetChain_stage]
    exact ⟨rfl, rfl, rfl⟩
  case flags =>
    rw [State.rstBlock_chain]
    exact resetChain_bypassed hi

end Sys2Proof.Machine
end

section
/-! The selector map of 20_memory.md R65 and what RDS answers through it (43_commands.md R168). -/

namespace Sys2Proof.Machine

/-! ### The selector map -/

/-- The selector R65 gives each thing RDS can name. -/
def selectorOf : Selected → BitVec 16
  | .status => 0x0000#16
  | .fs => 0x0001#16
  | .snap k => snapSelector k
  | .stage c i r => stageSelector c i r

theorem mappedSelector_iff_selectorOf (sel : BitVec 16) : MappedSelector sel ↔ ∃ x, selectorOf x = sel := by
  constructor
  · rintro (rfl | rfl | ⟨k, rfl⟩ | ⟨c, i, r, rfl⟩)
    · exact ⟨.status, rfl⟩
    · exact ⟨.fs, rfl⟩
    · exact ⟨.snap k, rfl⟩
    · exact ⟨.stage c i r, rfl⟩
  · rintro ⟨x, rfl⟩
    cases x with
    | status => exact .inl rfl
    | fs => exact .inr (.inl rfl)
    | snap k => exact .inr (.inr (.inl ⟨k, rfl⟩))
    | stage c i r => exact .inr (.inr (.inr ⟨c, i, r, rfl⟩))

@[simp] theorem decodeSelector_selectorOf (x : Selected) : decodeSelector (selectorOf x) = some x := by
  cases x with
  | status => rfl
  | fs => rfl
  | snap k => cases k <;> rfl
  | stage c i r =>
    revert i
    cases c <;> cases r <;> decide

theorem cellIndex_of_cellOfNumber {n : Nat} {k : Cell} (h : cellOfNumber n = some k) : (cellIndex k).val = n := by
  obtain ⟨hn, rfl⟩ := List.getElem?_eq_some_iff.1 h
  change n < 7 at hn
  interval_cases n <;> rfl

theorem stageRegNumber_of_stageRegOfNumber {n : Nat} {r : StageReg} (h : stageRegOfNumber n = some r) :
    stageRegNumber r = n := by
  obtain ⟨hn, rfl⟩ := List.getElem?_eq_some_iff.1 h
  change n < 8 at hn
  interval_cases n <;> rfl

/-- The channel a stage selector's bit 8 names has that bit as its number. -/
theorem chanNumber_of_bit (b : BitVec 1) : chanNumber (if b = 1#1 then .right else .left) = b.toNat := by
  revert b; decide

theorem ofNat_eq_of_toNat_eq {w n : Nat} {x : BitVec w} (h : x.toNat = n) : BitVec.ofNat w n = x := by
  rw [← h, BitVec.ofNat_toNat, BitVec.setWidth_eq]

/-- The value of a selector from the twelve-bit prefix and the number of R65's snapshot rows. -/
theorem toNat_eq_prefix_number (sel : BitVec 16) :
    sel.toNat = 0x10 * (sel.extractLsb' 4 12).toNat + (sel.extractLsb' 0 4).toNat := by
  simp only [BitVec.extractLsb'_toNat, Nat.shiftRight_eq_div_pow]
  omega

/-- The value of a selector from the five fields of R65's stage rows. -/
theorem toNat_eq_stage_fields (sel : BitVec 16) :
    sel.toNat = 0x1000 * (sel.extractLsb' 12 4).toNat + 0x200 * (sel.extractLsb' 9 3).toNat +
      0x100 * (sel.extractLsb' 8 1).toNat + 0x10 * (sel.extractLsb' 4 4).toNat + (sel.extractLsb' 0 4).toNat := by
  simp only [BitVec.extractLsb'_toNat, Nat.shiftRight_eq_div_pow]
  omega

theorem selectorOf_of_decodeStageSelector {sel : BitVec 16} {x : Selected} (h : decodeStageSelector sel = some x) :
    selectorOf x = sel := by
  simp only [decodeStageSelector, Option.ite_none_right_eq_some, Option.dite_none_right_eq_some] at h
  obtain ⟨⟨hprefix, hzero⟩, hstage, h⟩ := h
  cases hr : stageRegOfNumber (sel.extractLsb' 0 4).toNat with
  | none => simp only [hr, reduceCtorEq] at h
  | some r =>
    simp only [hr] at h
    obtain rfl := Option.some.inj h
    have hsel := toNat_eq_stage_fields sel
    rw [hprefix, hzero, ← chanNumber_of_bit, ← stageRegNumber_of_stageRegOfNumber hr] at hsel
    exact ofNat_eq_of_toNat_eq hsel

theorem selectorOf_of_decodeSelector {sel : BitVec 16} {x : Selected} (h : decodeSelector sel = some x) :
    selectorOf x = sel := by
  unfold decodeSelector at h
  split_ifs at h with hstatus hfs hsnap
  · obtain rfl := Option.some.inj h
    exact hstatus.symm
  · obtain rfl := Option.some.inj h
    exact hfs.symm
  · obtain ⟨k, hk, rfl⟩ := Option.map_eq_some_iff.1 h
    have hsel := toNat_eq_prefix_number sel
    rw [hsnap, ← cellIndex_of_cellOfNumber hk] at hsel
    exact ofNat_eq_of_toNat_eq hsel
  · exact selectorOf_of_decodeStageSelector h

/-- Outside the map the decoder finds nothing: what it finds has its selector in the map. -/
theorem decodeSelector_eq_none_of_unmapped {sel : BitVec 16} (h : ¬ MappedSelector sel) : decodeSelector sel = none := by
  rw [mappedSelector_iff_selectorOf] at h
  exact Option.eq_none_iff_forall_ne_some.2 fun x hx => h ⟨x, selectorOf_of_decodeSelector hx⟩

/-! ### RDS -/

/-- The ST word of a fault is its code and 3 in the field of PHASE (60_exceptions.md R183). -/
theorem stWord_faulted (code : FaultCode) : stWord code.bits .faulted = code.bits.setWidth 32 + 0x300#32 := by
  cases code <;> decide

/-- The model's fault entry is R183's. -/
theorem State.raise_eq_afterFault (code : FaultCode) (s : State) : s.raise code = afterFault code.bits s := by
  rw [afterFault, ← stWord_faulted]
  rfl

/-- Outside FAULTED, RDS of a selector outside the map faults with ERR_ILLEGAL (43_commands.md R168). -/
theorem exec_rds_of_unmapped {s : State} {sel : BitVec 16} (hp : s.phase ≠ .faulted) (h : ¬ MappedSelector sel) :
    exec (.rds sel) s = .next (afterFault 0x01#8 s) := by
  rw [exec_eq, execState, State.command_running hp, rdsBody, decodeSelector_eq_none_of_unmapped h]
  exact congrArg _ (State.raise_eq_afterFault .illegal s)

/-! ### The statement -/

/-- Settles O14: the decoder and `selectorOf` are inverse to each other, so each selector of the map reads the word it
names and every other one decodes to nothing. -/
theorem rdsReadsTheMap : Obligations.RdsReadsTheMap := by
  intro s hp answer
  have hread (x : Selected) : exec (.rds (selectorOf x)) s = answer (readSelected s x) :=
    exec_rds_of_mapped hp (decodeSelector_selectorOf x)
  exact ⟨hread .status, hread .fs, fun k => hread (.snap k),
    fun c i => ⟨hread (.stage c i .b0), hread (.stage c i .b1), hread (.stage c i .b2), hread (.stage c i .a1),
      hread (.stage c i .a2), hread (.stage c i .z1), hread (.stage c i .z2), hread (.stage c i .byp)⟩,
    fun c => hread (.stage c 4 .byp), fun sel h => exec_rds_of_unmapped hp h⟩

end Sys2Proof.Machine
end

section
/-! The opcode map by the fields of the header (30_encoding.md R83, R87), and what the step does with a beat. -/

namespace Sys2Proof

/-! ### The match and mask table by fields -/

@[simp] theorem opOf_and (x y : Word) : opOf (x &&& y) = opOf x &&& opOf y := BitVec.extractLsb'_and

@[simp] theorem nOf_and (x y : Word) : nOf (x &&& y) = nOf x &&& nOf y := BitVec.extractLsb'_and

@[simp] theorem selOf_and (x y : Word) : selOf (x &&& y) = selOf x &&& selOf y := BitVec.extractLsb'_and

/-- Two headers are equal when their fields are (30_encoding.md R82). -/
theorem header_ext_iff {x y : Word} : x = y ↔ opOf x = opOf y ∧ nOf x = nOf y ∧ selOf x = selOf y := by
  constructor
  · rintro rfl
    exact ⟨rfl, rfl, rfl⟩
  · rintro ⟨hop, hn, hsel⟩
    rw [← header_fields x, ← header_fields y, hop, hn, hsel]

/-- A header matches a row of the table when each of its fields does. -/
theorem and_header_eq_header_iff (hdr : Word) (mop mn pop pn : BitVec 8) (msel psel : BitVec 16) :
    hdr &&& header mop mn msel = header pop pn psel ↔
      opOf hdr &&& mop = pop ∧ nOf hdr &&& mn = pn ∧ selOf hdr &&& msel = psel := by
  simp [header_ext_iff]

/-- The rows of NOP, UPDATE and FRAME fix every field. -/
theorem matches_full_iff (hdr : Word) (op : BitVec 8) :
    hdr &&& 0xFFFFFFFF#32 = header op 0#8 0#16 ↔ opOf hdr = op ∧ nOf hdr = 0#8 ∧ selOf hdr = 0#16 := by
  rw [show 0xFFFFFFFF#32 = header (.allOnes 8) (.allOnes 8) (.allOnes 16) by decide, and_header_eq_header_iff]
  simp only [BitVec.and_allOnes]

/-- The row of PREPARE leaves the channel field free. -/
theorem matches_prepare_iff (hdr : Word) :
    hdr &&& 0xFF00FFFF#32 = 0x01000000#32 ↔ opOf hdr = 0x01#8 ∧ selOf hdr = 0#16 := by
  rw [show 0xFF00FFFF#32 = header (.allOnes 8) 0#8 (.allOnes 16) by decide,
    show 0x01000000#32 = header 0x01#8 0#8 0#16 by decide, and_header_eq_header_iff]
  simp only [BitVec.and_allOnes, BitVec.and_zero, true_and]

/-- The row of RDS leaves the selector free. -/
theorem matches_rds_iff (hdr : Word) :
    hdr &&& 0xFFFF0000#32 = 0x04000000#32 ↔ opOf hdr = 0x04#8 ∧ nOf hdr = 0#8 := by
  rw [show 0xFFFF0000#32 = header (.allOnes 8) (.allOnes 8) 0#16 by decide,
    show 0x04000000#32 = header 0x04#8 0#8 0#16 by decide, and_header_eq_header_iff]
  simp only [BitVec.and_allOnes, BitVec.and_zero, and_true]

/-- Every row fixes the opcode, so a header that matches a row has the row's opcode. -/
theorem opOf_eq_of_matches {hdr : Word} {row : Word × Word} (hrow : row ∈ matchMaskRows) (h : hdr &&& row.2 = row.1) :
    opOf row.1 = opOf hdr := by
  have hmask : ∀ r ∈ matchMaskRows, opOf r.2 = .allOnes 8 := by simp [matchMaskRows, opOf]
  rw [← h, opOf_and, hmask row hrow, BitVec.and_allOnes]

/-- The opcodes of the rows are distinct, so the rows are disjoint. -/
theorem countP_matches_le_one (hdr : Word) : matchMaskRows.countP (fun r => hdr &&& r.2 == r.1) ≤ 1 := by
  have hdistinct : (matchMaskRows.map fun r => opOf r.1).Nodup := by decide
  calc matchMaskRows.countP (fun r => hdr &&& r.2 == r.1)
      ≤ matchMaskRows.countP (fun r => opOf r.1 == opOf hdr) :=
        List.countP_mono_left fun r hr h => by simpa using opOf_eq_of_matches hr (by simpa using h)
    _ = (matchMaskRows.map fun r => opOf r.1).count (opOf hdr) := by rw [List.count, List.countP_map]; rfl
    _ ≤ 1 := List.nodup_iff_count_le_one.1 hdistinct _

/-! ### The headers the decoder accepts -/

/-- The headers of the opcode map, by their fields (30_encoding.md R83). -/
inductive LegalHeader (hdr : Word) : Prop
  | nop (op : opOf hdr = 0x00#8) (n : nOf hdr = 0#8) (sel : selOf hdr = 0#16)
  | prepare (op : opOf hdr = 0x01#8) (sel : selOf hdr = 0#16)
  | update (op : opOf hdr = 0x02#8) (n : nOf hdr = 0#8) (sel : selOf hdr = 0#16)
  | frame (op : opOf hdr = 0x03#8) (n : nOf hdr = 0#8) (sel : selOf hdr = 0#16)
  | rds (op : opOf hdr = 0x04#8) (n : nOf hdr = 0#8)

theorem LegalHeader.exists_matches {hdr : Word} (h : LegalHeader hdr) : ∃ r ∈ matchMaskRows, hdr &&& r.2 = r.1 := by
  cases h with
  | nop op n sel => exact ⟨(0x00000000#32, 0xFFFFFFFF#32), by decide, (matches_full_iff hdr 0x00#8).2 ⟨op, n, sel⟩⟩
  | prepare op sel => exact ⟨(0x01000000#32, 0xFF00FFFF#32), by decide, (matches_prepare_iff hdr).2 ⟨op, sel⟩⟩
  | update op n sel => exact ⟨(0x02000000#32, 0xFFFFFFFF#32), by decide, (matches_full_iff hdr 0x02#8).2 ⟨op, n, sel⟩⟩
  | frame op n sel => exact ⟨(0x03000000#32, 0xFFFFFFFF#32), by decide, (matches_full_iff hdr 0x03#8).2 ⟨op, n, sel⟩⟩
  | rds op n => exact ⟨(0x04000000#32, 0xFFFF0000#32), by decide, (matches_rds_iff hdr).2 ⟨op, n⟩⟩

/-- The illegal command beats of 30_encoding.md R87 have no header of the map. -/
theorem not_legalHeader_of_illegal {hdr : Word}
    (h : 5 ≤ (opOf hdr).toNat ∨ (nOf hdr ≠ 0#8 ∧ opOf hdr ≠ 0x01#8) ∨ (selOf hdr ≠ 0#16 ∧ opOf hdr ≠ 0x04#8)) :
    ¬ LegalHeader hdr := by
  intro hl
  cases hl with
  | nop op n sel => simp [op, n, sel] at h
  | prepare op sel => simp [op, sel] at h
  | update op n sel => simp [op, n, sel] at h
  | frame op n sel => simp [op, n, sel] at h
  | rds op n => simp [op, n] at h

section Accepted

variable {bits : BitVec 96}

theorem decode_command_nop (op : opOf (hdrOf bits) = 0x00#8) (n : nOf (hdrOf bits) = 0#8) (sel : selOf (hdrOf bits) = 0#16) :
    decode (.command bits) = .instr .nop := by
  simp [decode, decodeCommand, op, n, sel]

theorem decode_command_prepare (op : opOf (hdrOf bits) = 0x01#8) (sel : selOf (hdrOf bits) = 0#16) :
    decode (.command bits) = .instr (.prepare (nOf (hdrOf bits)).toNat (aOf bits) (bOf bits)) := by
  simp [decode, decodeCommand, op, sel]

theorem decode_command_update (op : opOf (hdrOf bits) = 0x02#8) (n : nOf (hdrOf bits) = 0#8)
    (sel : selOf (hdrOf bits) = 0#16) : decode (.command bits) = .instr .update := by
  simp [decode, decodeCommand, op, n, sel]

theorem decode_command_frame (op : opOf (hdrOf bits) = 0x03#8) (n : nOf (hdrOf bits) = 0#8)
    (sel : selOf (hdrOf bits) = 0#16) : decode (.command bits) = .instr (.frame (aOf bits) (bOf bits)) := by
  simp [decode, decodeCommand, op, n, sel]

theorem decode_command_rds (op : opOf (hdrOf bits) = 0x04#8) (n : nOf (hdrOf bits) = 0#8) :
    decode (.command bits) = .instr (.rds (selOf (hdrOf bits))) := by
  simp [decode, decodeCommand, op, n]

/-- A command beat with no header of the map is rejected, and not as a parameter beat. -/
theorem decode_command_rejected (h : ¬ LegalHeader (hdrOf bits)) :
    ∃ why, why ≠ .reservedCell ∧ decode (.command bits) = .rejected why := by
  simp only [decode, decodeCommand, ne_eq, ite_not]
  split_ifs with op0 n0 sel0 op1 sel1 op2 n2 sel2 op3 n3 sel3 op4 n4
  any_goals exact ⟨_, by decide, rfl⟩
  · exact absurd (.nop op0 n0 sel0) h
  · exact absurd (.prepare op1 sel1) h
  · exact absurd (.update op2 n2 sel2) h
  · exact absurd (.frame op3 n3 sel3) h
  · exact absurd (.rds op4 n4) h

end Accepted

/-! ### Parameter beats -/

/-- A parameter beat written as a number is its two fields (30_encoding.md R85). -/
theorem parameterBits_ofNat (k : Nat) (v : Word) :
    parameterBits (BitVec.ofNat 3 k) v = BitVec.ofNat 35 (k * 2 ^ 32 + v.toNat) := by
  apply BitVec.eq_of_toNat_eq
  rw [parameterBits, BitVec.toNat_append, ← Nat.shiftLeft_add_eq_or_of_lt v.isLt, Nat.shiftLeft_eq, BitVec.toNat_ofNat,
    BitVec.toNat_ofNat]
  omega

/-- The beat of the reserved cell number decodes to nothing (30_encoding.md R87). -/
theorem decode_parameter_reserved {bits : BitVec 35} (h : kOf bits = 7#3) :
    decode (.parameter bits) = .rejected .reservedCell := by
  simp [decode, decodeParameter, h]

end Sys2Proof
end

section
/-! One step on a beat: the illegal and reserved beats of 30_encoding.md R87, the parameter beats of R85. -/

namespace Sys2Proof.Machine

/-! ### The step on a beat -/

section StepOnBeat

variable {s : State} {rest : List Input}

theorem State.nextEvent_beat {b : Beat} (h : s.inputs = .beat b :: rest) : s.nextEvent = beatEvent b := by
  simp [State.nextEvent, h]

/-- A beat the decoder rejects is illegal, but for the reserved parameter beat (30_encoding.md R87). -/
theorem beatEvent_of_rejected {b : Beat} {why : Rejected} (hb : decode b = .rejected why) (hwhy : why ≠ .reservedCell) :
    beatEvent b = .illegal := by
  rw [beatEvent, hb]
  cases why with
  | reservedCell => exact absurd rfl hwhy
  | reservedOpcode => rfl
  | channelField => rfl
  | selectorField => rfl

/-- A beat that decodes to an instruction runs it (43_commands.md R160). -/
theorem step_of_instr {b : Beat} {i : Instr} (h : s.inputs = .beat b :: rest) (hb : decode b = .instr i) :
    step s = .next (execState i s.takeInput) := by
  simp [step, State.nextEvent_beat h, beatEvent, hb, exec_eq]

/-- A rejected beat that is not the reserved parameter beat takes its fault under the common rule (43_commands.md R160). -/
theorem step_of_rejected {b : Beat} {why : Rejected} (h : s.inputs = .beat b :: rest) (hb : decode b = .rejected why)
    (hwhy : why ≠ .reservedCell) : step s = .next s.takeInput.illegalBeat := by
  simp [step, State.nextEvent_beat h, beatEvent_of_rejected hb hwhy]

/-- Outside FAULTED an illegal beat is the fault ERR_ILLEGAL and nothing else. -/
theorem State.illegalBeat_eq_afterFault (hp : s.phase ≠ .faulted) : s.illegalBeat = afterFault 0x01#8 s :=
  (State.command_running hp).trans (State.raise_eq_afterFault .illegal s)

/-- A parameter beat leaves the position where it is (10_state.md R36). -/
theorem State.takeInput_parameter {bits : BitVec 35} (h : s.inputs = .beat (.parameter bits) :: rest) :
    s.takeInput = { s with inputs := rest } := State.takeInput_cons h

/-- The reserved parameter beat is taken and dropped (30_encoding.md R87). -/
theorem step_of_reserved_parameter {bits : BitVec 35} (h : s.inputs = .beat (.parameter bits) :: rest)
    (hk : kOf bits = 7#3) : step s = .next { s with inputs := rest } := by
  rw [← State.takeInput_parameter h]
  simp [step, State.nextEvent_beat h, beatEvent, decode_parameter_reserved hk]

end StepOnBeat

/-- The PSET of each cell (43_commands.md R169). -/
def psetOf : Cell → Word → Instr
  | .hpFreq => .psetHpFreq
  | .lpFreq => .psetLpFreq
  | .bellFreq => .psetBellFreq
  | .bellGain => .psetBellGain
  | .bellQ => .psetBellQ
  | .hpOrder => .psetHpOrder
  | .lpOrder => .psetLpOrder

/-- The parameter beat of a cell's number is the PSET of that cell (30_encoding.md R85). -/
theorem decode_parameter_cell (k : Cell) (v : Word) :
    decode (.parameter (parameterBits (BitVec.ofNat 3 (cellIndex k).val) v)) = .instr (psetOf k v) := by
  cases k <;> simp [decode, decodeParameter, cellIndex, psetOf]

theorem execState_psetOf (k : Cell) (v : Word) (s : State) : execState (psetOf k v) s = s.writeCell k v := by
  cases k <;> rfl

/-- Outside FAULTED a PREPARE for a channel count other than 2 faults with ERR_LAYOUT (43_commands.md R162). -/
theorem exec_prepare_of_layout {s : State} {n : Nat} (hp : s.phase ≠ .faulted) (hn : n ≠ 2) (a b : Word) :
    exec (.prepare n a b) s = .next (afterFault 0x03#8 s) := by
  rw [exec_eq, execState, State.command_running hp, prepareBody, if_pos hn]
  exact congrArg _ (State.raise_eq_afterFault .layout s)

/-! ### The statements -/

/-- Settles O5: the illegal beats have no header of the opcode map, the other beats decode by their fields, and what each
then does is the fault entry of its code. -/
theorem illegalAndReservedBeats : Obligations.IllegalAndReservedBeats := by
  refine ⟨fun s bits rest hin hp hbad => ?illegal, fun sel a b => ?rds, fun s sel hp h => exec_rds_of_unmapped hp h,
    fun n a b => ?prepare, fun s n a b hp hn => exec_prepare_of_layout hp hn a b,
    fun s bits rest hin hk => step_of_reserved_parameter hin hk⟩
  case illegal =>
    obtain ⟨why, hwhy, hb⟩ := decode_command_rejected (not_legalHeader_of_illegal hbad)
    rw [step_of_rejected hin hb hwhy, State.illegalBeat_eq_afterFault (by simpa using hp),
      State.takeInput_cons hin]
    rfl
  case rds =>
    rw [decode_command_rds (by simp) (by simp)]
    simp
  case prepare =>
    rw [decode_command_prepare (by simp) (by simp)]
    simp

/-- Settles O8: each row fixes the fields by which the decoder chooses, the rows' opcodes differ, and a header the decoder
accepts matches a row. -/
theorem decodeFollowsMatchMask : Obligations.DecodeFollowsMatchMask := by
  intro bits h
  refine ⟨fun hm => ?nop, fun hm => ?prepare, fun hm => ?update, fun hm => ?frame, fun hm => ?rds,
    countP_matches_le_one h, fun hnone => ?rejected⟩
  case nop =>
    obtain ⟨op, n, sel⟩ := (matches_full_iff h 0x00#8).1 hm
    exact decode_command_nop op n sel
  case prepare =>
    obtain ⟨op, sel⟩ := (matches_prepare_iff h).1 hm
    exact decode_command_prepare op sel
  case update =>
    obtain ⟨op, n, sel⟩ := (matches_full_iff h 0x02#8).1 hm
    exact decode_command_update op n sel
  case frame =>
    obtain ⟨op, n, sel⟩ := (matches_full_iff h 0x03#8).1 hm
    exact decode_command_frame op n sel
  case rds =>
    obtain ⟨op, n⟩ := (matches_rds_iff h).1 hm
    exact decode_command_rds op n
  case rejected =>
    have hillegal : ¬ LegalHeader h := by
      intro hl
      obtain ⟨row, hrow, hmatch⟩ := hl.exists_matches
      exact List.countP_eq_zero.1 hnone row hrow (beq_iff_eq.2 hmatch)
    obtain ⟨why, -, hb⟩ := decode_command_rejected hillegal
    exact ⟨why, hb⟩

/-- Settles O17: the beat's number is its two fields, so it decodes to the PSET of cell `k`, and `k = 7` is dropped. -/
theorem parameterBeatStores : Obligations.ParameterBeatStores := by
  intro s rest v
  refine ⟨fun k hin => ?stores, fun hin => ?reserved⟩
  case stores =>
    rw [← parameterBits_ofNat] at hin
    refine ⟨{ s with inputs := rest, cells := s.cells.set k v }, ?_, Snapshot.get_set_same _ k v,
      fun j hj => Snapshot.get_set_other _ v hj, rfl⟩
    rw [step_of_instr hin (decode_parameter_cell k v), execState_psetOf, State.takeInput_parameter hin]
    rfl
  case reserved =>
    rw [← parameterBits_ofNat] at hin
    exact step_of_reserved_parameter hin (kOf_parameterBits 7#3 v)

end Sys2Proof.Machine
end

section
/-! The comparisons of 40_numerics.md R107: the signed values order the words that are no NaN as extended reals. -/

namespace Sys2Proof.Machine

/-! ### The values of finite words and of the infinities -/

/-- The magnitude of the infinities, above every finite one. -/
def F32.infMag : Nat := F32.magOf F32.infBits

theorem F32.infMag_eq : F32.infMag = 2 ^ 24 * 2 ^ 253 := F32.magOf_step 254 0 (by norm_num)

theorem F32.infMag_pos : 0 < F32.infMag := by
  rw [F32.infMag_eq]
  positivity

theorem F32.mag_of_inf {w : Word} (h : F32.isInf w = true) : F32.mag w = F32.infMag := by
  rw [F32.mag_eq, (F32.isInf_iff w).1 h, F32.infMag]

theorem F32.mag_lt_of_finite {w : Word} (h : F32.isFinite w = true) : F32.mag w < F32.infMag := by
  have hlow : F32.low w < F32.infBits := (F32.isFinite_iff w).1 h
  rw [F32.infBits] at hlow
  rw [F32.mag_eq, F32.infMag_eq]
  by_cases hsub : F32.low w < 2 ^ 23
  · rw [F32.magOf_small hsub]
    exact hsub.trans (by norm_num)
  · obtain ⟨e, f, hf, he, hsplit⟩ : ∃ e f, f < 2 ^ 23 ∧ e ≤ 253 ∧ F32.low w = (e + 1) * 2 ^ 23 + f :=
      ⟨F32.low w / 2 ^ 23 - 1, F32.low w % 2 ^ 23, by omega, by omega, by omega⟩
    rw [hsplit, F32.magOf_step e f hf]
    calc (2 ^ 23 + f) * 2 ^ e
        < 2 ^ 24 * 2 ^ e := Nat.mul_lt_mul_of_pos_right (by omega) (Nat.two_pow_pos e)
      _ ≤ 2 ^ 24 * 2 ^ 253 := Nat.mul_le_mul_left _ (Nat.pow_le_pow_right (by norm_num) he)

theorem F32.finite_of_not_nan_of_not_inf {w : Word} (hn : F32.isNaN w = false) (hi : F32.isInf w = false) :
    F32.isFinite w = true := by
  rw [← Bool.not_eq_true, F32.isNaN_iff] at hn
  rw [← Bool.not_eq_true, F32.isInf_iff] at hi
  rw [F32.isFinite_iff]
  omega

theorem F32.val_of_inf {w : Word} (h : F32.isInf w = true) :
    F32.val w = if F32.sign w then -(F32.infMag : Int) else F32.infMag := by
  rw [F32.val, F32.mag_of_inf h]

theorem F32.abs_val_lt_of_finite {w : Word} (h : F32.isFinite w = true) : |F32.val w| < F32.infMag := by
  have hmag : (F32.mag w : Int) < F32.infMag := by exact_mod_cast F32.mag_lt_of_finite h
  unfold F32.val
  split_ifs <;> simpa using hmag

/-! ### The extended order -/

/-- A value in units of 2^-149 as an extended number: from the magnitude of the infinities on, it is an infinity. -/
def extOf (x : Int) : WithBot (WithTop Int) :=
  if x ≤ -(F32.infMag : Int) then ⊥ else if F32.infMag ≤ x then ((⊤ : WithTop Int) : WithBot (WithTop Int))
  else (((x : Int) : WithTop Int) : WithBot (WithTop Int))

theorem extOf_of_le {x : Int} (h : x ≤ -(F32.infMag : Int)) : extOf x = ⊥ := if_pos h

theorem extOf_of_ge {x : Int} (h : F32.infMag ≤ x) : extOf x = ((⊤ : WithTop Int) : WithBot (WithTop Int)) := by
  have hpos := F32.infMag_pos
  rw [extOf, if_neg (by omega), if_pos h]

theorem extOf_of_abs_lt {x : Int} (h : |x| < F32.infMag) :
    extOf x = (((x : Int) : WithTop Int) : WithBot (WithTop Int)) := by
  obtain ⟨hlo, hhi⟩ := abs_lt.1 h
  rw [extOf, if_neg (not_le.2 hlo), if_neg (not_le.2 hhi)]

/-- From one infinity to the other `extOf` keeps the strict order. -/
theorem extOf_strictMonoOn : StrictMonoOn extOf (Set.Icc (-(F32.infMag : Int)) F32.infMag) := by
  rintro x ⟨hx, -⟩ y ⟨-, hy⟩ hxy
  have hbot : extOf y ≠ ⊥ := by
    rw [extOf, if_neg (by omega)]
    split_ifs <;> exact WithBot.coe_ne_bot
  by_cases hxbot : x ≤ -(F32.infMag : Int)
  · rw [extOf_of_le hxbot]
    exact bot_lt_iff_ne_bot.2 hbot
  have hxabs : |x| < F32.infMag := abs_lt.2 ⟨by omega, by omega⟩
  rw [extOf_of_abs_lt hxabs]
  by_cases hytop : F32.infMag ≤ y
  · rw [extOf_of_ge hytop]
    exact WithBot.coe_lt_coe.2 (WithTop.coe_lt_top x)
  · rw [extOf_of_abs_lt (abs_lt.2 ⟨by omega, by omega⟩)]
    exact WithBot.coe_lt_coe.2 (WithTop.coe_lt_coe.2 hxy)

section NotNaN

variable {a b w : Word}

theorem F32.val_mem_Icc (hw : F32.isNaN w = false) : F32.val w ∈ Set.Icc (-(F32.infMag : Int)) F32.infMag := by
  cases hi : F32.isInf w with
  | true => rw [F32.val_of_inf hi]; split_ifs <;> norm_num
  | false =>
    obtain ⟨hlo, hhi⟩ := abs_lt.1 (F32.abs_val_lt_of_finite (F32.finite_of_not_nan_of_not_inf hw hi))
    exact ⟨hlo.le, hhi.le⟩

/-- The extended value of a word that is no NaN is a function of its signed value. -/
theorem extVal_eq_extOf_val (hw : F32.isNaN w = false) : extVal w = extOf (F32.val w) := by
  cases hi : F32.isInf w with
  | true =>
    rw [extVal, if_pos hi, F32.val_of_inf hi]
    split_ifs
    · exact (extOf_of_le le_rfl).symm
    · exact (extOf_of_ge le_rfl).symm
  | false =>
    rw [extVal, if_neg (by simp [hi]),
      extOf_of_abs_lt (F32.abs_val_lt_of_finite (F32.finite_of_not_nan_of_not_inf hw hi))]

theorem extVal_lt_iff (ha : F32.isNaN a = false) (hb : F32.isNaN b = false) :
    extVal a < extVal b ↔ F32.val a < F32.val b := by
  rw [extVal_eq_extOf_val ha, extVal_eq_extOf_val hb]
  exact extOf_strictMonoOn.lt_iff_lt (F32.val_mem_Icc ha) (F32.val_mem_Icc hb)

theorem extVal_le_iff (ha : F32.isNaN a = false) (hb : F32.isNaN b = false) :
    extVal a ≤ extVal b ↔ F32.val a ≤ F32.val b := by
  rw [extVal_eq_extOf_val ha, extVal_eq_extOf_val hb]
  exact extOf_strictMonoOn.le_iff_le (F32.val_mem_Icc ha) (F32.val_mem_Icc hb)

end NotNaN

/-! ### The comparisons -/

theorem F32.lt_iff (a b : Word) :
    F32.lt a b = true ↔ F32.isNaN a = false ∧ F32.isNaN b = false ∧ F32.val a < F32.val b := by
  simp [F32.lt, and_assoc]

theorem F32.le_iff (a b : Word) :
    F32.le a b = true ↔ F32.isNaN a = false ∧ F32.isNaN b = false ∧ F32.val a ≤ F32.val b := by
  simp [F32.le, and_assoc]

theorem F32.isFinite_iff_field (w : Word) : F32.isFinite w = true ↔ w.extractLsb' 23 8 ≠ 0xFF#8 := by
  simp [F32.isFinite, F32.expField, ← BitVec.toNat_inj]

/-- Settles O47: on words that are no NaN the extended order is the order of the signed values, which `lt` and `le`
compare. -/
theorem comparisonsOfExtendedReals : Obligations.ComparisonsOfExtendedReals := by
  intro a b
  refine ⟨?lt, ?le, F32.isFinite_iff_field a, ?zeros⟩
  case lt =>
    rw [F32.lt_iff]
    exact and_congr_right fun ha => and_congr_right fun hb => (extVal_lt_iff ha hb).symm
  case le =>
    rw [F32.le_iff]
    exact and_congr_right fun ha => and_congr_right fun hb => (extVal_le_iff ha hb).symm
  case zeros =>
    decide

end Sys2Proof.Machine
end

section
/-! NOP (43_commands.md R161). -/

namespace Sys2Proof.Machine

/-- ST of an OK response: nothing but PHASE, in bits [9:8] (30_encoding.md R84). -/
theorem stWord_ok (p : Phase) : stWord 0#8 p = p.bits.setWidth 32 <<< 8 := by
  cases p <;> rfl

/-- An OK response adds one entry to the responses and changes nothing else. -/
theorem State.respond_ok (s : State) (a b : Word) :
    s.respond 0#8 a b =
      { s with responses := { st := s.phase.bits.setWidth 32 <<< 8, rw0 := a, rw1 := b } :: s.responses } := by
  rw [State.respond, stWord_ok]

/-- Settles O12: outside FAULTED the command rule runs NOP's body, which is one OK response. -/
theorem nopOnlyResponds : Obligations.NopOnlyResponds := by
  intro s hp
  rw [exec_eq, execState, State.command_running hp, nopBody_eq, State.respond_ok]

end Sys2Proof.Machine
end

section
/-! FAULTED (60_exceptions.md R184). -/

namespace Sys2Proof.Machine

/-! ### Commands and parameter beats -/

/-- The two ports (00_scope.md R13): a command runs some body under the common rule (43_commands.md R160), and what is no
command is the PSET of some cell. -/
theorem command_or_psetOf (i : Instr) :
    (isCommand i = true ∧ ∀ s, ∃ body : State → State, execState i s = s.command body) ∨
      (isCommand i = false ∧ ∃ k v, i = psetOf k v) := by
  cases i with
  | nop => exact .inl ⟨rfl, fun _ => ⟨_, rfl⟩⟩
  | prepare n fs maxblk => exact .inl ⟨rfl, fun _ => ⟨_, rfl⟩⟩
  | update => exact .inl ⟨rfl, fun _ => ⟨_, rfl⟩⟩
  | frame l r => exact .inl ⟨rfl, fun _ => ⟨_, rfl⟩⟩
  | rds sel => exact .inl ⟨rfl, fun _ => ⟨_, rfl⟩⟩
  | psetHpFreq v => exact .inr ⟨rfl, .hpFreq, v, rfl⟩
  | psetLpFreq v => exact .inr ⟨rfl, .lpFreq, v, rfl⟩
  | psetBellFreq v => exact .inr ⟨rfl, .bellFreq, v, rfl⟩
  | psetBellGain v => exact .inr ⟨rfl, .bellGain, v, rfl⟩
  | psetBellQ v => exact .inr ⟨rfl, .bellQ, v, rfl⟩
  | psetHpOrder v => exact .inr ⟨rfl, .hpOrder, v, rfl⟩
  | psetLpOrder v => exact .inr ⟨rfl, .lpOrder, v, rfl⟩

theorem execState_of_isCommand {i : Instr} (h : isCommand i = true) (s : State) :
    ∃ body : State → State, execState i s = s.command body := by
  obtain ⟨-, hbody⟩ | ⟨hnot, -⟩ := command_or_psetOf i
  · exact hbody s
  · simp [h] at hnot

/-- `PSET k, v` for the number of a cell is the PSET of that cell (20_memory.md R61). -/
theorem psetInstr_cellIndex (k : Cell) (v : Word) : psetInstr (cellIndex k).val v = [psetOf k v] := by
  cases k <;> rfl

/-- A command beat decodes to a command, or is rejected and not as a parameter beat. -/
theorem decode_command_cases (bits : BitVec 96) :
    (∃ i, isCommand i = true ∧ decode (.command bits) = .instr i) ∨
      ∃ why, why ≠ .reservedCell ∧ decode (.command bits) = .rejected why := by
  by_cases hl : LegalHeader (hdrOf bits)
  · left
    cases hl with
    | nop op n sel => exact ⟨_, rfl, decode_command_nop op n sel⟩
    | prepare op sel => exact ⟨_, rfl, decode_command_prepare op sel⟩
    | update op n sel => exact ⟨_, rfl, decode_command_update op n sel⟩
    | frame op n sel => exact ⟨_, rfl, decode_command_frame op n sel⟩
    | rds op n => exact ⟨_, rfl, decode_command_rds op n⟩
  · exact .inr (decode_command_rejected hl)

/-- A command beat stands under the common rule (43_commands.md R160): a legal one with its own body, an illegal one with
its fault. -/
theorem step_of_command_beat {s : State} {bits : BitVec 96} {rest : List Input}
    (hin : s.inputs = .beat (.command bits) :: rest) :
    ∃ body : State → State, step s = .next (s.takeInput.command body) := by
  obtain ⟨i, hi, hb⟩ | ⟨why, hwhy, hb⟩ := decode_command_cases bits
  · obtain ⟨body, hbody⟩ := execState_of_isCommand hi s.takeInput
    exact ⟨body, by rw [step_of_instr hin hb, hbody]⟩
  · exact ⟨_, step_of_rejected hin hb hwhy⟩

/-- No beat is the event RST. -/
theorem beatEvent_ne_rst (b : Beat) : beatEvent b ≠ .rst := by
  unfold beatEvent
  split <;> simp

/-- The event RST is RST at the head of the list. -/
theorem State.head_of_nextEvent_rst {s : State} (h : s.nextEvent = .rst) : s.inputs.head? = some .rst := by
  unfold State.nextEvent at h
  split at h
  next => cases h
  next hin => simp [hin]
  next b _ _ => exact absurd h (beatEvent_ne_rst b)

/-! ### The answer in FAULTED -/

/-- ST in FAULTED is its code and 3 in the field of PHASE (30_encoding.md R84), whatever byte the code is. -/
theorem stWord_faulted_eq_add (code : BitVec 8) : stWord code .faulted = code.setWidth 32 + 0x300#32 := by
  apply BitVec.eq_of_toNat_eq
  have hphase : (0#22 ++ Phase.faulted.bits).toNat = 3 := rfl
  rw [stWord, BitVec.toNat_append, ← Nat.shiftLeft_add_eq_or_of_lt code.isLt, Nat.shiftLeft_eq, hphase, BitVec.toNat_add,
    BitVec.toNat_setWidth, BitVec.toNat_ofNat]
  omega

section Faulted

variable {s : State} (hp : s.phase = .faulted)
include hp

/-- Under the common rule FAULTED answers the old code and zeros, and changes nothing (60_exceptions.md R184). -/
theorem State.command_of_faulted (body : State → State) :
    s.command body =
      { s with responses := { st := s.err.setWidth 32 + 0x300#32, rw0 := 0#32, rw1 := 0#32 } :: s.responses } := by
  rw [State.command_faulted hp, State.respond, hp, stWord_faulted_eq_add]

/-- The common rule keeps FAULTED and ERR, whatever the command's body would do. -/
theorem State.command_keeps_faulted (body : State → State) :
    (s.command body).phase = .faulted ∧ (s.command body).err = s.err := by
  rw [State.command_of_faulted hp]
  exact ⟨hp, rfl⟩

/-- No instruction leaves FAULTED or changes ERR: a command stands under the common rule, a PSET writes its cell. -/
theorem execState_keeps_faulted (i : Instr) : (execState i s).phase = .faulted ∧ (execState i s).err = s.err := by
  obtain ⟨-, hbody⟩ | ⟨-, k, v, rfl⟩ := command_or_psetOf i
  · obtain ⟨body, hbody⟩ := hbody s
    rw [hbody]
    exact State.command_keeps_faulted hp body
  · rw [execState_psetOf]
    exact ⟨hp, rfl⟩

/-- Only RST leaves FAULTED or changes ERR (60_exceptions.md R184, R187). -/
theorem step_keeps_faulted {t : State} (hstep : step s = .next t) (hrst : s.inputs.head? ≠ some .rst) :
    t.phase = .faulted ∧ t.err = s.err := by
  have hp' : s.takeInput.phase = .faulted := s.takeInput_phase.trans hp
  rw [← s.takeInput_err]
  obtain ⟨-, h⟩ | ⟨hev, -⟩ | ⟨i, -, h⟩ | ⟨-, h⟩ | ⟨-, h⟩ := step_cases s
  · cases h.symm.trans hstep
    exact ⟨hp, s.takeInput_err.symm⟩
  · exact absurd (State.head_of_nextEvent_rst hev) hrst
  · cases h.symm.trans hstep
    exact execState_keeps_faulted hp' i
  · cases h.symm.trans hstep
    exact State.command_keeps_faulted hp' _
  · cases h.symm.trans hstep
    exact ⟨hp', rfl⟩

end Faulted

/-- Settles O13: every command beat, legal or illegal, stands under the common rule, which in FAULTED only responds; a PSET
is no command; and of the five things a step can be only RST touches PHASE or ERR. -/
theorem faultedIsAbsorbing : Obligations.FaultedIsAbsorbing := by
  intro s hp
  refine ⟨fun i hi => ?command, fun bits rest hin => ?beat, fun k v i hi => ?pset, fun t => step_keeps_faulted hp⟩
  case command =>
    obtain ⟨body, hbody⟩ := execState_of_isCommand hi s
    rw [exec_eq, hbody, State.command_of_faulted hp]
  case beat =>
    obtain ⟨body, hstep⟩ := step_of_command_beat hin
    rw [hstep, State.command_of_faulted (s.takeInput_phase.trans hp), State.takeInput_cons hin]
    rfl
  case pset =>
    obtain rfl : psetOf k v = i := by simpa [psetInstr_cellIndex] using hi
    rw [exec_eq, execState_psetOf]
    rfl

end Sys2Proof.Machine
end

section
/-! The decoder and the encoder are inverse to each other (30_encoding.md R83, R85, R86, R90). -/

namespace Sys2Proof.Machine

/-! ### Instructions by port -/

/-- Case analysis on an instruction by its port: the five commands one by one, the seven PSETs as one case. -/
theorem Instr.by_port {motive : Instr → Prop} (nop : motive .nop)
    (prepare : ∀ n fs maxblk, motive (.prepare n fs maxblk)) (update : motive .update)
    (frame : ∀ l r, motive (.frame l r)) (rds : ∀ sel, motive (.rds sel)) (pset : ∀ k v, motive (psetOf k v))
    (i : Instr) : motive i := by
  cases i with
  | nop => exact nop
  | prepare n fs maxblk => exact prepare n fs maxblk
  | update => exact update
  | frame l r => exact frame l r
  | rds sel => exact rds sel
  | psetHpFreq v => exact pset .hpFreq v
  | psetLpFreq v => exact pset .lpFreq v
  | psetBellFreq v => exact pset .bellFreq v
  | psetBellGain v => exact pset .bellGain v
  | psetBellQ v => exact pset .bellQ v
  | psetHpOrder v => exact pset .hpOrder v
  | psetLpOrder v => exact pset .lpOrder v

theorem encode_psetOf (k : Cell) (v : Word) :
    encode (psetOf k v) = .parameter (parameterBits (BitVec.ofNat 3 (cellIndex k).val) v) := by
  cases k <;> rfl

theorem wellFormed_psetOf (k : Cell) (v : Word) : (psetOf k v).WellFormed := by
  cases k <;> rfl

@[simp] theorem isCommand_psetOf (k : Cell) (v : Word) : isCommand (psetOf k v) = false := by
  cases k <;> rfl

/-- A cell number of three bits names a cell or is the reserved 7 (20_memory.md R61). -/
theorem cellNumber_cases (k : BitVec 3) : k = 7#3 ∨ ∃ c : Cell, k = BitVec.ofNat 3 (cellIndex c).val := by
  by_cases h7 : k = 7#3
  · exact .inl h7
  · right
    have hlt : k.toNat < 7 := by bv_omega
    have hk : cellOfNumber k.toNat = some (allCells[k.toNat]) := List.getElem?_eq_getElem hlt
    exact ⟨_, (ofNat_eq_of_toNat_eq (cellIndex_of_cellOfNumber hk).symm).symm⟩

/-! ### Decode of encode -/

/-- Settles O6: the encoder writes the fields by which the decoder chooses, and an 8-bit channel count survives its
field. -/
theorem decodeOfEncode : Obligations.DecodeOfEncode := by
  intro i hi
  cases i using Instr.by_port with
  | nop => exact decode_command_nop (by simp) (by simp) (by simp)
  | prepare n fs maxblk =>
    have hn : n < 256 := of_decide_eq_true hi
    rw [encode, decode_command_prepare (by simp) (by simp)]
    simp [Nat.mod_eq_of_lt hn]
  | update => exact decode_command_update (by simp) (by simp) (by simp)
  | frame l r =>
    rw [encode, decode_command_frame (by simp) (by simp) (by simp)]
    simp
  | rds sel =>
    rw [encode, decode_command_rds (by simp) (by simp)]
    simp
  | pset k v => rw [encode_psetOf, decode_parameter_cell]

/-! ### Encode of decode -/

/-- A beat of a command whose data words are ignored, in canonical form, is its header with zero words. -/
theorem canonicalBeat_of_ignored {bits : BitVec 96} (h1 : opOf (hdrOf bits) ≠ 0x01#8) (h3 : opOf (hdrOf bits) ≠ 0x03#8) :
    canonicalBeat (.command bits) = .command (commandBits (hdrOf bits) 0#32 0#32) :=
  if_neg (not_or.2 ⟨h1, h3⟩)

/-- A beat of a command that uses its data words is canonical. -/
theorem canonicalBeat_of_used {bits : BitVec 96} (h : opOf (hdrOf bits) = 0x01#8 ∨ opOf (hdrOf bits) = 0x03#8) :
    canonicalBeat (.command bits) = .command bits :=
  if_pos h

/-- A header with given fields. -/
theorem eq_header {hdr : Word} {op n : BitVec 8} {sel : BitVec 16} (hop : opOf hdr = op) (hn : nOf hdr = n)
    (hsel : selOf hdr = sel) : header op n sel = hdr := by
  rw [← hop, ← hn, ← hsel, header_fields]

theorem encode_of_decode_command {bits : BitVec 96} {i : Instr} (h : decode (.command bits) = .instr i) :
    i.WellFormed ∧ encode i = canonicalBeat (.command bits) := by
  by_cases hl : LegalHeader (hdrOf bits)
  case neg =>
    obtain ⟨why, -, hrej⟩ := decode_command_rejected hl
    simp [hrej] at h
  cases hl with
  | nop op n sel =>
    obtain rfl : .nop = i := by simpa [decode_command_nop op n sel] using h
    exact ⟨rfl, by rw [canonicalBeat_of_ignored (by simp [op]) (by simp [op]), encode, eq_header op n sel]⟩
  | prepare op sel =>
    obtain rfl : Instr.prepare _ _ _ = i := by simpa [decode_command_prepare op sel] using h
    refine ⟨decide_eq_true (nOf (hdrOf bits)).isLt, ?_⟩
    rw [canonicalBeat_of_used (.inl op), encode, BitVec.ofNat_toNat, BitVec.setWidth_eq, eq_header op rfl sel,
      commandBits_fields]
  | update op n sel =>
    obtain rfl : .update = i := by simpa [decode_command_update op n sel] using h
    exact ⟨rfl, by rw [canonicalBeat_of_ignored (by simp [op]) (by simp [op]), encode, eq_header op n sel]⟩
  | frame op n sel =>
    obtain rfl : Instr.frame _ _ = i := by simpa [decode_command_frame op n sel] using h
    exact ⟨rfl, by rw [canonicalBeat_of_used (.inr op), encode, eq_header op n sel, commandBits_fields]⟩
  | rds op n =>
    obtain rfl : Instr.rds _ = i := by simpa [decode_command_rds op n] using h
    exact ⟨rfl, by rw [canonicalBeat_of_ignored (by simp [op]) (by simp [op]), encode, eq_header op n rfl]⟩

theorem encode_of_decode_parameter {bits : BitVec 35} {i : Instr} (h : decode (.parameter bits) = .instr i) :
    i.WellFormed ∧ encode i = canonicalBeat (.parameter bits) := by
  obtain hk | ⟨c, hc⟩ := cellNumber_cases (kOf bits)
  · simp [decode_parameter_reserved hk] at h
  · rw [← parameterBits_fields bits, hc, decode_parameter_cell] at h
    obtain rfl : psetOf c _ = i := by simpa using h
    exact ⟨wellFormed_psetOf _ _, by rw [encode_psetOf, ← hc, parameterBits_fields, canonicalBeat]⟩

/-- Settles O7: a beat that decodes has a header of the opcode map or the number of a cell, and a header or a beat is its
fields. -/
theorem encodeOfDecode : Obligations.EncodeOfDecode := by
  intro b i h
  cases b with
  | command bits => exact encode_of_decode_command h
  | parameter bits => exact encode_of_decode_parameter h

/-! ### Beats as numbers -/

/-- The value of a command beat from its three words (30_encoding.md R81). -/
theorem commandBits_toNat (hdr a b : Word) :
    (commandBits hdr a b).toNat = hdr.toNat * 2 ^ 64 + a.toNat * 2 ^ 32 + b.toNat := by
  rw [commandBits, BitVec.toNat_append, BitVec.toNat_append, ← Nat.shiftLeft_add_eq_or_of_lt b.isLt,
    ← Nat.shiftLeft_add_eq_or_of_lt a.isLt, Nat.shiftLeft_eq, Nat.shiftLeft_eq]
  omega

/-- The value of a header from its three fields (30_encoding.md R82). -/
theorem header_toNat (op n : BitVec 8) (sel : BitVec 16) :
    (header op n sel).toNat = op.toNat * 2 ^ 24 + n.toNat * 2 ^ 16 + sel.toNat := by
  rw [header, BitVec.toNat_append, BitVec.toNat_append, ← Nat.shiftLeft_add_eq_or_of_lt sel.isLt,
    ← Nat.shiftLeft_add_eq_or_of_lt n.isLt, Nat.shiftLeft_eq, Nat.shiftLeft_eq]
  omega

/-- A command beat written as a number. -/
theorem commandBits_header_eq_ofNat (op n : BitVec 8) (sel : BitVec 16) (a b : Word) :
    commandBits (header op n sel) a b =
      BitVec.ofNat 96 ((op.toNat * 2 ^ 24 + n.toNat * 2 ^ 16 + sel.toNat) * 2 ^ 64 + a.toNat * 2 ^ 32 + b.toNat) := by
  rw [← header_toNat, ← commandBits_toNat, BitVec.ofNat_toNat, BitVec.setWidth_eq]

theorem encode_prepare_eq_ofNat {n : Nat} (hn : n < 256) (fs blk : Word) :
    encode (.prepare n fs blk) =
      .command (BitVec.ofNat 96 ((0x01000000 + n * 2 ^ 16) * 2 ^ 64 + fs.toNat * 2 ^ 32 + blk.toNat)) := by
  rw [encode, commandBits_header_eq_ofNat]
  simp [Nat.mod_eq_of_lt hn]

theorem encode_frame_eq_ofNat (l r : Word) :
    encode (.frame l r) = .command (BitVec.ofNat 96 (0x03000000 * 2 ^ 64 + l.toNat * 2 ^ 32 + r.toNat)) := by
  rw [encode, commandBits_header_eq_ofNat]
  simp

theorem encode_rds_eq_ofNat (sel : BitVec 16) :
    encode (.rds sel) = .command (BitVec.ofNat 96 ((0x04000000 + sel.toNat) * 2 ^ 64)) := by
  rw [encode, commandBits_header_eq_ofNat]
  simp

/-- The one command a `PSET k, v` stands for is the PSET of the cell of that number. -/
theorem exists_cell_of_psetInstr {k : Nat} {v : Word} {i : Instr} (h : psetInstr k v = [i]) :
    ∃ c : Cell, (cellIndex c).val = k ∧ i = psetOf c v := by
  have hlt : k < 7 := by
    by_contra hk
    obtain ⟨m, rfl⟩ := Nat.exists_eq_add_of_le' (not_lt.1 hk)
    cases h
  have hc : cellOfNumber k = some allCells[k] := List.getElem?_eq_getElem hlt
  have hk := cellIndex_of_cellOfNumber hc
  rw [← hk, psetInstr_cellIndex] at h
  exact ⟨_, hk, (List.singleton_inj.1 h).symm⟩

/-- Settles O10: a beat is the concatenation of its words and fields, so its number is their weighted sum. -/
theorem beatsAsNumbers : Obligations.BeatsAsNumbers := by
  refine ⟨rfl, fun n fs blk hn => encode_prepare_eq_ofNat hn fs blk, rfl, encode_frame_eq_ofNat, encode_rds_eq_ofNat,
    fun k v i h => ?pset⟩
  case pset =>
    obtain ⟨c, rfl, rfl⟩ := exists_cell_of_psetInstr h
    rw [encode_psetOf, parameterBits_ofNat]

/-- Settles O9: the written beats are closed terms, which the decoder evaluates. -/
theorem writtenBeatsDecode : Obligations.WrittenBeatsDecode := by
  unfold Obligations.WrittenBeatsDecode
  decide

end Sys2Proof.Machine
end

section
/-! The banks and the chain stage by stage: what BANK_CFG, APPLY, CHAIN_CLEAR and CHAIN_STEP make of the coefficients, the
flags and the delay registers of each stage (42_stage_bank_chain.md). -/

namespace Sys2Proof.Machine

/-! ### BANK_CFG -/

section BankConfig

variable {α : Type} (N : Num α) (p : BypassPolicy) (cs : List (Coef α)) (n i : Nat) (s : CutStage α)

theorem configSection_of_lt (h : i < n) :
    configSection N p cs n i s = { bq := { s.bq with coef := cs.getD i s.bq.coef }, byp := false } := if_pos h

@[simp] theorem configSection_byp : (configSection N p cs n i s).byp = decide (n ≤ i) := by
  unfold configSection
  split_ifs with h <;> simp [h, Nat.le_of_not_lt]

/-- What BANK_CFG leaves as the coefficients of section `i` that held `old` (R145). -/
def sectionCoef (cs : List (Coef α)) (n i : Nat) (old : Coef α) : Coef α := if i < n then cs.getD i old else old

@[simp] theorem configSection_coef : (configSection N p cs n i s).bq.coef = sectionCoef cs n i s.bq.coef := by
  unfold configSection sectionCoef
  split_ifs
  · rfl
  · cases p <;> rfl

/-- Under HOLD the section keeps its delay registers. -/
theorem configSection_hold_bq :
    (configSection N .hold cs n i s).bq = { s.bq with coef := sectionCoef cs n i s.bq.coef } := by
  unfold configSection sectionCoef
  split_ifs <;> rfl

theorem configSection_configSection :
    configSection N p cs n i (configSection N p cs n i s) = configSection N p cs n i s := by
  by_cases h : i < n
  · simp only [configSection_of_lt _ _ _ _ _ _ h, List.getD_eq_getElem?_getD]
    cases cs[i]? <;> rfl
  · simp only [configSection, if_neg h]
    cases p <;> rfl

theorem bankConfig_thermometer (b : Bank α) : Thermometer (bankConfig N p cs n b) n := by
  simp [Thermometer, bankConfig]

end BankConfig

/-- Settles O29: section `i` of the new bank is bypassed exactly when `n ≤ i`, and the count and the flag vector are
functions of the four flags. -/
theorem selectorDecode : Obligations.SelectorDecode := by
  intro N p cs n b h1 h4
  refine ⟨?active, bankConfig_thermometer N p cs n b, ?n1, ?n2, ?n3, ?n4⟩
  case active =>
    simp only [Bank.active, bankConfig, configSection_byp, decide_eq_true_eq]
    split_ifs <;> omega
  all_goals
    rintro rfl
    simp [Bank.flags, bankConfig]

/-- Settles O30: each section configured twice is as configured once. -/
theorem bankConfigIdempotent : Obligations.BankConfigIdempotent := by
  intro N p cs n b
  simp only [bankConfig, configSection_configSection]

/-- Settles O28: the multiplexer chooses by the flag alone, and under RESET a section that is left bypassed is cleared. -/
theorem selectorPassesOrSteps : Obligations.SelectorPassesOrSteps := by
  intro N d b x
  refine ⟨fun _ => rfl, rfl, rfl, rfl, fun cs n i f hn => ?cleared, fun _ => rfl⟩
  case cleared =>
    rw [configSection, if_neg (Nat.not_lt.2 hn)]
    rfl

/-! ### Stages of the chain -/

section Stages

variable {α : Type} (N : Num α)

/-- Case analysis on the stage number: the four sections of the highpass bank, the bell, the four of the lowpass bank. -/
theorem stage_cases {P : Fin 9 → Prop} (h0 : P 0) (h1 : P 1) (h2 : P 2) (h3 : P 3) (h4 : P 4) (h5 : P 5) (h6 : P 6)
    (h7 : P 7) (h8 : P 8) (i : Fin 9) : P i := by
  fin_cases i <;> assumption

/-- What APPLY leaves as the coefficients of stage `i` that held `old` (43_commands.md R166). -/
def configuredCoef (hp : List (Coef α)) (hpOrder : Nat) (bell : Coef α) (lp : List (Coef α)) (lpOrder : Nat) (i : Fin 9)
    (old : Coef α) : Coef α :=
  if i.val < 4 then sectionCoef hp hpOrder i.val old
  else if i.val = 4 then bell
  else sectionCoef lp lpOrder (i.val - 5) old

/-- The flag APPLY leaves at stage `i`. -/
def configuredFlag (hpOrder lpOrder : Nat) (i : Fin 9) : Bool :=
  if i.val < 4 then decide (hpOrder ≤ i.val) else if i.val = 4 then false else decide (lpOrder ≤ i.val - 5)

variable (p : BypassPolicy) (hp : List (Coef α)) (m : Nat) (bell : Coef α) (lp : List (Coef α)) (n : Nat) (c : Chain α)

@[simp] theorem chainConfig_bypassed (i : Fin 9) :
    (chainConfig N p hp m bell lp n c).bypassed i = configuredFlag m n i := by
  cases i using stage_cases with
  | h4 => rfl
  | _ => exact configSection_byp ..

@[simp] theorem chainConfig_coef (i : Fin 9) :
    ((chainConfig N p hp m bell lp n c).stage i).coef = configuredCoef hp m bell lp n i (c.stage i).coef := by
  cases i using stage_cases with
  | h4 => rfl
  | _ => exact configSection_coef ..

/-- Under HOLD, APPLY keeps the delay registers of every stage. -/
theorem chainConfig_hold_stage (i : Fin 9) :
    (chainConfig N .hold hp m bell lp n c).stage i =
      { c.stage i with coef := configuredCoef hp m bell lp n i (c.stage i).coef } := by
  cases i using stage_cases with
  | h4 => rfl
  | _ => exact configSection_hold_bq N ..

@[simp] theorem chainClear_stage (i : Fin 9) : (chainClear N c).stage i = clearBiquad N (c.stage i) := by
  cases i using stage_cases <;> rfl

@[simp] theorem chainClear_bypassed (i : Fin 9) : (chainClear N c).bypassed i = c.bypassed i := by
  cases i using stage_cases <;> rfl

end Stages

/-! ### CHAIN_STEP -/

section ChainStep

variable (N : Num Word) (d : Nat) (c : Chain Word) (x : Word)

/-- STAGE_MUX of a cut section under HOLD is STAGE_MUX by the section's flat number (R150). -/
theorem stageMux_hold_eq_muxAt {d' : Nat} {i : Fin 9} {s : CutStage Word} (hd : d + 9 * i.val = d')
    (hbq : c.stage i = s.bq) (hbyp : c.bypassed i = s.byp) (v : Word) :
    stageMux N .hold d' s v = ((muxAt N d c i v).1, { bq := (muxAt N d c i v).2, byp := s.byp }) := by
  subst hd
  unfold stageMux muxAt
  rw [hbq, hbyp]
  split_ifs <;> rfl

/-- The chain's registers after one sample, each stage those its multiplexer leaves (R150). -/
def chainAfter : Chain Word :=
  let after (i : Fin 9) : Biquad Word := (muxAt N d c i (sampleAt N d c x i.val)).2
  { hp :=
      { s0 := { bq := after 0, byp := c.hp.s0.byp }
        s1 := { bq := after 1, byp := c.hp.s1.byp }
        s2 := { bq := after 2, byp := c.hp.s2.byp }
        s3 := { bq := after 3, byp := c.hp.s3.byp } }
    bell := after 4
    lp :=
      { s0 := { bq := after 5, byp := c.lp.s0.byp }
        s1 := { bq := after 6, byp := c.lp.s1.byp }
        s2 := { bq := after 7, byp := c.lp.s2.byp }
        s3 := { bq := after 8, byp := c.lp.s3.byp } } }

@[simp] theorem chainAfter_stage (i : Fin 9) :
    (chainAfter N d c x).stage i = (muxAt N d c i (sampleAt N d c x i.val)).2 := by
  cases i using stage_cases <;> rfl

@[simp] theorem chainAfter_bypassed (i : Fin 9) : (chainAfter N d c x).bypassed i = c.bypassed i := by
  cases i using stage_cases <;> rfl

/-- CHAIN_STEP under HOLD is the flat loop over the nine stages of R150. -/
theorem chainStep_hold : chainStep N .hold d c x = (sampleAt N d c x 9, chainAfter N d c x) := by
  have h0 := stageMux_hold_eq_muxAt N d c (d' := d) (i := 0) (s := c.hp.s0) rfl rfl rfl
  have h1 := stageMux_hold_eq_muxAt N d c (d' := d + 9) (i := 1) (s := c.hp.s1) rfl rfl rfl
  have h2 := stageMux_hold_eq_muxAt N d c (d' := d + 18) (i := 2) (s := c.hp.s2) rfl rfl rfl
  have h3 := stageMux_hold_eq_muxAt N d c (d' := d + 27) (i := 3) (s := c.hp.s3) rfl rfl rfl
  have h4 (v : Word) : stageStep N (d + 36) c.bell v = muxAt N d c 4 v := rfl
  have h5 := stageMux_hold_eq_muxAt N d c (d' := d + 45) (i := 5) (s := c.lp.s0) rfl rfl rfl
  have h6 := stageMux_hold_eq_muxAt N d c (d' := d + 54) (i := 6) (s := c.lp.s1) rfl rfl rfl
  have h7 := stageMux_hold_eq_muxAt N d c (d' := d + 63) (i := 7) (s := c.lp.s2) rfl rfl rfl
  have h8 := stageMux_hold_eq_muxAt N d c (d' := d + 72) (i := 8) (s := c.lp.s3) rfl rfl rfl
  simp only [chainStep, bankStep, Nat.add_assoc, Nat.reduceAdd, h0, h1, h2, h3, h4, h5, h6, h7, h8]
  rfl

/-- STAGE_STEP keeps the coefficients. -/
@[simp] theorem stageStep_coef {α : Type} (N : Num α) (d : Nat) (b : Biquad α) (x : α) :
    (stageStep N d b x).2.coef = b.coef := rfl

theorem muxAt_of_bypassed {i : Fin 9} (h : c.bypassed i = true) (v : Word) : muxAt N d c i v = (v, c.stage i) :=
  if_pos h

theorem muxAt_of_enabled {i : Fin 9} (h : c.bypassed i = false) (v : Word) :
    muxAt N d c i v = stageStep N (d + 9 * i.val) (c.stage i) v := by
  simp [muxAt, h]

@[simp] theorem muxAt_coef (i : Fin 9) (v : Word) : (muxAt N d c i v).2.coef = (c.stage i).coef := by
  unfold muxAt
  split_ifs <;> rfl

theorem sampleAt_succ {n : Nat} (h : n < 9) :
    sampleAt N d c x (n + 1) = (muxAt N d c ⟨n, h⟩ (sampleAt N d c x n)).1 := dif_pos h

end ChainStep

end Sys2Proof.Machine
end

section
/-! What a command, and so a step, can do to the state, said once for every instruction. -/

namespace Sys2Proof.Machine

/-! ### The effect of an instruction -/

@[simp] theorem State.num_ofWord (s : State) (w : Word) : s.num.ofWord w = w := rfl

/-- The state a completed FRAME leaves (R167): each channel's chain after its sample, and the two outputs in the
response. -/
def frameCommit (l r : Word) (s : State) : State :=
  { s with
    left := chainAfter s.num s.draws s.left l
    right := chainAfter s.num (s.draws + 81) s.right r
    draws := s.draws + frameDraws
    phase := .running
    responses :=
      { st := stWord 0#8 .running
        rw0 := sampleAt s.num s.draws s.left l 9
        rw1 := sampleAt s.num (s.draws + 81) s.right r 9 } :: s.responses }

/-- FRAME faults in UNINIT and completes elsewhere. -/
theorem frameBody_hold_cases (l r : Word) (s : State) :
    (s.phase = .uninit ∧ frameBody .hold l r s = s.raise .notPrepared) ∨
      (s.phase ≠ .uninit ∧ frameBody .hold l r s = frameCommit l r s) := by
  refine (frameBody_cases .hold l r s).imp_right (And.imp_right fun h => h.trans ?_)
  simp only [frameLeft, frameRight, chainStep_hold, State.num_ofWord]
  rfl

theorem frameBody_of_uninit {s : State} (h : s.phase = .uninit) (l r : Word) :
    frameBody .hold l r s = s.raise .notPrepared := if_pos h

theorem frameBody_of_ready {s : State} (h : s.phase ≠ .uninit) (l r : Word) :
    frameBody .hold l r s = frameCommit l r s :=
  (frameBody_hold_cases l r s).elim (fun hu => absurd hu.1 h) And.right

/-- The state a completed UPDATE leaves (R163): the generator run on the snapshot at the recorded rate, its words applied. -/
def updateCommit (s : State) : State := ((s.snapRead.generate s.rate).apply .hold).respond 0#8 0#32 0#32

/-- The states an instruction can leave, each with what is known where it is left (43_commands.md R160 to R169): a PSET's
cell written, the answer of FAULTED, a command completed, or fault entry, before or after a SNAP_READ. -/
inductive Effect : Instr → State → State → Prop
  | pset (k : Cell) (v : Word) (s : State) : Effect (psetOf k v) s (s.writeCell k v)
  | faulted {i : Instr} {s : State} (hi : isCommand i = true) (hp : s.phase = .faulted) :
      Effect i s (s.respond s.err 0#32 0#32)
  | raise {i : Instr} {s : State} (hi : isCommand i = true) (hp : s.phase ≠ .faulted) (code : FaultCode) :
      Effect i s (s.raise code)
  | snapRaise {i : Instr} {s : State} (hi : isCommand i = true) (hp : s.phase ≠ .faulted) (code : FaultCode) :
      Effect i s (s.snapRead.raise code)
  | nop {s : State} (hp : s.phase ≠ .faulted) : Effect .nop s (s.respond 0#8 0#32 0#32)
  | rds {s : State} (hp : s.phase ≠ .faulted) (sel : BitVec 16) (w : Word) :
      Effect (.rds sel) s (s.respond 0#8 w 0#32)
  | prepare {s : State} (hp : s.phase ≠ .faulted) (n : Nat) (fs blk : Word) (hfs : positive s.num fs = true)
      (hv : validate s.num s.draws s.snapRead.snapBuf fs = none) :
      Effect (.prepare n fs blk) s (prepareCommit .hold fs (s.snapRead.generate fs))
  | update {s : State} (hp : s.phase ≠ .faulted) (hu : s.phase ≠ .uninit)
      (hv : validate s.num s.draws s.snapRead.snapBuf s.rate = none) :
      Effect .update s (updateCommit s)
  | frame {s : State} (hp : s.phase ≠ .faulted) (hu : s.phase ≠ .uninit) (l r : Word) :
      Effect (.frame l r) s (frameCommit l r s)

/-- Outside FAULTED an instruction has one of the effects its own rule names. -/
theorem effect_of_not_faulted {s : State} (hp : s.phase ≠ .faulted) (i : Instr) : Effect i s (execState i s) := by
  cases i using Instr.by_port with
  | nop =>
    rw [execState, State.command_running hp]
    exact .nop hp
  | prepare n fs maxblk =>
    rw [execState, State.command_running hp]
    obtain ⟨-, h⟩ | ⟨-, -, h⟩ | ⟨-, hfs, ⟨code, -, h⟩ | ⟨hv, h⟩⟩ := prepareBody_cases .hold n fs s
    · exact h ▸ .raise rfl hp _
    · exact h ▸ .raise rfl hp _
    · exact h ▸ .snapRaise rfl hp _
    · exact h ▸ .prepare hp n fs maxblk hfs hv
  | update =>
    rw [execState, State.command_running hp]
    obtain ⟨-, h⟩ | ⟨hu, ⟨code, -, h⟩ | ⟨hv, h⟩⟩ := updateBody_cases .hold s
    · exact h ▸ .raise rfl hp _
    · exact h ▸ .snapRaise rfl hp _
    · exact h ▸ .update hp hu hv
  | frame l r =>
    rw [execState, State.command_running hp]
    obtain ⟨-, h⟩ | ⟨hu, h⟩ := frameBody_hold_cases l r s
    · exact h ▸ .raise rfl hp _
    · exact h ▸ .frame hp hu l r
  | rds sel =>
    rw [execState, State.command_running hp]
    obtain ⟨x, -, h⟩ | ⟨-, h⟩ := rdsBody_cases sel s
    · exact h ▸ .rds hp sel _
    · exact h ▸ .raise rfl hp _
  | pset k v => exact execState_psetOf k v s ▸ .pset k v s

theorem effect_execState (i : Instr) (s : State) : Effect i s (execState i s) := by
  by_cases hp : s.phase = .faulted
  · obtain ⟨hi, hbody⟩ | ⟨-, k, v, rfl⟩ := command_or_psetOf i
    · obtain ⟨body, hbody⟩ := hbody s
      rw [hbody, State.command_faulted hp]
      exact .faulted hi hp
    · exact execState_psetOf k v s ▸ .pset k v s
  · exact effect_of_not_faulted hp i

theorem effect_of_exec {i : Instr} {s t : State} (h : exec i s = .next t) : Effect i s t := by
  rw [exec_eq] at h
  injection h with h
  exact h ▸ effect_execState i s

/-- An illegal beat has the effects any command can have (43_commands.md R160). -/
theorem effect_illegalBeat {i : Instr} (hi : isCommand i = true) (s : State) : Effect i s s.illegalBeat := by
  unfold State.illegalBeat
  by_cases hp : s.phase = .faulted
  · rw [State.command_faulted hp]
    exact .faulted hi hp
  · rw [State.command_running hp]
    exact .raise hi hp _

/-! ### The step -/

/-- A property of the state that looks at no event, holds of the block after RST and is kept by every effect is kept by
every step. -/
theorem kept_of_effects {P : State → Prop} (take : ∀ s, P s → P s.takeInput) (rst : ∀ s, P s → P s.rstBlock)
    (effect : ∀ i s t, Effect i s t → P s → P t) {s t : State} (hs : P s) (hstep : step s = .next t) : P t := by
  have hin := take s hs
  obtain ⟨-, h⟩ | ⟨-, h⟩ | ⟨i, -, h⟩ | ⟨-, h⟩ | ⟨-, h⟩ := step_cases s <;> cases h.symm.trans hstep
  · exact hs
  · exact rst _ hin
  · exact effect i _ _ (effect_execState i _) hin
  · exact effect .nop _ _ (effect_illegalBeat rfl _) hin
  · exact hin

/-! ### What PREPARE, UPDATE and FRAME leave -/

section Fields

variable (s : State) (fs : Word)

@[simp] theorem prepareCommit_fs : (prepareCommit .hold fs s).fs = some fs := rfl
@[simp] theorem prepareCommit_prep : (prepareCommit .hold fs s).prep = true := rfl
@[simp] theorem prepareCommit_phase : (prepareCommit .hold fs s).phase = .prepared := rfl
@[simp] theorem prepareCommit_err : (prepareCommit .hold fs s).err = s.err := rfl
@[simp] theorem prepareCommit_snap : (prepareCommit .hold fs s).snap = s.snapBuf := rfl
@[simp] theorem prepareCommit_cells : (prepareCommit .hold fs s).cells = s.cells := rfl
@[simp] theorem prepareCommit_snapMask : (prepareCommit .hold fs s).snapMask = s.snapMask := rfl
@[simp] theorem prepareCommit_scratch : (prepareCommit .hold fs s).scratch = emptyScratch := rfl
@[simp] theorem prepareCommit_inputs : (prepareCommit .hold fs s).inputs = s.inputs := rfl
@[simp] theorem prepareCommit_pos : (prepareCommit .hold fs s).pos = s.pos := rfl
@[simp] theorem prepareCommit_responses :
    (prepareCommit .hold fs s).responses = { st := stWord 0#8 .prepared, rw0 := 0#32, rw1 := 0#32 } :: s.responses := rfl

/-- The chain APPLY makes of a chain when the generator has run on a snapshot at a rate (43_commands.md R166). -/
def generatedChain (N : Num Word) (d : Nat) (p : Snapshot) (fs : Word) (c : Chain Word) : Chain Word :=
  chainConfig N .hold (bwCoef N (d + 16) .hp (N.ofWord p.hpFreq) fs p.hpOrder.toNat) p.hpOrder.toNat
    (bellCoef N d fs (N.ofWord p.bellFreq) (N.ofWord p.bellQ) (N.ofWord p.bellGain))
    (bwCoef N (d + 96) .lp (N.ofWord p.lpFreq) fs p.lpOrder.toNat) p.lpOrder.toNat c

theorem prepareCommit_left :
    (prepareCommit .hold fs (s.snapRead.generate fs)).left =
      generatedChain s.num s.draws s.snapRead.snapBuf fs (chainClear s.num s.left) := by
  simp [prepareCommit, configured, generated, generatedChain]

theorem prepareCommit_right :
    (prepareCommit .hold fs (s.snapRead.generate fs)).right =
      generatedChain s.num s.draws s.snapRead.snapBuf fs (chainClear s.num s.right) := by
  simp [prepareCommit, configured, generated, generatedChain]

/-- PREPARE leaves both channels cleared and configured. -/
theorem prepareCommit_chain (c : Chan) :
    (prepareCommit .hold fs (s.snapRead.generate fs)).chain c =
      generatedChain s.num s.draws s.snapRead.snapBuf fs (chainClear s.num (s.chain c)) := by
  cases c
  · exact prepareCommit_left s fs
  · exact prepareCommit_right s fs

theorem updateCommit_left :
    (updateCommit s).left = generatedChain s.num s.draws s.snapRead.snapBuf s.rate s.left := by
  simp [updateCommit, configured, generated, generatedChain]

theorem updateCommit_right :
    (updateCommit s).right = generatedChain s.num s.draws s.snapRead.snapBuf s.rate s.right := by
  simp [updateCommit, configured, generated, generatedChain]

/-- UPDATE leaves both channels configured. -/
theorem updateCommit_chain (c : Chan) :
    (updateCommit s).chain c = generatedChain s.num s.draws s.snapRead.snapBuf s.rate (s.chain c) := by
  cases c
  · exact updateCommit_left s
  · exact updateCommit_right s

@[simp] theorem updateCommit_fs : (updateCommit s).fs = s.fs := by simp [updateCommit]
@[simp] theorem updateCommit_prep : (updateCommit s).prep = s.prep := by simp [updateCommit]
@[simp] theorem updateCommit_phase : (updateCommit s).phase = s.phase := by simp [updateCommit]
@[simp] theorem updateCommit_err : (updateCommit s).err = s.err := by simp [updateCommit]
@[simp] theorem updateCommit_snap : (updateCommit s).snap = s.snapRead.snapBuf := by simp [updateCommit]
@[simp] theorem updateCommit_cells : (updateCommit s).cells = s.snapRead.cells := by simp [updateCommit]
@[simp] theorem updateCommit_snapBuf : (updateCommit s).snapBuf = s.snapRead.snapBuf := by simp [updateCommit]
@[simp] theorem updateCommit_snapMask : (updateCommit s).snapMask = 0#7 := by simp [updateCommit]
@[simp] theorem updateCommit_scratch : (updateCommit s).scratch = emptyScratch := by simp [updateCommit]
@[simp] theorem updateCommit_inputs : (updateCommit s).inputs = s.inputs := by simp [updateCommit]
@[simp] theorem updateCommit_pos : (updateCommit s).pos = s.pos := by simp [updateCommit]
@[simp] theorem updateCommit_psTurns : (updateCommit s).psTurns = s.psTurns.tail := by simp [updateCommit]
@[simp] theorem updateCommit_elem : (updateCommit s).elem = s.elem := by simp [updateCommit]
@[simp] theorem updateCommit_num : (updateCommit s).num = s.num := by simp [updateCommit]
@[simp] theorem updateCommit_rate : (updateCommit s).rate = s.rate := by simp [State.rate]
@[simp] theorem updateCommit_responses :
    (updateCommit s).responses = { st := stWord 0#8 s.phase, rw0 := 0#32, rw1 := 0#32 } :: s.responses := by
  simp [updateCommit]

/-- FRAME runs one sample through each channel. -/
theorem frameCommit_chain (l r : Word) (c : Chan) :
    ∃ d x, (frameCommit l r s).chain c = chainAfter s.num d (s.chain c) x := by
  cases c <;> exact ⟨_, _, rfl⟩

@[simp] theorem State.respond_chain (code : BitVec 8) (a b : Word) (c : Chan) :
    (s.respond code a b).chain c = s.chain c := by cases c <;> rfl

@[simp] theorem State.raise_chain (code : FaultCode) (c : Chan) : (s.raise code).chain c = s.chain c := by
  cases c <;> rfl

@[simp] theorem State.snapRead_chain (c : Chan) : s.snapRead.chain c = s.chain c := by
  cases c <;> simp

@[simp] theorem State.takeInput_chain (c : Chan) : s.takeInput.chain c = s.chain c := by
  cases c <;> simp

@[simp] theorem generatedChain_bypassed (N : Num Word) (d : Nat) (p : Snapshot) (c : Chain Word) (i : Fin 9) :
    (generatedChain N d p fs c).bypassed i = configuredFlag p.hpOrder.toNat p.lpOrder.toNat i :=
  chainConfig_bypassed ..

end Fields

/-! ### The same configuration -/

theorem SameConfig.refl (a : Chain Word) : SameConfig a a := fun _ => ⟨rfl, rfl⟩

theorem chainClear_sameConfig (N : Num Word) (a : Chain Word) : SameConfig (chainClear N a) a := fun i =>
  ⟨by simp [clearBiquad], by simp⟩

theorem chainAfter_sameConfig (N : Num Word) (d : Nat) (a : Chain Word) (x : Word) :
    SameConfig (chainAfter N d a x) a := fun i => ⟨by simp, by simp⟩

/-- APPLY writes the same words into chains that held the same coefficients. -/
theorem SameConfig.generatedChain {a b : Chain Word} (h : SameConfig a b) (N : Num Word) (d : Nat) (p : Snapshot)
    (fs : Word) : SameConfig (generatedChain N d p fs a) (generatedChain N d p fs b) := fun i =>
  ⟨by simp [Machine.generatedChain, (h i).1], by simp⟩

theorem SameConfig.symm {a b : Chain Word} (h : SameConfig a b) : SameConfig b a := fun i => ⟨(h i).1.symm, (h i).2.symm⟩

theorem SameConfig.trans {a b c : Chain Word} (h : SameConfig a b) (h' : SameConfig b c) : SameConfig a c := fun i =>
  ⟨(h i).1.trans (h' i).1, (h i).2.trans (h' i).2⟩

/-- Chains with the same configuration keep it when each is replaced by one with its own configuration. -/
theorem SameConfig.congr {a b a' b' : Chain Word} (h : SameConfig a b) (ha : SameConfig a' a) (hb : SameConfig b' b) :
    SameConfig a' b' := (ha.trans h).trans hb.symm

/-- Every effect keeps the stereo symmetry: APPLY writes the same words into both channels, CHAIN_CLEAR and CHAIN_STEP touch
delay registers only, and nothing else touches a channel. -/
theorem Effect.stereoSymmetric {i : Instr} {s t : State} (h : Effect i s t) (hs : StereoSymmetric s) :
    StereoSymmetric t := by
  cases h with
  | pset => exact hs
  | faulted => exact hs
  | raise => exact hs
  | snapRaise => simpa [StereoSymmetric] using hs
  | nop => exact hs
  | rds => exact hs
  | prepare hp n fs blk =>
    rw [StereoSymmetric, prepareCommit_left, prepareCommit_right]
    exact (hs.congr (chainClear_sameConfig _ _) (chainClear_sameConfig _ _)).generatedChain _ _ _ _
  | update =>
    rw [StereoSymmetric, updateCommit_left, updateCommit_right]
    exact SameConfig.generatedChain hs _ _ _ _
  | frame hp hu l r =>
    exact SameConfig.congr hs (chainAfter_sameConfig _ _ _ _) (chainAfter_sameConfig _ _ _ _)

/-- Settles O34: RST gives both channels the same chain, and every effect of a command keeps the symmetry. -/
theorem stereoSymmetryKept : Obligations.StereoSymmetryKept := by
  intro s t hs hstep
  refine kept_of_effects (P := StereoSymmetric) (fun s hs => ?take) (fun s _ => SameConfig.refl resetChain)
    (fun i s t h hs => h.stereoSymmetric hs) hs hstep
  case take => simpa [StereoSymmetric] using hs

/-! ### The flags of the latched orders -/

theorem generatedChain_thermometer (N : Num Word) (d : Nat) (p : Snapshot) (fs : Word) (c : Chain Word) :
    ChainThermometer (generatedChain N d p fs c) p.hpOrder.toNat p.lpOrder.toNat :=
  ⟨bankConfig_thermometer .., bankConfig_thermometer ..⟩

/-- The flags alone decide whether they are those of two orders. -/
theorem ChainThermometer.congr {a b : Chain Word} {m n : Nat} (h : ChainThermometer a m n)
    (hab : ∀ i, b.bypassed i = a.bypassed i) : ChainThermometer b m n := by
  have h0 : b.hp.s0.byp = a.hp.s0.byp := hab 0
  have h1 : b.hp.s1.byp = a.hp.s1.byp := hab 1
  have h2 : b.hp.s2.byp = a.hp.s2.byp := hab 2
  have h3 : b.hp.s3.byp = a.hp.s3.byp := hab 3
  have h5 : b.lp.s0.byp = a.lp.s0.byp := hab 5
  have h6 : b.lp.s1.byp = a.lp.s1.byp := hab 6
  have h7 : b.lp.s2.byp = a.lp.s2.byp := hab 7
  have h8 : b.lp.s3.byp = a.lp.s3.byp := hab 8
  simpa only [ChainThermometer, Thermometer, h0, h1, h2, h3, h5, h6, h7, h8] using h

/-- A snapshot that VALIDATE passes has legal orders (R165). -/
theorem ordersLegal_of_validate {α : Type} {N : Num α} {d : Nat} {p : Snapshot} {fs : α} (h : validate N d p fs = none) :
    orderLegal p.hpOrder = true ∧ orderLegal p.lpOrder = true := ((validate_none_iff N d p fs).1 h).1

/-- What the flags are after a command that latched a snapshot: legal orders, and on both channels the flags of them. -/
theorem selectorDecoded_of_latched {t : State} (hprep : t.prep = true)
    (horders : orderLegal t.snap.hpOrder = true ∧ orderLegal t.snap.lpOrder = true)
    (hflags : ∀ c, ChainThermometer (t.chain c) t.snap.hpOrder.toNat t.snap.lpOrder.toNat) : SelectorDecoded t :=
  ⟨fun _ => ⟨horders.1, horders.2, hflags⟩, fun h => absurd (hprep.symm.trans h) (by decide)⟩

/-- A command that runs in PREPARED or RUNNING finds the rate recorded. -/
theorem SelectorDecoded.prep_of_phase {s : State} (hs : SelectorDecoded s) (hp : s.phase ≠ .faulted)
    (hu : s.phase ≠ .uninit) : s.prep = true := by
  by_contra hprep
  obtain ⟨-, h⟩ := hs.2 (Bool.eq_false_of_not_eq_true hprep)
  exact h.elim hu hp

/-- Every effect keeps the flags those of the latched orders: PREPARE and UPDATE latch the snapshot VALIDATE passed and write
its flags, FRAME changes no flag, and a fault leaves all of it but the phase. -/
theorem Effect.selectorDecoded {i : Instr} {s t : State} (h : Effect i s t) (hs : SelectorDecoded s) :
    SelectorDecoded t := by
  cases h with
  | pset => exact hs
  | faulted => exact hs
  | raise => exact ⟨hs.1, fun h => ⟨(hs.2 h).1, .inr rfl⟩⟩
  | snapRaise =>
    refine ⟨fun h => ?_, fun h => ⟨fun c => ?_, .inr rfl⟩⟩
    · simpa using hs.1 (by simpa using h)
    · simpa using (hs.2 (by simpa using h)).1 c
  | nop => exact hs
  | rds => exact hs
  | prepare hp n fs blk hfs hv =>
    refine selectorDecoded_of_latched rfl (ordersLegal_of_validate hv) fun c => ?_
    rw [prepareCommit_chain]
    exact generatedChain_thermometer ..
  | update hp hu hv =>
    refine selectorDecoded_of_latched (by simpa using hs.prep_of_phase hp hu) (by simpa using ordersLegal_of_validate hv)
      fun c => ?_
    rw [updateCommit_chain, updateCommit_snap]
    exact generatedChain_thermometer ..
  | frame hp hu l r =>
    obtain ⟨hhp, hlp, hflags⟩ := hs.1 (hs.prep_of_phase hp hu)
    refine selectorDecoded_of_latched (hs.prep_of_phase hp hu) ⟨hhp, hlp⟩ fun c => ?_
    obtain ⟨d, x, hchain⟩ := frameCommit_chain s l r c
    exact (hflags c).congr fun i => by rw [hchain, chainAfter_bypassed]

theorem resetChain_thermometer : ChainThermometer resetChain 0 0 := by
  unfold ChainThermometer Thermometer
  decide

/-- Settles O35: after RST every flag is 1 and nothing is prepared, and every effect of a command keeps the invariant. -/
theorem selectorDecodedKept : Obligations.SelectorDecodedKept := by
  intro s t hs hstep
  refine kept_of_effects (P := SelectorDecoded) (fun s hs => ?take) (fun s _ => ?rst)
    (fun i s t h hs => h.selectorDecoded hs) hs hstep
  case take => simpa [SelectorDecoded] using hs
  case rst => exact ⟨fun h => Bool.noConfusion h, fun _ => ⟨fun c => by simpa using resetChain_thermometer, .inl rfl⟩⟩

end Sys2Proof.Machine
end

section
/-! SNAP_READ (43_commands.md R164, 20_memory.md R72): what the turns of the two agents leave in the cells and in SNAPBUF. -/

namespace Sys2Proof.Machine

/-! ### The cells -/

theorem State.takeTurns_append (ts us : List Turn) (s : State) :
    State.takeTurns (ts ++ us) s = State.takeTurns us (State.takeTurns ts s) := by
  induction ts generalizing s with
  | nil => rfl
  | cons t ts ih => exact ih _

@[simp] theorem State.readCell_cells (k : Cell) (s : State) : (s.readCell k).cells = s.cells := by
  unfold State.readCell
  split_ifs <;> rfl

theorem State.takeTurns_cells (ts : List Turn) (s : State) : (State.takeTurns ts s).cells = psWrites ts s.cells := by
  induction ts generalizing s with
  | nil => rfl
  | cons t ts ih =>
    rw [State.takeTurns, ih]
    cases t with
    | read k => rw [State.takeTurn, State.readCell_cells, psWrites]
    | pset k v => rfl

theorem psWrites_append_reads (ts : List Turn) (l : List Cell) (p : Snapshot) :
    psWrites (ts ++ l.map .read) p = psWrites ts p := by
  induction ts generalizing p with
  | nil =>
    induction l with
    | nil => rfl
    | cons k l ih => exact ih
  | cons t ts ih => cases t <;> exact ih _

/-! ### The buffer -/

/-- The word of cell `k` at the first turn that reads it. -/
def firstRead (k : Cell) : List Turn → Snapshot → Option Word
  | [], _ => none
  | .read j :: ts, p => if j = k then some (p.get k) else firstRead k ts p
  | .pset j v :: ts, p => firstRead k ts (p.set j v)

theorem cellBit_and_cellBit (j k : Cell) : cellBit j &&& cellBit k = 0#7 ↔ j ≠ k := by
  cases j <;> cases k <;> decide

/-- Marking cell `j` as read marks no other cell. -/
theorem mask_or_cellBit (m : BitVec 7) (j k : Cell) :
    (m ||| cellBit j) &&& cellBit k = 0#7 ↔ m &&& cellBit k = 0#7 ∧ j ≠ k := by
  rw [← cellBit_and_cellBit, BitVec.and_comm, BitVec.and_or_distrib_left, BitVec.or_eq_zero_iff, BitVec.and_comm m,
    BitVec.and_comm (cellBit j)]

theorem State.readCell_of_read {k : Cell} {s : State} (h : s.snapMask &&& cellBit k ≠ 0#7) : s.readCell k = s := if_neg h

theorem State.readCell_of_unread {k : Cell} {s : State} (h : s.snapMask &&& cellBit k = 0#7) :
    s.readCell k = { s with snapBuf := s.snapBuf.set k (s.cells.get k), snapMask := s.snapMask ||| cellBit k } := if_pos h

/-- A cell that was read keeps its word in SNAPBUF. -/
theorem State.takeTurns_snapBuf_of_read {k : Cell} (ts : List Turn) {s : State} (h : s.snapMask &&& cellBit k ≠ 0#7) :
    (State.takeTurns ts s).snapBuf.get k = s.snapBuf.get k := by
  induction ts generalizing s with
  | nil => rfl
  | cons t ts ih =>
    rw [State.takeTurns]
    cases t with
    | pset j v => exact ih h
    | read j =>
      rw [State.takeTurn]
      by_cases hj : s.snapMask &&& cellBit j = 0#7
      · have hkj : k ≠ j := fun e => h (e ▸ hj)
        rw [State.readCell_of_unread hj, ih (mt (mask_or_cellBit _ j k).1 fun h' => h h'.1)]
        exact Snapshot.get_set_other _ _ hkj
      · rw [State.readCell_of_read hj, ih h]

/-- A cell not yet read takes the word it holds at its first read. -/
theorem State.takeTurns_snapBuf_of_unread {k : Cell} (ts : List Turn) {s : State} (h : s.snapMask &&& cellBit k = 0#7) :
    (State.takeTurns ts s).snapBuf.get k = (firstRead k ts s.cells).getD (s.snapBuf.get k) := by
  induction ts generalizing s with
  | nil => rfl
  | cons t ts ih =>
    rw [State.takeTurns]
    cases t with
    | pset j v => exact ih h
    | read j =>
      rw [State.takeTurn, firstRead]
      by_cases hj : s.snapMask &&& cellBit j = 0#7
      · rw [State.readCell_of_unread hj]
        by_cases hjk : j = k
        · subst hjk
          rw [if_pos rfl, State.takeTurns_snapBuf_of_read ts (mt (mask_or_cellBit _ j j).1 fun h' => h'.2 rfl)]
          exact Snapshot.get_set_same ..
        · rw [if_neg hjk, ih ((mask_or_cellBit _ j k).2 ⟨h, hjk⟩)]
          exact congrArg _ (Snapshot.get_set_other _ _ (Ne.symm hjk))
      · have hjk : j ≠ k := fun e => hj (e ▸ h)
        rw [State.readCell_of_read hj, if_neg hjk, ih h]

theorem firstRead_reads_append (k : Cell) (l : List Cell) (ts : List Turn) (p : Snapshot) :
    firstRead k (l.map .read ++ ts) p = if k ∈ l then some (p.get k) else firstRead k ts p := by
  induction l with
  | nil => simp
  | cons j l ih =>
    simp only [List.map_cons, List.cons_append, firstRead, ih, List.mem_cons]
    by_cases hj : j = k
    · simp [hj]
    · simp [hj, Ne.symm hj]

theorem mem_allCells (k : Cell) : k ∈ allCells := by cases k <;> decide

/-- With the seven reads behind them, some turns leave every cell read: at a listed turn, or at the end. -/
theorem firstRead_append_allCells (k : Cell) (ts : List Turn) (p : Snapshot) :
    firstRead k (ts ++ allCells.map .read) p = some ((firstRead k ts p).getD ((psWrites ts p).get k)) := by
  induction ts generalizing p with
  | nil => simpa [mem_allCells, firstRead, psWrites] using firstRead_reads_append k allCells [] p
  | cons t ts ih =>
    cases t with
    | pset j v => exact ih _
    | read j =>
      by_cases hj : j = k
      · simp [firstRead, hj]
      · simpa [firstRead, hj, psWrites] using ih p

/-- SNAP_READ as one list of turns: the listed ones, then the seven reads. -/
theorem State.snapRead_eq (s : State) :
    s.snapRead =
      { State.takeTurns (s.psTurns.headD [] ++ allCells.map .read)
          { s with snapMask := 0#7, psTurns := s.psTurns.tail } with snapMask := 0#7 } := by
  rw [State.takeTurns_append]
  rfl

/-- The cells after a SNAP_READ are those its PSETs left. -/
@[simp] theorem State.snapRead_cells (s : State) : s.snapRead.cells = psWrites (s.psTurns.headD []) s.cells := by
  rw [State.snapRead_eq]
  exact (State.takeTurns_cells ..).trans (psWrites_append_reads ..)

/-- Each word of the snapshot is that of the cell's first listed read, or of the end. -/
theorem State.snapRead_snapBuf_get (s : State) (k : Cell) :
    s.snapRead.snapBuf.get k =
      (firstRead k (s.psTurns.headD []) s.cells).getD ((psWrites (s.psTurns.headD []) s.cells).get k) := by
  rw [State.snapRead_eq]
  refine (State.takeTurns_snapBuf_of_unread (k := k) _ (BitVec.zero_and)).trans ?_
  rw [firstRead_append_allCells, Option.getD_some]

/-- With no listed turn the snapshot is the cells. -/
theorem State.snapRead_snapBuf_of_quiet {s : State} (h : s.psTurns.headD [] = []) : s.snapRead.snapBuf = s.cells :=
  Snapshot.ext_get fun k => by rw [State.snapRead_snapBuf_get, h]; rfl

/-- The word of a first read is the cell's word after the turns before it. -/
theorem firstRead_eq_some {k : Cell} {ts : List Turn} {p : Snapshot} {w : Word} (h : firstRead k ts p = some w) :
    ∃ before after, ts = before ++ after ∧ w = (psWrites before p).get k := by
  induction ts generalizing p with
  | nil => cases h
  | cons t ts ih =>
    cases t with
    | pset j v =>
      obtain ⟨before, after, rfl, hw⟩ := ih h
      exact ⟨.pset j v :: before, after, rfl, hw⟩
    | read j =>
      by_cases hj : j = k
      · rw [firstRead, if_pos hj] at h
        exact ⟨[], _, rfl, (Option.some.inj h).symm⟩
      · rw [firstRead, if_neg hj] at h
        obtain ⟨before, after, rfl, hw⟩ := ih h
        exact ⟨.read j :: before, after, rfl, hw⟩

/-! ### Torn snapshots -/

/-- Turns with given PSETs in which each cell is read after the number of PSETs chosen for it. -/
def tornTurns : List (Cell × Word) → (Cell → Nat) → List Turn
  | [], _ => []
  | (k, v) :: ws, instant =>
    (allCells.filter (instant · = 0)).map .read ++ .pset k v :: tornTurns ws fun j => instant j - 1

theorem psetsOf_reads_append (l : List Cell) (ts : List Turn) : psetsOf (l.map .read ++ ts) = psetsOf ts := by
  induction l with
  | nil => rfl
  | cons k l ih => exact ih

theorem psetsOf_tornTurns (ws : List (Cell × Word)) (instant : Cell → Nat) : psetsOf (tornTurns ws instant) = ws := by
  induction ws generalizing instant with
  | nil => rfl
  | cons w ws ih => rw [tornTurns, psetsOf_reads_append, psetsOf, ih]

theorem psWrites_eq_writeAll (ts : List Turn) (p : Snapshot) : psWrites ts p = writeAll (psetsOf ts) p := by
  induction ts generalizing p with
  | nil => rfl
  | cons t ts ih => cases t <;> exact ih _

/-- Each cell's word is that after the chosen number of PSETs. -/
theorem firstRead_tornTurns (k : Cell) (ws : List (Cell × Word)) (instant : Cell → Nat) (p : Snapshot) :
    (firstRead k (tornTurns ws instant) p).getD ((writeAll ws p).get k) = (writeAll (ws.take (instant k)) p).get k := by
  induction ws generalizing instant p with
  | nil => simp [tornTurns, firstRead]
  | cons w ws ih =>
    rw [tornTurns, firstRead_reads_append]
    by_cases hk : instant k = 0
    · simp [mem_allCells, hk, writeAll]
    · obtain ⟨n, hn⟩ := Nat.exists_eq_succ_of_ne_zero hk
      have ih := ih (fun j => instant j - 1) (p.set w.1 w.2)
      simpa [hk, hn, firstRead, writeAll] using ih

/-! ### The statements -/

/-- Settles O31: a quiet SNAP_READ reads every cell at the end. -/
theorem quietSnapshotIsTheCells : Obligations.QuietSnapshotIsTheCells := by
  intro s h
  exact ⟨State.snapRead_snapBuf_of_quiet h, by rw [State.snapRead_cells, h]; rfl, State.snapRead_snapMask s⟩

/-- Settles O32: the instant of a word is that of its cell's first listed read, or the end of the turns. -/
theorem snapshotWordsWereInTheirCells : Obligations.SnapshotWordsWereInTheirCells := by
  intro s
  refine ⟨State.snapRead_cells s, fun k => ?_⟩
  rw [State.snapRead_snapBuf_get]
  cases hread : firstRead k (s.psTurns.headD []) s.cells with
  | some w => exact firstRead_eq_some hread
  | none => exact ⟨_, [], (List.append_nil _).symm, rfl⟩

/-- Settles O33: `tornTurns` places the read of each cell behind the chosen number of PSETs. -/
theorem everyTornSnapshotOccurs : Obligations.EveryTornSnapshotOccurs := by
  intro s writes instant later
  refine ⟨tornTurns writes instant, psetsOf_tornTurns writes instant, fun k => ?_⟩
  rw [State.snapRead_snapBuf_get, List.headD_cons, psWrites_eq_writeAll, psetsOf_tornTurns]
  exact firstRead_tornTurns k writes instant s.cells

end Sys2Proof.Machine
end

section
/-! The step and the rules about every command (10_state.md R29, R36, R40; 30_encoding.md R84; 43_commands.md R160). -/

namespace Sys2Proof.Machine

/-! ### Codes and status words -/

theorem FaultCode.bits_ne_zero (code : FaultCode) : code.bits ≠ 0#8 := by cases code <;> decide

theorem FaultCode.bits_toNat_le (code : FaultCode) : code.bits.toNat ≤ 7 := by cases code <;> decide

section StWord

variable (code : BitVec 8) (phase : Phase)

theorem stWord_eq_append : stWord code phase = (0#22 ++ phase.bits) ++ code := rfl

theorem stWord_code : (stWord code phase).extractLsb' 0 8 = code := by
  rw [stWord_eq_append, BitVec.extractLsb'_append_eq_of_add_le (by decide), BitVec.extractLsb'_eq_self]

theorem stWord_phase : (stWord code phase).extractLsb' 8 2 = phase.bits := by
  rw [stWord_eq_append, BitVec.extractLsb'_append_eq_of_le (by decide),
    BitVec.extractLsb'_append_eq_of_add_le (by decide), BitVec.extractLsb'_eq_self]

theorem stWord_zeros : (stWord code phase).extractLsb' 10 22 = 0#22 := by
  rw [stWord_eq_append, BitVec.extractLsb'_append_eq_of_le (by decide), BitVec.extractLsb'_append_eq_of_le (by decide),
    BitVec.extractLsb'_eq_self]

end StWord

/-! ### Which event moves the position -/

/-- No PSET is a command. -/
theorem psetOf_ne_of_isCommand {i : Instr} (hi : isCommand i = true) (k : Cell) (v : Word) : psetOf k v ≠ i := by
  rintro rfl
  simp at hi

/-- A beat that decodes moves the position by one when it is a command (10_state.md R36). -/
theorem inputAdvance_of_instr {b : Beat} {i : Instr} (h : decode b = .instr i) :
    inputAdvance (.beat b) = if isCommand i = true then 1 else 0 := by
  cases b with
  | command bits =>
    obtain ⟨j, hj, hdec⟩ | ⟨why, -, hdec⟩ := decode_command_cases bits
    · obtain rfl : j = i := by simpa [hdec] using h
      rw [if_pos hj, inputAdvance]
    · simp [hdec] at h
  | parameter bits =>
    obtain hk | ⟨c, hc⟩ := cellNumber_cases (kOf bits)
    · simp [decode_parameter_reserved hk] at h
    · rw [← parameterBits_fields bits, hc, decode_parameter_cell] at h
      obtain rfl : psetOf c _ = i := by simpa using h
      simp [inputAdvance]

/-- A rejected beat moves the position unless it is the reserved parameter beat. -/
theorem inputAdvance_of_rejected {b : Beat} {why : Rejected} (h : decode b = .rejected why) :
    inputAdvance (.beat b) = if why = .reservedCell then 0 else 1 := by
  cases b with
  | command bits =>
    obtain ⟨i, -, hdec⟩ | ⟨why', hwhy, hdec⟩ := decode_command_cases bits
    · simp [hdec] at h
    · obtain rfl : why' = why := by simpa [hdec] using h
      rw [if_neg hwhy, inputAdvance]
  | parameter bits =>
    obtain hk | ⟨c, hc⟩ := cellNumber_cases (kOf bits)
    · obtain rfl : .reservedCell = why := by simpa [decode_parameter_reserved hk] using h
      simp [inputAdvance]
    · rw [← parameterBits_fields bits, hc, decode_parameter_cell] at h
      cases h

/-! ### The step on its event -/

/-- What an event does to the state from which it was taken. -/
def eventState : Event → State → State
  | .idle, s => s
  | .rst, s => s.rstBlock
  | .instr i, s => execState i s
  | .illegal, s => s.illegalBeat
  | .dropped, s => s

theorem State.takeInput_idle {s : State} (h : s.inputs = []) : s.takeInput = s := by
  simp [State.takeInput, h]

theorem State.inputs_of_idle {s : State} (h : s.nextEvent = .idle) : s.inputs = [] := by
  unfold State.nextEvent at h
  split at h
  next hin => exact hin
  next => cases h
  next b _ _ =>
    unfold beatEvent at h
    split at h <;> cases h

/-- A step takes the head event and does what the event does. -/
theorem step_eq (s : State) : step s = .next (eventState s.nextEvent s.takeInput) := by
  obtain ⟨he, h⟩ | ⟨he, h⟩ | ⟨i, he, h⟩ | ⟨he, h⟩ | ⟨he, h⟩ := step_cases s
  · rw [h, he, State.takeInput_idle (State.inputs_of_idle he), eventState]
  all_goals rw [h, he, eventState]

/-- By how many responses an event is answered. -/
def eventResponses : Event → Nat
  | .idle => 0
  | .rst => 0
  | .instr i => if isCommand i = true then 1 else 0
  | .illegal => 1
  | .dropped => 0

/-- An effect takes no event, moves no position, and emits one response for a command and none for a PSET. -/
theorem Effect.run {i : Instr} {s t : State} (h : Effect i s t) :
    t.inputs = s.inputs ∧ t.pos = s.pos ∧
      t.responses.length = s.responses.length + if isCommand i = true then 1 else 0 := by
  cases h with
  | pset => simp
  | faulted hi => simp [hi]
  | raise hi => simp [hi]
  | snapRaise hi => simp [hi]
  | nop => simp [isCommand]
  | rds => simp [isCommand]
  | prepare => simp [isCommand]
  | update => simp [isCommand]
  | frame => simp [isCommand, frameCommit]

theorem eventState_run (e : Event) (s : State) :
    (eventState e s).inputs = s.inputs ∧ (eventState e s).pos = s.pos ∧
      (eventState e s).responses.length = s.responses.length + eventResponses e := by
  cases e with
  | idle => exact ⟨rfl, rfl, rfl⟩
  | rst => exact ⟨rfl, rfl, rfl⟩
  | instr i => exact (effect_execState i s).run
  | illegal => exact (effect_illegalBeat (i := .nop) rfl s).run
  | dropped => exact ⟨rfl, rfl, rfl⟩

/-- An event is answered as often as it moves the position: once for a command beat, legal or not. -/
theorem eventResponses_nextEvent {s : State} {i : Input} {rest : List Input} (h : s.inputs = i :: rest) :
    eventResponses s.nextEvent = inputAdvance i := by
  cases i with
  | rst => simp [State.nextEvent, h, eventResponses, inputAdvance]
  | beat b =>
    rw [State.nextEvent_beat h, beatEvent]
    cases hb : decode b with
    | instr i => rw [inputAdvance_of_instr hb]; rfl
    | rejected why =>
      rw [inputAdvance_of_rejected hb]
      cases why <;> rfl

/-- A step on a list of events takes the head; the position and the number of responses grow by one for a command beat. -/
theorem step_cons {s : State} {i : Input} {rest : List Input} (h : s.inputs = i :: rest) :
    ∃ t, step s = .next t ∧ t.inputs = rest ∧ t.pos = s.pos + inputAdvance i ∧
      t.responses.length = s.responses.length + inputAdvance i := by
  obtain ⟨hin, hpos, hresp⟩ := eventState_run s.nextEvent s.takeInput
  refine ⟨_, step_eq s, ?_, ?_, ?_⟩
  · rw [hin, State.takeInput_inputs, h, List.tail_cons]
  · rw [hpos, State.takeInput_cons h]
  · rw [hresp, State.takeInput_responses, eventResponses_nextEvent h]

theorem step_nil {s : State} (h : s.inputs = []) : step s = .next s := by simp [step, State.nextEvent, h]

/-- Settles O4: with no event the step answers the same state; with one, it takes it and the position moves by the advance
of that input. -/
theorem positionAdvancesByCommands : Obligations.PositionAdvancesByCommands := by
  intro s
  cases hs : s.inputs with
  | nil => exact ⟨s, step_nil hs, hs, rfl⟩
  | cons i rest =>
    obtain ⟨t, hstep, hin, hpos, -⟩ := step_cons hs
    refine ⟨t, hstep, hin, hpos.trans ?_⟩
    rcases i with (bits | bits) | _ <;> rfl

/-- Settles O3: the beat is taken and its instruction runs; the advance of a beat that decodes is that of its
instruction. -/
theorem stepRunsDecodedInstruction : Obligations.StepRunsDecodedInstruction := by
  intro s b rest i hin hb
  rw [step_of_instr hin hb, exec_eq, State.takeInput_cons hin, inputAdvance_of_instr hb]

/-- Settles O2: RST leaves `rstBlock` of the state with the event taken; with no event the step answers the state itself. -/
theorem rstResetsAndIdleWaits : Obligations.RstResetsAndIdleWaits := by
  refine ⟨fun s rest hin => ⟨_, step_of_rst hin, ⟨rfl, rfl, rfl, rfl, rfl, rfl, rfl, rfl, rfl, rfl, rfl⟩, ?_⟩,
    fun s hin => step_nil hin⟩
  rw [State.takeInput_cons hin]
  exact ⟨rfl, rfl, rfl, rfl, rfl⟩

/-- Settles O16: each PSET writes its own cell. -/
theorem psetStoresItsCell : Obligations.PsetStoresItsCell := by
  intro s v
  have hpset (k : Cell) : exec (psetOf k v) s = .next { s with cells := s.cells.set k v } := by
    rw [exec_eq, execState_psetOf]
    rfl
  exact ⟨hpset .hpFreq, hpset .lpFreq, hpset .bellFreq, hpset .bellGain, hpset .bellQ, hpset .hpOrder, hpset .lpOrder⟩

/-! ### Invariants -/

/-- The check of PREPARE on a sample rate is R27's condition on a recorded one. -/
theorem positive_num_iff (s : State) (w : Word) :
    positive s.num w = true ↔ F32.isFinite w = true ∧ F32.lt F32.zero w = true := Bool.and_eq_true_iff

/-- Every effect keeps PHASE, PREP and FS in agreement: only PREPARE writes PREP and FS, both together and the rate checked,
and only a command that runs outside UNINIT enters RUNNING. -/
theorem Effect.rateRecorded {i : Instr} {s t : State} (h : Effect i s t) (hs : RateRecorded s) : RateRecorded t := by
  cases h with
  | pset => exact hs
  | faulted => exact hs
  | raise => exact ⟨fun h => by simp at h, hs.2⟩
  | snapRaise => exact ⟨fun h => by simp at h, by simpa using hs.2⟩
  | nop => exact hs
  | rds => exact hs
  | prepare hp n fs blk hfs hv =>
    refine ⟨fun _ => rfl, by simp, fun f hf => ?_⟩
    obtain rfl : fs = f := by simpa using hf
    exact (positive_num_iff s fs).1 hfs
  | update => simpa [RateRecorded] using hs
  | frame hp hu l r =>
    refine ⟨fun _ => hs.1 ?_, hs.2⟩
    cases hphase : s.phase with
    | uninit => exact absurd hphase hu
    | prepared => exact .inl rfl
    | running => exact .inr rfl
    | faulted => exact absurd hphase hp

/-- Settles O36: after RST nothing is recorded, and every effect of a command keeps the agreement. -/
theorem rateRecordedKept : Obligations.RateRecordedKept := by
  intro s t hs hstep
  refine kept_of_effects (P := RateRecorded) (fun s hs => by simpa [RateRecorded] using hs) (fun s _ => ?rst)
    (fun i s t h hs => h.rateRecorded hs) hs hstep
  case rst => simp [RateRecorded, State.reset]

/-- Outside FAULTED, ERR is 0. -/
theorem ErrMatchesPhase.err_eq_zero {s : State} (hs : ErrMatchesPhase s) (hp : s.phase ≠ .faulted) : s.err = 0#8 :=
  not_not.1 (mt hs.1.2 hp)

/-- Fault entry writes the code where ERR is 0. -/
theorem errMatchesPhase_of_raised {t : State} {code : FaultCode} (hphase : t.phase = .faulted) (herr : t.err = code.bits) :
    ErrMatchesPhase t := by
  rw [ErrMatchesPhase, hphase, herr]
  exact ⟨⟨fun _ => code.bits_ne_zero, fun _ => rfl⟩, code.bits_toNat_le⟩

/-- A state outside FAULTED with ERR 0 agrees. -/
theorem errMatchesPhase_of_ok {t : State} (hphase : t.phase ≠ .faulted) (herr : t.err = 0#8) : ErrMatchesPhase t := by
  simp [ErrMatchesPhase, hphase, herr]

/-- Every effect keeps ERR and PHASE in agreement: only fault entry writes ERR, with a code, and enters FAULTED. -/
theorem Effect.errMatchesPhase {i : Instr} {s t : State} (h : Effect i s t) (hs : ErrMatchesPhase s) :
    ErrMatchesPhase t := by
  cases h with
  | pset => exact hs
  | faulted => exact hs
  | raise hi hp code => exact errMatchesPhase_of_raised (code := code) rfl (by simp [hs.err_eq_zero hp])
  | snapRaise hi hp code => exact errMatchesPhase_of_raised (code := code) rfl (by simp [hs.err_eq_zero hp])
  | nop => exact hs
  | rds => exact hs
  | prepare hp => exact errMatchesPhase_of_ok (by simp) (by simpa using hs.err_eq_zero hp)
  | update hp => exact errMatchesPhase_of_ok (by simpa using hp) (by simpa using hs.err_eq_zero hp)
  | frame hp => exact errMatchesPhase_of_ok (by simp [frameCommit]) (hs.err_eq_zero hp)

/-- Settles O37: RST leaves ERR 0 and UNINIT, and every effect of a command keeps the agreement. -/
theorem errMatchesPhaseKept : Obligations.ErrMatchesPhaseKept := by
  intro s t hs hstep
  exact kept_of_effects (P := ErrMatchesPhase) (fun s hs => by simpa [ErrMatchesPhase] using hs)
    (fun s _ => errMatchesPhase_of_ok (by simp [State.reset]) rfl) (fun i s t h hs => h.errMatchesPhase hs) hs hstep

/-- Every effect leaves the hidden state empty: SNAP_READ clears its mask, APPLY empties the scratch buffers, and a fault
comes before the generator. -/
theorem Effect.hiddenEmpty {i : Instr} {s t : State} (h : Effect i s t) (hs : HiddenEmpty s) : HiddenEmpty t := by
  cases h with
  | pset => exact hs
  | faulted => exact hs
  | raise => exact hs
  | snapRaise => exact ⟨by simp, by simpa using hs.2⟩
  | nop => exact hs
  | rds => exact hs
  | prepare => exact ⟨by simp, rfl⟩
  | update => exact ⟨by simp, by simp⟩
  | frame => exact hs

/-- Settles O38: RST empties the hidden state, and every effect of a command leaves it empty. -/
theorem hiddenEmptyKept : Obligations.HiddenEmptyKept := by
  intro s t hs hstep
  exact kept_of_effects (P := HiddenEmpty) (fun s hs => by simpa [HiddenEmpty] using hs) (fun s _ => ⟨rfl, rfl⟩)
    (fun i s t h hs => h.hiddenEmpty hs) hs hstep

/-- Settles O39: a step adds to the responses what it adds to the position. -/
theorem answeredEachKept : Obligations.AnsweredEachKept := by
  intro s t hs hstep
  cases hin : s.inputs with
  | nil =>
    cases (step_nil hin).symm.trans hstep
    exact hs
  | cons i rest =>
    obtain ⟨t', hstep', -, hpos, hresp⟩ := step_cons hin
    cases hstep'.symm.trans hstep
    rw [AnsweredEach] at hs ⊢
    rw [hpos, hresp, hs]

/-- Settles O40: each invariant of the reset state, whose channels are the same reset chain. -/
theorem resetMeetsTheInvariants : Obligations.ResetMeetsTheInvariants := by
  refine ⟨SameConfig.refl resetChain, ?flags, by simp [RateRecorded, State.reset],
    errMatchesPhase_of_ok (by decide) rfl, ⟨rfl, rfl⟩, rfl⟩
  case flags =>
    exact ⟨fun h => Bool.noConfusion h, fun _ => ⟨fun c => by cases c <;> exact resetChain_thermometer, .inl rfl⟩⟩

/-! ### Rules about every command -/

/-- Settles O42: the effects that end in FAULTED are the two forms of fault entry, before and after the SNAP_READ. -/
theorem faultsWriteNothingElse : Obligations.FaultsWriteNothingElse := by
  intro i s t hi hp hexec ht
  cases effect_of_exec hexec with
  | pset => exact absurd ht hp
  | faulted _ hf => exact absurd hf hp
  | raise _ _ code => exact ⟨rfl, rfl, rfl, rfl, rfl, rfl, code, rfl, by simp [stWord_faulted]⟩
  | snapRaise _ _ code =>
    exact ⟨by simp, by simp, by simp, by simp, by simp, by simp, code, by simp, by simp [stWord_faulted]⟩
  | nop => exact absurd ht hp
  | rds => exact absurd ht hp
  | prepare => cases ht
  | update => exact absurd ht (by simpa using hp)
  | frame => cases ht

/-- Settles O43: the phase each effect leaves. -/
theorem phaseTransitions : Obligations.PhaseTransitions := by
  intro i s t hexec
  cases effect_of_exec hexec with
  | pset k v =>
    refine ⟨id, fun _ => rfl, fun _ _ => ⟨?_, ?_, ?_, ?_, ?_⟩, fun hp ht => absurd ht hp⟩
    · exact fun n fs blk h => absurd h (psetOf_ne_of_isCommand rfl k v)
    · exact fun l r h => absurd h (psetOf_ne_of_isCommand rfl k v)
    · exact fun h => absurd h (psetOf_ne_of_isCommand rfl k v)
    · exact fun h => absurd h (psetOf_ne_of_isCommand rfl k v)
    · exact fun sel h => absurd h (psetOf_ne_of_isCommand rfl k v)
  | faulted hi hf => exact ⟨id, fun _ => rfl, fun hp => absurd hf hp, fun hp => absurd hf hp⟩
  | raise hi hp code =>
    refine ⟨fun _ => rfl, by simp [hi], fun _ ht => absurd rfl ht, fun _ _ => ?_⟩
    simp only [State.raise_err]
    split_ifs with herr
    · exact code.bits_ne_zero
    · exact herr
  | snapRaise hi hp code =>
    refine ⟨fun _ => rfl, by simp [hi], fun _ ht => absurd rfl ht, fun _ _ => ?_⟩
    simp only [State.raise_err, State.snapRead_err]
    split_ifs with herr
    · exact code.bits_ne_zero
    · exact herr
  | nop hp => exact ⟨id, nofun, fun _ _ => ⟨nofun, nofun, nofun, fun _ => rfl, nofun⟩, fun _ ht => absurd ht hp⟩
  | rds hp => exact ⟨id, nofun, fun _ _ => ⟨nofun, nofun, nofun, nofun, fun _ _ => rfl⟩, fun _ ht => absurd ht hp⟩
  | prepare hp =>
    exact ⟨fun hf => absurd hf hp, nofun, fun _ _ => ⟨fun _ _ _ _ => rfl, nofun, nofun, nofun, nofun⟩, nofun⟩
  | update hp hu =>
    exact ⟨fun hf => absurd hf hp, nofun, fun _ _ => ⟨nofun, nofun, fun _ => ⟨hu, by simp⟩, nofun, nofun⟩,
      fun _ ht => absurd ht (by simpa using hp)⟩
  | frame hp hu =>
    exact ⟨fun hf => absurd hf hp, nofun, fun _ _ => ⟨nofun, fun _ _ _ => ⟨hu, rfl⟩, nofun, nofun, nofun⟩, nofun⟩

end Sys2Proof.Machine
end

section
/-! The form of a response, the rights to write, and the end of a run (30_encoding.md R84; 10_state.md R40; 43_commands.md
R172). -/

namespace Sys2Proof.Machine

/-! ### Responses -/

/-- What R84 says of the fields of ST, for a code and a phase. -/
theorem stWord_fields (code : BitVec 8) (phase : Phase) :
    (stWord code phase).extractLsb' 0 8 = code ∧ (stWord code phase).extractLsb' 8 2 = phase.bits ∧
      (stWord code phase).extractLsb' 10 22 = 0#22 :=
  ⟨stWord_code .., stWord_phase .., stWord_zeros ..⟩

/-- Settles O44: every effect of a command puts one response on the list, whose code is the one then in ERR: 0 where the
command completed, the code of fault entry, or the old one in FAULTED. -/
theorem responseFormat : Obligations.ResponseFormat := by
  intro i s t hs hexec
  cases effect_of_exec hexec with
  | pset k v => exact ⟨fun _ => rfl, by simp⟩
  | faulted hi hf =>
    refine ⟨by simp [hi], fun _ => ⟨_, rfl, ?_⟩⟩
    obtain ⟨hcode, hphase, hzero⟩ := stWord_fields s.err s.phase
    exact ⟨hcode, hphase, hzero, fun _ => ⟨rfl, rfl⟩, fun _ => rfl, fun _ _ => rfl⟩
  | raise hi hp code =>
    refine ⟨by simp [hi], fun _ => ⟨_, rfl, ?_⟩⟩
    obtain ⟨hcode, hphase, hzero⟩ := stWord_fields code.bits .faulted
    exact ⟨by simpa [hs.err_eq_zero hp] using hcode, hphase, hzero, fun _ => ⟨rfl, rfl⟩, fun _ => rfl, fun _ _ => rfl⟩
  | snapRaise hi hp code =>
    refine ⟨by simp [hi], fun _ => ⟨_, by rw [State.raise_responses, State.snapRead_responses], ?_⟩⟩
    obtain ⟨hcode, hphase, hzero⟩ := stWord_fields code.bits .faulted
    exact ⟨by simpa [hs.err_eq_zero hp] using hcode, hphase, hzero, fun _ => ⟨rfl, rfl⟩, fun _ => rfl, fun _ _ => rfl⟩
  | nop hp =>
    refine ⟨nofun, fun _ => ⟨_, rfl, ?_⟩⟩
    obtain ⟨hcode, hphase, hzero⟩ := stWord_fields 0#8 s.phase
    exact ⟨hcode.trans (hs.err_eq_zero hp).symm, hphase, hzero, fun _ => ⟨rfl, rfl⟩, fun _ => rfl, fun _ _ => rfl⟩
  | rds hp sel w =>
    refine ⟨nofun, fun _ => ⟨_, rfl, ?_⟩⟩
    obtain ⟨hcode, hphase, hzero⟩ := stWord_fields 0#8 s.phase
    exact ⟨hcode.trans (hs.err_eq_zero hp).symm, hphase, hzero, fun h => absurd (hs.err_eq_zero hp) h, fun _ => rfl,
      fun _ h => absurd rfl (h sel)⟩
  | prepare hp n fs blk =>
    refine ⟨nofun, fun _ => ⟨{ st := stWord 0#8 .prepared, rw0 := 0#32, rw1 := 0#32 }, by simp, ?_⟩⟩
    obtain ⟨hcode, hphase, hzero⟩ := stWord_fields 0#8 .prepared
    exact ⟨by simpa [hs.err_eq_zero hp] using hcode, hphase, hzero, fun _ => ⟨rfl, rfl⟩, fun _ => rfl, fun _ _ => rfl⟩
  | update hp hu =>
    refine ⟨nofun, fun _ => ⟨{ st := stWord 0#8 s.phase, rw0 := 0#32, rw1 := 0#32 }, by simp, ?_⟩⟩
    obtain ⟨hcode, hphase, hzero⟩ := stWord_fields 0#8 s.phase
    exact ⟨by simpa [hs.err_eq_zero hp] using hcode, by simpa using hphase, hzero,
      fun _ => ⟨rfl, rfl⟩, fun _ => rfl, fun _ _ => rfl⟩
  | frame hp hu l r =>
    refine ⟨nofun, fun _ => ⟨_, rfl, ?_⟩⟩
    obtain ⟨hcode, hphase, hzero⟩ := stWord_fields 0#8 .running
    exact ⟨hcode.trans (hs.err_eq_zero hp).symm, hphase, hzero, fun h => absurd (hs.err_eq_zero hp) h,
      fun h => absurd rfl (h l r), fun h _ => absurd rfl (h l r)⟩

/-! ### Rights to write -/

theorem SameDelays.refl (a : Chain Word) : SameDelays a a := fun _ => ⟨rfl, rfl⟩

/-- Under HOLD, APPLY keeps the delay registers (42_stage_bank_chain.md R145, R148). -/
theorem generatedChain_sameDelays (N : Num Word) (d : Nat) (p : Snapshot) (fs : Word) (c : Chain Word) :
    SameDelays (generatedChain N d p fs c) c := fun i => by
  rw [generatedChain, chainConfig_hold_stage]
  exact ⟨rfl, rfl⟩

/-- What R40 asks of an instruction that writes no channel, no FS, no SNAP and no PREP. -/
theorem writeRights_of_kept {i : Instr} {s t : State} (hleft : t.left = s.left) (hright : t.right = s.right)
    (hsnap : t.snap = s.snap) (hfs : t.fs = s.fs) (hprep : t.prep = s.prep)
    (hphase : t.phase ≠ s.phase → t.phase = .faulted) (herr : t.err ≠ s.err → t.phase = .faulted ∧ s.err = 0#8)
    (hcells : isCommand i = true → t.cells = s.cells ∨ t.cells = psWrites (s.psTurns.headD []) s.cells) :
    ((∀ n fs blk, i ≠ .prepare n fs blk) → i ≠ .update → SameConfig t.left s.left ∧ SameConfig t.right s.right ∧
        t.snap = s.snap) ∧
      ((∀ n fs blk, i ≠ .prepare n fs blk) → (∀ l r, i ≠ .frame l r) → SameDelays t.left s.left ∧
        SameDelays t.right s.right) ∧
      ((∀ n fs blk, i ≠ .prepare n fs blk) → t.fs = s.fs ∧ t.prep = s.prep) ∧
      (t.phase ≠ s.phase → t.phase = .faulted ∨ (∃ n fs blk, i = .prepare n fs blk) ∨ ∃ l r, i = .frame l r) ∧
      (t.err ≠ s.err → t.phase = .faulted ∧ s.err = 0#8) ∧
      (isCommand i = true → t.cells = s.cells ∨ t.cells = psWrites (s.psTurns.headD []) s.cells) := by
  rw [hleft, hright]
  exact ⟨fun _ _ => ⟨.refl _, .refl _, hsnap⟩, fun _ _ => ⟨.refl _, .refl _⟩, fun _ => ⟨hfs, hprep⟩,
    fun h => .inl (hphase h), herr, hcells⟩

/-- Fault entry writes ERR only where it is 0. -/
theorem err_eq_zero_of_raise {s : State} {code : FaultCode} (h : (s.raise code).err ≠ s.err) : s.err = 0#8 := by
  by_contra herr
  exact h (if_neg herr)

/-- Settles O45: PREPARE, UPDATE and FRAME are the only effects that write a channel, and each writes its own part of it;
every other effect leaves the channels, FS, SNAP and PREP alone. -/
theorem writeRights : Obligations.WriteRights := by
  intro i s t hexec
  cases effect_of_exec hexec with
  | pset k v =>
    exact writeRights_of_kept rfl rfl rfl rfl rfl (fun h => absurd rfl h) (fun h => absurd rfl h) (by simp)
  | faulted =>
    exact writeRights_of_kept rfl rfl rfl rfl rfl (fun h => absurd rfl h) (fun h => absurd rfl h) fun _ => .inl rfl
  | raise _ _ code =>
    exact writeRights_of_kept rfl rfl rfl rfl rfl (fun _ => rfl) (fun h => ⟨rfl, err_eq_zero_of_raise h⟩)
      fun _ => .inl rfl
  | snapRaise _ _ code =>
    refine writeRights_of_kept (by simp) (by simp) (by simp) (by simp) (by simp) (fun _ => rfl) (fun h => ⟨rfl, ?_⟩)
      fun _ => .inr (by simp)
    simpa using err_eq_zero_of_raise (s := s.snapRead) (code := code) (by simpa using h)
  | nop =>
    exact writeRights_of_kept rfl rfl rfl rfl rfl (fun h => absurd rfl h) (fun h => absurd rfl h) fun _ => .inl rfl
  | rds =>
    exact writeRights_of_kept rfl rfl rfl rfl rfl (fun h => absurd rfl h) (fun h => absurd rfl h) fun _ => .inl rfl
  | prepare _ n fs blk =>
    refine ⟨fun h => absurd rfl (h n fs blk), fun h => absurd rfl (h n fs blk), fun h => absurd rfl (h n fs blk),
      fun _ => .inr (.inl ⟨n, fs, blk, rfl⟩), fun h => absurd (by simp) h, fun _ => .inr (by simp)⟩
  | update =>
    refine ⟨fun _ h => absurd rfl h, fun _ _ => ?_, fun _ => by simp, fun h => absurd (by simp) h,
      fun h => absurd (by simp) h, fun _ => .inr (by simp)⟩
    rw [updateCommit_left, updateCommit_right]
    exact ⟨generatedChain_sameDelays _ _ _ _ _, generatedChain_sameDelays _ _ _ _ _⟩
  | frame _ _ l r =>
    exact ⟨fun _ _ => ⟨chainAfter_sameConfig _ _ _ _, chainAfter_sameConfig _ _ _ _, rfl⟩, fun _ h => absurd rfl (h l r),
      fun _ => ⟨rfl, rfl⟩, fun _ => .inr (.inr ⟨l, r, rfl⟩), fun h => absurd rfl h, fun _ => .inl rfl⟩

/-! ### The event list of a run -/

/-- The state with another list of events to come. -/
def State.withInputs (x : List Input) (s : State) : State := { s with inputs := x }

section WithInputs

variable (x : List Input) (s : State)

@[simp] theorem State.withInputs_phase : (s.withInputs x).phase = s.phase := rfl
@[simp] theorem State.withInputs_snapMask : (s.withInputs x).snapMask = s.snapMask := rfl
@[simp] theorem State.withInputs_inputs : (s.withInputs x).inputs = x := rfl
@[simp] theorem State.withInputs_num : (s.withInputs x).num = s.num := rfl
@[simp] theorem State.withInputs_draws : (s.withInputs x).draws = s.draws := rfl
@[simp] theorem State.withInputs_snapBuf : (s.withInputs x).snapBuf = s.snapBuf := rfl
@[simp] theorem State.withInputs_rate : (s.withInputs x).rate = s.rate := rfl

theorem State.readCell_withInputs (k : Cell) : (s.withInputs x).readCell k = (s.readCell k).withInputs x := by
  by_cases h : s.snapMask &&& cellBit k = 0#7
  · rw [State.readCell_of_unread h, State.readCell_of_unread (s := s.withInputs x) h]
    rfl
  · rw [State.readCell_of_read h, State.readCell_of_read (s := s.withInputs x) h]

/-- The turns of a SNAP_READ look at no event. -/
theorem State.takeTurns_withInputs (ts : List Turn) :
    State.takeTurns ts (s.withInputs x) = (State.takeTurns ts s).withInputs x := by
  induction ts generalizing s with
  | nil => rfl
  | cons t ts ih =>
    rw [State.takeTurns, State.takeTurns]
    cases t with
    | pset k v => exact ih (s.writeCell k v)
    | read k => exact (congrArg _ (s.readCell_withInputs x k)).trans (ih _)

@[simp] theorem State.snapRead_withInputs : (s.withInputs x).snapRead = s.snapRead.withInputs x := by
  rw [State.snapRead_eq, State.snapRead_eq]
  exact congrArg (fun t : State => { t with snapMask := 0#7 })
    (State.takeTurns_withInputs x { s with snapMask := 0#7, psTurns := s.psTurns.tail } _)

theorem prepareBody_withInputs (n : Nat) (fs : Word) :
    prepareBody .hold n fs (s.withInputs x) = (prepareBody .hold n fs s).withInputs x := by
  simp only [prepareBody, State.withInputs_num, State.withInputs_draws, State.snapRead_withInputs,
    State.withInputs_snapBuf]
  split_ifs
  · rfl
  · rfl
  · cases validate s.num s.draws s.snapRead.snapBuf (s.num.ofWord fs) <;> rfl

theorem updateBody_withInputs : updateBody .hold (s.withInputs x) = (updateBody .hold s).withInputs x := by
  simp only [updateBody, State.withInputs_phase, State.withInputs_num, State.withInputs_draws, State.withInputs_rate,
    State.snapRead_withInputs, State.withInputs_snapBuf]
  split_ifs
  · rfl
  · cases validate s.num s.draws s.snapRead.snapBuf s.rate <;> rfl

theorem frameBody_withInputs (l r : Word) :
    frameBody .hold l r (s.withInputs x) = (frameBody .hold l r s).withInputs x := by
  by_cases h : s.phase = .uninit
  · rw [frameBody_of_uninit h, frameBody_of_uninit (s := s.withInputs x) h]
    rfl
  · rw [frameBody_of_ready h, frameBody_of_ready (s := s.withInputs x) h]
    rfl

theorem rdsBody_withInputs (sel : BitVec 16) : rdsBody sel (s.withInputs x) = (rdsBody sel s).withInputs x := by
  unfold rdsBody
  cases decodeSelector sel with
  | none => rfl
  | some y =>
    cases y with
    | stage c i r => cases c <;> rfl
    | _ => rfl

/-- The common rule looks at no event when the command's own rule does not. -/
theorem State.command_withInputs {body : State → State} (h : body (s.withInputs x) = (body s).withInputs x) :
    (s.withInputs x).command body = (s.command body).withInputs x := by
  simp only [State.command, State.withInputs_phase, h]
  split_ifs <;> rfl

/-- No event reads the events behind it. -/
theorem eventState_withInputs (e : Event) : eventState e (s.withInputs x) = (eventState e s).withInputs x := by
  cases e with
  | idle => rfl
  | rst => rfl
  | illegal => exact s.command_withInputs x rfl
  | dropped => rfl
  | instr i =>
    cases i using Instr.by_port with
    | nop => exact s.command_withInputs x rfl
    | prepare n fs maxblk => exact s.command_withInputs x (prepareBody_withInputs x s n fs)
    | update => exact s.command_withInputs x (updateBody_withInputs x s)
    | frame l r => exact s.command_withInputs x (frameBody_withInputs x s l r)
    | rds sel => exact s.command_withInputs x (rdsBody_withInputs x s sel)
    | pset k v => simp only [eventState, execState_psetOf]; rfl

end WithInputs

/-- A step with more events behind is the step, with those events behind. -/
theorem step_withInputs {s t : State} {i : Input} {rest : List Input} (h : s.inputs = i :: rest)
    (hstep : step s = .next t) (later : List Input) :
    step (s.withInputs (s.inputs ++ later)) = .next (t.withInputs (t.inputs ++ later)) := by
  obtain ⟨t', hstep', hin, -⟩ := step_cons h
  cases hstep'.symm.trans hstep
  have hnext : (s.withInputs (s.inputs ++ later)).nextEvent = s.nextEvent := by
    rw [h]
    cases i <;> simp [State.nextEvent, State.withInputs, h]
  have htake : (s.withInputs (s.inputs ++ later)).takeInput = s.takeInput.withInputs (rest ++ later) := by
    rw [State.takeInput_cons h, State.takeInput_cons (s := s.withInputs _) (i := i) (rest := rest ++ later) (by simp [h])]
    rfl
  rw [step_eq, hnext, htake, eventState_withInputs, hin]
  rw [step_eq] at hstep
  injection hstep with hstep
  rw [hstep]

/-! ### The end of a run -/

/-- What `finalState` is after as many steps as there are events. -/
structure RunEnds (s f : State) : Prop where
  ended : runEnded f = true
  pos : f.pos = s.pos + commandsLeft s
  responses : f.responses.length = s.responses.length + commandsLeft s

theorem commandsLeft_append {s : State} {later : List Input} (h : (later.map inputAdvance).sum = 0) :
    commandsLeft (s.withInputs (s.inputs ++ later)) = commandsLeft s := by
  simp [commandsLeft, h]

theorem runEnded_append {s : State} {later : List Input} (h : (later.map inputAdvance).sum = 0) :
    runEnded (s.withInputs (s.inputs ++ later)) = runEnded s := by
  rw [runEnded, commandsLeft_append h]
  rfl

/-- A run that has not ended, with no SNAP_READ in progress, has an event to come. -/
theorem exists_input_of_not_ended {s : State} (hs : HiddenEmpty s) (h : runEnded s = false) :
    ∃ i rest, s.inputs = i :: rest := by
  cases hin : s.inputs with
  | nil =>
    have : runEnded s = true := (runEnded_iff s).2 ⟨by simp [commandsLeft, hin], hs.1⟩
    simp [h] at this
  | cons i rest => exact ⟨i, rest, rfl⟩

/-- A run ends within its events, with one position and one response more for each command; with events behind that hold no
command it ends in the same state, those events still to come. -/
theorem runFor_ends {s : State} (hs : HiddenEmpty s) {n : Nat} (hn : s.inputs.length ≤ n) :
    RunEnds s (runFor n s) ∧
      ∀ later : List Input, (later.map inputAdvance).sum = 0 → ∀ m, n ≤ m →
        runFor m (s.withInputs (s.inputs ++ later)) = (runFor n s).withInputs ((runFor n s).inputs ++ later) := by
  induction n generalizing s with
  | zero =>
    have hnil : s.inputs = [] := List.eq_nil_of_length_eq_zero (Nat.le_zero.1 hn)
    have hleft : commandsLeft s = 0 := by simp [commandsLeft, hnil]
    have hend : runEnded s = true := (runEnded_iff s).2 ⟨hleft, hs.1⟩
    refine ⟨⟨hend, by rw [hleft]; rfl, by rw [hleft]; rfl⟩, fun later hl m _ => ?_⟩
    exact runFor_ended m ((runEnded_append hl).trans hend)
  | succ n ih =>
    cases hend : runEnded s with
    | true =>
      have hleft := ((runEnded_iff s).1 hend).1
      rw [runFor_ended _ hend]
      exact ⟨⟨hend, by simp [hleft], by simp [hleft]⟩, fun later hl m _ =>
        runFor_ended m ((runEnded_append hl).trans hend)⟩
    | false =>
      obtain ⟨i, rest, hin⟩ := exists_input_of_not_ended hs hend
      obtain ⟨t, hstep, htin, hpos, hresp⟩ := step_cons hin
      have hleft : commandsLeft s = inputAdvance i + commandsLeft t := by
        rw [commandsLeft_cons hin, commandsLeft, htin]
      obtain ⟨⟨hended, hfpos, hfresp⟩, hlater⟩ := ih (hiddenEmptyKept s t hs hstep)
        (by rw [htin]; rw [hin, List.length_cons] at hn; omega)
      rw [runFor_step hend hstep]
      refine ⟨⟨hended, by rw [hfpos, hpos, hleft]; omega, by rw [hfresp, hresp, hleft]; omega⟩,
        fun later hl m hm => ?_⟩
      obtain ⟨m, rfl⟩ := Nat.exists_eq_add_of_le' (Nat.one_le_of_lt hm)
      rw [runFor_step ((runEnded_append hl).trans hend) (step_withInputs hin hstep later)]
      exact hlater later hl m (by omega)

/-- Settles O41: by `runFor_ends`, with as many steps as there are events. -/
theorem everyRunEnds : Obligations.EveryRunEnds := by
  intro s hs
  obtain ⟨⟨hended, hpos, hresp⟩, hlater⟩ := runFor_ends hs le_rfl
  refine ⟨hended, hpos, hresp, fun later hl => ?_⟩
  have hfinal : finalState (s.withInputs (s.inputs ++ later)) =
      (finalState s).withInputs ((finalState s).inputs ++ later) :=
    hlater later hl _ (by simp)
  change GoodEnd (s.withInputs (s.inputs ++ later)) ↔ GoodEnd s
  rw [GoodEnd, GoodEnd, hfinal, runEnded_append hl, State.withInputs_phase]

end Sys2Proof.Machine
end

section
/-! binary32 arithmetic: when an operation gives a NaN, the signs of zero, and the operations on finite words
(40_numerics.md R102, R104, R106). -/

namespace Sys2Proof.Machine

/-! ### Magnitudes in order -/

/-- The next 31 low bits stand for a magnitude one unit in the last place greater. -/
theorem F32.magOf_succ (m : Nat) : F32.magOf (m + 1) = F32.magOf m + 2 ^ (m / 2 ^ 23 - 1) := by
  by_cases h : m < 2 ^ 23
  · have hsucc : F32.magOf (m + 1) = m + 1 := by
      obtain h' | h' := Nat.lt_or_ge (m + 1) (2 ^ 23)
      · exact F32.magOf_small h'
      · simpa using F32.magOf_scaled 0 (m + 1) h' (by omega)
    rw [hsucc, F32.magOf_small h, Nat.div_eq_of_lt h, Nat.zero_sub, pow_zero]
  · obtain ⟨e, i, hlo, hhi, rfl⟩ : ∃ e i, 2 ^ 23 ≤ i ∧ i + 1 ≤ 2 ^ 24 ∧ m = e * 2 ^ 23 + i :=
      ⟨m / 2 ^ 23 - 1, m % 2 ^ 23 + 2 ^ 23, by omega, by omega, by omega⟩
    rw [show e * 2 ^ 23 + i + 1 = e * 2 ^ 23 + (i + 1) by omega, F32.magOf_scaled e i hlo (by omega),
      F32.magOf_scaled e (i + 1) (by omega) hhi, show (e * 2 ^ 23 + i) / 2 ^ 23 - 1 = e by omega]
    ring

theorem F32.magOf_strictMono : StrictMono F32.magOf :=
  strictMono_nat_of_lt_succ fun m => by
    rw [F32.magOf_succ]
    exact Nat.lt_add_of_pos_right (Nat.two_pow_pos _)

@[simp] theorem F32.magOf_zero : F32.magOf 0 = 0 := rfl

theorem F32.magOf_eq_zero_iff (m : Nat) : F32.magOf m = 0 ↔ m = 0 := F32.magOf_strictMono.injective.eq_iff' rfl

/-- A magnitude is less than 2^24 units in its last place. -/
theorem F32.magOf_le_ulp (m : Nat) : F32.magOf m ≤ (2 ^ 24 - 1) * 2 ^ (m / 2 ^ 23 - 1) := by
  by_cases h : m < 2 ^ 23
  · rw [F32.magOf_small h, Nat.div_eq_of_lt h]
    omega
  · obtain ⟨e, i, hlo, hhi, rfl⟩ : ∃ e i, 2 ^ 23 ≤ i ∧ i ≤ 2 ^ 24 - 1 ∧ m = e * 2 ^ 23 + i :=
      ⟨m / 2 ^ 23 - 1, m % 2 ^ 23 + 2 ^ 23, by omega, by omega, by omega⟩
    rw [F32.magOf_scaled e i hlo (by omega), show (e * 2 ^ 23 + i) / 2 ^ 23 - 1 = e by omega]
    exact Nat.mul_le_mul_right _ hhi

theorem F32.mag_eq_zero_iff (w : Word) : F32.mag w = 0 ↔ F32.low w = 0 := by
  rw [F32.mag_eq, F32.magOf_eq_zero_iff]

/-! ### NaNs and infinities -/

@[simp] theorem F32.isNaN_nan (d : Nat) : F32.isNaN (F32.nan d) = true := by
  unfold F32.nan
  split_ifs with h
  · exact h
  · decide

theorem F32.infBits_lt : F32.infBits < 2 ^ 31 := by norm_num [F32.infBits]

theorem F32.isNaN_pack (s : Bool) {m : Nat} (h : m ≤ F32.infBits) : F32.isNaN (F32.pack s m) = false := by
  rw [← Bool.not_eq_true, F32.isNaN_iff, F32.low_pack s (h.trans_lt F32.infBits_lt)]
  omega

@[simp] theorem F32.isNaN_pack_round (s : Bool) (n d : Nat) : F32.isNaN (F32.pack s (F32.round n d)) = false :=
  F32.isNaN_pack s (F32.round_le n d)

@[simp] theorem F32.isNaN_pack_infBits (s : Bool) : F32.isNaN (F32.pack s F32.infBits) = false :=
  F32.isNaN_pack s le_rfl

@[simp] theorem F32.isNaN_pack_zero (s : Bool) : F32.isNaN (F32.pack s 0) = false :=
  F32.isNaN_pack s (Nat.zero_le _)

theorem F32.mag_ne_zero_of_inf {w : Word} (h : F32.isInf w = true) : F32.mag w ≠ 0 := by
  rw [F32.mag_of_inf h]
  exact F32.infMag_pos.ne'

@[simp] theorem F32.isNaN_neg (w : Word) : F32.isNaN (F32.neg w) = F32.isNaN w := by
  rw [Bool.eq_iff_iff, F32.isNaN_iff, F32.isNaN_iff, F32.low_neg]

@[simp] theorem F32.isInf_neg (w : Word) : F32.isInf (F32.neg w) = F32.isInf w := by
  rw [Bool.eq_iff_iff, F32.isInf_iff, F32.isInf_iff, F32.low_neg]

@[simp] theorem F32.isFinite_neg (w : Word) : F32.isFinite (F32.neg w) = F32.isFinite w := by
  rw [Bool.eq_iff_iff, F32.isFinite_iff, F32.isFinite_iff, F32.low_neg]

/-- The infinity of two signs, as a sign and the bits of an infinity. -/
theorem pack_infBits_eq_infOfSigns (a b : Word) :
    F32.pack (F32.sign a != F32.sign b) F32.infBits = infOfSigns a b := by
  unfold infOfSigns
  cases F32.sign a <;> cases F32.sign b <;> rfl

/-- The zero of two signs, as a sign and no bits. -/
theorem pack_zero_eq_zeroOfSigns (a b : Word) : F32.pack (F32.sign a != F32.sign b) 0 = zeroOfSigns a b := by
  unfold zeroOfSigns
  cases F32.sign a <;> cases F32.sign b <;> rfl

section Operations

variable (d : Nat) (a b : Word)

theorem F32.isNaN_add_iff :
    F32.isNaN (F32.add d a b) = true ↔
      F32.isNaN a = true ∨ F32.isNaN b = true ∨
        (F32.isInf a = true ∧ F32.isInf b = true ∧ F32.sign a ≠ F32.sign b) := by
  unfold F32.add
  split_ifs with hnan hinfa hsigns hinfb hzero
  · obtain h | h := Bool.or_eq_true_iff.1 hnan <;> simp [h]
  · simp_all
  · simp_all
  · simp_all
  · simp_all
  · simp_all

theorem F32.isNaN_mul_iff :
    F32.isNaN (F32.mul d a b) = true ↔
      F32.isNaN a = true ∨ F32.isNaN b = true ∨ (F32.isInf a = true ∧ F32.mag b = 0) ∨
        (F32.mag a = 0 ∧ F32.isInf b = true) := by
  have ha := F32.mag_ne_zero_of_inf (w := a)
  have hb := F32.mag_ne_zero_of_inf (w := b)
  unfold F32.mul
  split_ifs with hnan hinf hzero
  · obtain h | h := Bool.or_eq_true_iff.1 hnan <;> simp [h]
  all_goals simp_all
  all_goals tauto

theorem F32.isNaN_div_iff :
    F32.isNaN (F32.div d a b) = true ↔
      F32.isNaN a = true ∨ F32.isNaN b = true ∨ (F32.isInf a = true ∧ F32.isInf b = true) ∨
        (F32.mag a = 0 ∧ F32.mag b = 0) := by
  have ha := F32.mag_ne_zero_of_inf (w := a)
  have hb := F32.mag_ne_zero_of_inf (w := b)
  unfold F32.div
  split_ifs with hnan hinfa hinfb hinfb hzerob hzeroa
  · obtain h | h := Bool.or_eq_true_iff.1 hnan <;> simp [h]
  all_goals simp_all

variable {d a b}

/-- A sum that is no NaN, with an infinite first operand, is that operand. -/
theorem F32.add_of_inf_left (h : F32.isNaN (F32.add d a b) = false) (ha : F32.isInf a = true) : F32.add d a b = a := by
  rw [← Bool.not_eq_true, F32.isNaN_add_iff] at h
  unfold F32.add
  simp_all

/-- A sum that is no NaN, with an infinite second operand, is that operand. -/
theorem F32.add_of_inf_right (h : F32.isNaN (F32.add d a b) = false) (hb : F32.isInf b = true) : F32.add d a b = b := by
  cases ha : F32.isInf a with
  | true =>
    have hsame : F32.sign a = F32.sign b := by
      by_contra hsigns
      simp [(F32.isNaN_add_iff d a b).2 (.inr (.inr ⟨ha, hb, hsigns⟩))] at h
    rw [F32.add_of_inf_left h ha, ← F32.pack_sign_low a, ← F32.pack_sign_low b, hsame, (F32.isInf_iff a).1 ha,
      (F32.isInf_iff b).1 hb]
  | false =>
    rw [← Bool.not_eq_true, F32.isNaN_add_iff] at h
    unfold F32.add
    simp_all

theorem F32.mul_of_inf (h : F32.isNaN (F32.mul d a b) = false) (hinf : F32.isInf a = true ∨ F32.isInf b = true) :
    F32.mul d a b = infOfSigns a b := by
  rw [← Bool.not_eq_true, F32.isNaN_mul_iff] at h
  rw [← pack_infBits_eq_infOfSigns]
  have ha := F32.mag_ne_zero_of_inf (w := a)
  have hb := F32.mag_ne_zero_of_inf (w := b)
  unfold F32.mul
  obtain hinf | hinf := hinf <;> simp_all

theorem F32.div_of_inf_left (h : F32.isNaN (F32.div d a b) = false) (ha : F32.isInf a = true) :
    F32.div d a b = infOfSigns a b := by
  rw [← Bool.not_eq_true, F32.isNaN_div_iff] at h
  rw [← pack_infBits_eq_infOfSigns]
  unfold F32.div
  simp_all

theorem F32.div_of_inf_right (h : F32.isNaN (F32.div d a b) = false) (hb : F32.isInf b = true) :
    F32.div d a b = zeroOfSigns a b := by
  rw [← Bool.not_eq_true, F32.isNaN_div_iff] at h
  rw [← pack_zero_eq_zeroOfSigns]
  unfold F32.div
  simp_all

theorem F32.finite_of_mag_zero {w : Word} (h : F32.mag w = 0) : F32.isFinite w = true := by
  rw [F32.isFinite_iff, (F32.mag_eq_zero_iff w).1 h, F32.infBits]
  norm_num

theorem F32.div_of_zero (ha : F32.isFinite a = true) (hne : F32.mag a ≠ 0) (hb : F32.mag b = 0) :
    F32.div d a b = infOfSigns a b := by
  obtain ⟨hanan, hainf⟩ := F32.not_nan_of_finite ha
  obtain ⟨hbnan, hbinf⟩ := F32.not_nan_of_finite (F32.finite_of_mag_zero hb)
  rw [← pack_infBits_eq_infOfSigns]
  unfold F32.div
  simp [*]

end Operations

/-- Settles O49: each clause is a branch of the operation; for the difference, of the sum with the second sign inverted. -/
theorem naNResults : Obligations.NaNResults := by
  intro d a b
  have hsub := F32.isNaN_add_iff d a (F32.neg b)
  rw [F32.isNaN_neg, F32.isInf_neg, F32.sign_neg] at hsub
  refine ⟨F32.isNaN_add_iff d a b, hsub.trans (by simp), F32.isNaN_mul_iff d a b, F32.isNaN_div_iff d a b,
    fun h => ⟨F32.add_of_inf_left h, F32.add_of_inf_right h⟩,
    fun h => ⟨F32.add_of_inf_left h, fun hb => F32.add_of_inf_right h (by simpa using hb)⟩,
    F32.mul_of_inf, fun h => ⟨F32.div_of_inf_left h, F32.div_of_inf_right h⟩, F32.div_of_zero⟩

/-! ### Operations on finite words -/

section Finite

variable {d : Nat} {a b : Word}

theorem F32.add_of_finite (ha : F32.isFinite a = true) (hb : F32.isFinite b = true) :
    F32.add d a b =
      if F32.val a + F32.val b = 0 then F32.pack (F32.sign a && F32.sign b) 0
      else F32.pack (decide (F32.val a + F32.val b < 0)) (F32.round (F32.val a + F32.val b).natAbs 1) := by
  obtain ⟨hanan, hainf⟩ := F32.not_nan_of_finite ha
  obtain ⟨hbnan, hbinf⟩ := F32.not_nan_of_finite hb
  simp [F32.add, *]

theorem F32.mul_of_finite (ha : F32.isFinite a = true) (hb : F32.isFinite b = true) :
    F32.mul d a b = F32.pack (F32.sign a != F32.sign b) (F32.round (F32.mag a * F32.mag b) (2 ^ 149)) := by
  obtain ⟨hanan, hainf⟩ := F32.not_nan_of_finite ha
  obtain ⟨hbnan, hbinf⟩ := F32.not_nan_of_finite hb
  simp [F32.mul, *]

theorem F32.div_of_finite (ha : F32.isFinite a = true) (hb : F32.isFinite b = true) (hne : F32.mag b ≠ 0) :
    F32.div d a b = F32.pack (F32.sign a != F32.sign b) (F32.round (F32.mag a * 2 ^ 149) (F32.mag b)) := by
  obtain ⟨hanan, hainf⟩ := F32.not_nan_of_finite ha
  obtain ⟨hbnan, hbinf⟩ := F32.not_nan_of_finite hb
  simp [F32.div, *]

theorem F32.mag_eq_natAbs_val (w : Word) : F32.mag w = (F32.val w).natAbs := by
  unfold F32.val
  split_ifs <;> omega

theorem F32.val_eq_zero_iff (w : Word) : F32.val w = 0 ↔ F32.mag w = 0 := by
  rw [F32.mag_eq_natAbs_val, Int.natAbs_eq_zero]

/-- The two words of magnitude zero. -/
theorem F32.eq_zero_of_mag_zero {w : Word} (h : F32.mag w = 0) : w = 0x00000000#32 ∨ w = 0x80000000#32 := by
  rw [← F32.pack_sign_low w, (F32.mag_eq_zero_iff w).1 h]
  cases F32.sign w
  · exact .inl rfl
  · exact .inr rfl

theorem F32.isFinite_one : F32.isFinite F32.one = true := by decide

theorem F32.mag_one : F32.mag F32.one = 2 ^ 149 := by
  have hlow : F32.low F32.one = 127 * 2 ^ 23 + 0 := by decide
  rw [F32.mag_eq, hlow, F32.magOf_step 126 0 (by norm_num)]
  norm_num

theorem F32.sign_one : F32.sign F32.one = false := by decide

/-- A finite word times ONE is the word. -/
theorem F32.one_mul_of_finite (ha : F32.isFinite a = true) : F32.mul d F32.one a = a := by
  rw [F32.mul_of_finite F32.isFinite_one ha, F32.mag_one, Nat.mul_comm, F32.round_mag ha (by norm_num), F32.sign_one,
    Bool.false_bne, F32.pack_sign_low]

end Finite

/-! ### The signs of zero -/

/-- A product that is no NaN has the exclusive-or of the signs. -/
theorem F32.sign_mul {d : Nat} {a b : Word} (h : F32.isNaN (F32.mul d a b) = false) :
    F32.sign (F32.mul d a b) = (F32.sign a != F32.sign b) := by
  unfold F32.mul at h ⊢
  split_ifs at h ⊢
  · simp at h
  · simp at h
  · exact F32.sign_pack _ F32.infBits_lt
  · exact F32.sign_pack _ (F32.round_lt _ _)

/-- A quotient that is no NaN has the exclusive-or of the signs. -/
theorem F32.sign_div {d : Nat} {a b : Word} (h : F32.isNaN (F32.div d a b) = false) :
    F32.sign (F32.div d a b) = (F32.sign a != F32.sign b) := by
  unfold F32.div at h ⊢
  split_ifs at h ⊢
  · simp at h
  · simp at h
  · exact F32.sign_pack _ F32.infBits_lt
  · exact F32.sign_pack _ (by norm_num)
  · simp at h
  · exact F32.sign_pack _ F32.infBits_lt
  · exact F32.sign_pack _ (F32.round_lt _ _)

/-- A finite word less itself is +0.0. -/
theorem F32.sub_self {x : Word} (d : Nat) (hx : F32.isFinite x = true) : F32.sub d x x = 0x00000000#32 := by
  have hzero : F32.val x + F32.val (F32.neg x) = 0 := by rw [F32.val_neg, add_neg_cancel]
  rw [F32.sub, F32.add_of_finite hx (by simpa using hx), if_pos hzero, F32.sign_neg, Bool.and_not_self]
  rfl

/-- Settles O48: the identity stage adds +0.0 to its input −0.0, where the bypassed one passes it. -/
theorem signedZeros : Obligations.SignedZeros := by
  refine ⟨fun _ => ⟨rfl, rfl, rfl⟩, fun d _ hx => F32.sub_self d hx, fun _ _ _ => F32.sign_mul, fun _ _ _ => F32.sign_div,
    fun e d => ⟨?_, fun _ => rfl⟩⟩
  change F32.add (d + 1) (F32.mul d F32.one 0x80000000#32) 0x00000000#32 = 0x00000000#32
  rw [F32.one_mul_of_finite (by decide)]
  rfl

end Sys2Proof.Machine
end

section
/-! PREPARE, UPDATE and FRAME (43_commands.md R162 to R167). -/

namespace Sys2Proof.Machine

/-! ### NaN draws -/

/-- A word computed from a first draw index that, where it is no NaN, is the same from every other index
(40_numerics.md R106: only a NaN is drawn). -/
def DrawStable (g : Nat → Word) : Prop := ∀ d d' : Nat, F32.isNaN (g d) = false → g d' = g d

section DrawStable

variable {g h : Nat → Word}

theorem DrawStable.const (w : Word) : DrawStable fun _ => w := fun _ _ _ => rfl

theorem F32.add_draw {d : Nat} {a b : Word} (h : F32.isNaN (F32.add d a b) = false) (d' : Nat) :
    F32.add d' a b = F32.add d a b := by
  unfold F32.add at h ⊢
  split_ifs at h ⊢
  · simp at h
  · simp at h
  all_goals rfl

theorem F32.mul_draw {d : Nat} {a b : Word} (h : F32.isNaN (F32.mul d a b) = false) (d' : Nat) :
    F32.mul d' a b = F32.mul d a b := by
  unfold F32.mul at h ⊢
  split_ifs at h ⊢
  · simp at h
  · simp at h
  all_goals rfl

theorem F32.div_draw {d : Nat} {a b : Word} (h : F32.isNaN (F32.div d a b) = false) (d' : Nat) :
    F32.div d' a b = F32.div d a b := by
  unfold F32.div at h ⊢
  split_ifs at h ⊢
  · simp at h
  · simp at h
  · rfl
  · rfl
  · simp at h
  all_goals rfl

/-- The operands of a sum that is no NaN are no NaNs. -/
theorem F32.not_nan_of_add {d : Nat} {a b : Word} (h : F32.isNaN (F32.add d a b) = false) :
    F32.isNaN a = false ∧ F32.isNaN b = false := by
  rw [← Bool.not_eq_true, F32.isNaN_add_iff] at h
  simp_all

theorem F32.not_nan_of_mul {d : Nat} {a b : Word} (h : F32.isNaN (F32.mul d a b) = false) :
    F32.isNaN a = false ∧ F32.isNaN b = false := by
  rw [← Bool.not_eq_true, F32.isNaN_mul_iff] at h
  simp_all

theorem F32.not_nan_of_div {d : Nat} {a b : Word} (h : F32.isNaN (F32.div d a b) = false) :
    F32.isNaN a = false ∧ F32.isNaN b = false := by
  rw [← Bool.not_eq_true, F32.isNaN_div_iff] at h
  simp_all

theorem DrawStable.add (hg : DrawStable g) (hh : DrawStable h) (k : Nat) :
    DrawStable fun d => F32.add (d + k) (g d) (h d) := fun d d' hn => by
  obtain ⟨ha, hb⟩ := F32.not_nan_of_add hn
  simp only [hg d d' ha, hh d d' hb]
  exact F32.add_draw hn _

theorem DrawStable.neg (hg : DrawStable g) : DrawStable fun d => F32.neg (g d) := fun d d' hn =>
  congrArg F32.neg (hg d d' (by simpa using hn))

theorem DrawStable.sub (hg : DrawStable g) (hh : DrawStable h) (k : Nat) :
    DrawStable fun d => F32.sub (d + k) (g d) (h d) := hg.add hh.neg k

theorem DrawStable.mul (hg : DrawStable g) (hh : DrawStable h) (k : Nat) :
    DrawStable fun d => F32.mul (d + k) (g d) (h d) := fun d d' hn => by
  obtain ⟨ha, hb⟩ := F32.not_nan_of_mul hn
  simp only [hg d d' ha, hh d d' hb]
  exact F32.mul_draw hn _

theorem DrawStable.div (hg : DrawStable g) (hh : DrawStable h) (k : Nat) :
    DrawStable fun d => F32.div (d + k) (g d) (h d) := fun d d' hn => by
  obtain ⟨ha, hb⟩ := F32.not_nan_of_div hn
  simp only [hg d d' ha, hh d d' hb]
  exact F32.div_draw hn _

end DrawStable

/-! ### VALIDATE by the spec's conditions -/

theorem positive_iff (e : Elem Word) (w : Word) : positive (f32 e) w = true ↔ Positive w := by
  have hzero : F32.isNaN F32.zero = false ∧ F32.val F32.zero = 0 := by decide
  change (F32.isFinite w && F32.lt F32.zero w) = true ↔ _
  rw [Bool.and_eq_true, F32.lt_iff, hzero.2, Positive]
  exact and_congr_right fun hfin => ⟨fun h => h.2.2, fun h => ⟨hzero.1, (F32.not_nan_of_finite hfin).1, h⟩⟩

section Validate

variable (e : Elem Word) (d : Nat) {p : Snapshot} {fs : Word}

theorem ordersLegal_iff : OrdersLegal p ↔ (orderLegal p.hpOrder && orderLegal p.lpOrder) = true := by
  rw [Bool.and_eq_true, orderLegal_iff, orderLegal_iff, OrdersLegal]

/-- Step 5 of VALIDATE as the model computes it (R165). -/
def nyquistCheck (d : Nat) (p : Snapshot) (fs : Word) : Bool :=
  F32.lt p.hpFreq (F32.mul d fs F32.half) && F32.lt p.lpFreq (F32.mul d fs F32.half) &&
    F32.lt p.bellFreq (F32.mul d fs F32.half)

/-- A frequency compares below half a rate only where that is a number, and so whatever the draw. -/
theorem val_lt_of_lt_mul {f : Word} (h : F32.lt f (F32.mul d fs F32.half) = true) :
    F32.isNaN (F32.mul d fs F32.half) = false ∧ F32.val f < F32.val (F32.mul 0 fs F32.half) := by
  obtain ⟨-, hn, hlt⟩ := (F32.lt_iff _ _).1 h
  exact ⟨hn, by rwa [F32.mul_draw hn 0]⟩

theorem belowNyquist_of_check (h : nyquistCheck d p fs = true) : BelowNyquist p fs := by
  simp only [nyquistCheck, Bool.and_eq_true] at h
  obtain ⟨⟨hhp, hlp⟩, hbell⟩ := h
  exact ⟨(val_lt_of_lt_mul d hhp).2, (val_lt_of_lt_mul d hlp).2, (val_lt_of_lt_mul d hbell).2⟩

/-- Half of a rate PREPARE accepts is no NaN. -/
theorem not_nan_half_rate (hfs : Positive fs) : F32.isNaN (F32.mul d fs F32.half) = false := by
  rw [F32.mul_of_finite hfs.1 (by decide)]
  exact F32.isNaN_pack_round ..

theorem lt_mul_of_val_lt {f : Word} (hfs : Positive fs) (hf : Positive f)
    (h : F32.val f < F32.val (F32.mul 0 fs F32.half)) : F32.lt f (F32.mul d fs F32.half) = true := by
  have hn := not_nan_half_rate 0 hfs
  rw [F32.mul_draw hn d, F32.lt_iff]
  exact ⟨(F32.not_nan_of_finite hf.1).1, hn, h⟩

theorem check_of_belowNyquist (hfs : Positive fs) (hp : ParamsLegal p) (h : BelowNyquist p fs) :
    nyquistCheck d p fs = true := by
  obtain ⟨hhp, hlp, hbell, -⟩ := hp
  simp only [nyquistCheck, Bool.and_eq_true]
  exact ⟨⟨lt_mul_of_val_lt d hfs hhp h.1, lt_mul_of_val_lt d hfs hlp h.2.1⟩, lt_mul_of_val_lt d hfs hbell h.2.2⟩

theorem validate_order (h : ¬ OrdersLegal p) : validate (f32 e) d p fs = some .order := by
  rw [ordersLegal_iff, Bool.not_eq_true] at h
  exact if_pos (by rw [h]; rfl)

/-- VALIDATE behind its first check. -/
theorem validate_of_orders (h : OrdersLegal p) :
    validate (f32 e) d p fs =
      if !(positive (f32 e) p.hpFreq && positive (f32 e) p.lpFreq && positive (f32 e) p.bellFreq) then some .param
      else if !(positive (f32 e) p.bellQ) then some .param
      else if !(F32.isFinite p.bellGain) then some .param
      else if !(nyquistCheck d p fs) then some .nyquist
      else none := by
  rw [ordersLegal_iff] at h
  exact if_neg (by rw [h]; decide)

theorem validate_param (ho : OrdersLegal p) (hp : ¬ ParamsLegal p) : validate (f32 e) d p fs = some .param := by
  rw [validate_of_orders e d ho]
  split_ifs with hfreq hq hgain hnyq
  · rfl
  · rfl
  · rfl
  all_goals
    simp only [Bool.not_eq_true, Bool.not_eq_false', Bool.and_eq_true, positive_iff] at hfreq hq hgain
    exact absurd ⟨hfreq.1.1, hfreq.1.2, hfreq.2, hq, hgain⟩ hp

/-- VALIDATE behind all its checks but the last. -/
theorem validate_of_params (ho : OrdersLegal p) (hp : ParamsLegal p) :
    validate (f32 e) d p fs = if !(nyquistCheck d p fs) then some .nyquist else none := by
  obtain ⟨hhp, hlp, hbell, hq, hgain⟩ := hp
  rw [validate_of_orders e d ho, (positive_iff e _).2 hhp, (positive_iff e _).2 hlp, (positive_iff e _).2 hbell,
    (positive_iff e _).2 hq, hgain]
  rfl

theorem validate_nyquist (ho : OrdersLegal p) (hp : ParamsLegal p) (hn : ¬ BelowNyquist p fs) :
    validate (f32 e) d p fs = some .nyquist := by
  rw [validate_of_params e d ho hp, if_pos]
  simpa using mt (belowNyquist_of_check d) hn

theorem validate_passes (hfs : Positive fs) (ho : OrdersLegal p) (hp : ParamsLegal p) (hn : BelowNyquist p fs) :
    validate (f32 e) d p fs = none := by
  rw [validate_of_params e d ho hp, check_of_belowNyquist d hfs hp hn]
  rfl

end Validate

/-! ### The faults of PREPARE and UPDATE -/

section Faults

variable {s : State} (hp : s.phase ≠ .faulted)
include hp

theorem exec_prepare_of_bad_rate {fs : Word} (hfs : ¬ Positive fs) (blk : Word) :
    exec (.prepare 2 fs blk) s = .next (afterFault 0x04#8 s) := by
  have hbad : (!(positive s.num fs)) = true := by
    rw [Bool.not_eq_true', ← Bool.not_eq_true]
    exact mt (positive_iff _ fs).1 hfs
  rw [exec_eq, execState, State.command_running hp, prepareBody, if_neg (by simp)]
  exact congrArg _ ((if_pos hbad).trans (State.raise_eq_afterFault .fs s))

/-- With two channels and a good rate PREPARE does what VALIDATE says of the snapshot. -/
theorem exec_prepare_of_good_rate {fs : Word} (hfs : Positive fs) (blk : Word) :
    exec (.prepare 2 fs blk) s =
      .next (match validate s.num s.draws s.snapRead.snapBuf fs with
        | some code => s.snapRead.raise code
        | none => prepareCommit .hold fs (s.snapRead.generate fs)) := by
  have hgood : positive s.num fs = true := (positive_iff _ fs).2 hfs
  rw [exec_eq, execState, State.command_running hp, prepareBody, if_neg (by simp)]
  exact congrArg _ (if_neg (by rw [State.num_ofWord, hgood]; decide))

theorem exec_prepare_of_code {fs : Word} (hfs : Positive fs) (blk : Word) {code : FaultCode}
    (hv : validate s.num s.draws s.snapRead.snapBuf fs = some code) :
    exec (.prepare 2 fs blk) s = .next (afterFault code.bits s.snapRead) := by
  rw [exec_prepare_of_good_rate hp hfs, hv, ← State.raise_eq_afterFault]

/-- Outside UNINIT UPDATE does what VALIDATE says of the snapshot at the recorded rate. -/
theorem exec_update_of_code (hu : s.phase ≠ .uninit) {code : FaultCode}
    (hv : validate s.num s.draws s.snapRead.snapBuf s.rate = some code) :
    exec .update s = .next (afterFault code.bits s.snapRead) := by
  rw [exec_eq, execState, State.command_running hp, updateBody, if_neg hu, hv, ← State.raise_eq_afterFault]

theorem exec_update_of_passes (hu : s.phase ≠ .uninit)
    (hv : validate s.num s.draws s.snapRead.snapBuf s.rate = none) :
    exec .update s = .next (updateCommit s) := by
  rw [exec_eq, execState, State.command_running hp, updateBody, if_neg hu, hv, updateCommit]

end Faults

theorem State.rate_of_fs {s : State} {fs : Word} (h : s.fs = some fs) : s.rate = fs := by rw [State.rate, h]; rfl

/-- Settles O18: each clause is the first failing check of PREPARE, and its fault is R183's. -/
theorem prepareFaultsInOrder : Obligations.PrepareFaultsInOrder := by
  intro s n fs blk hp
  refine ⟨fun hn => exec_prepare_of_layout hp hn fs blk, ?rate, ?order, ?param, ?nyquist⟩
  case rate =>
    rintro rfl hfs
    exact exec_prepare_of_bad_rate hp hfs blk
  case order =>
    rintro rfl hfs ho
    exact exec_prepare_of_code hp hfs blk (validate_order _ _ ho)
  case param =>
    rintro rfl hfs ho hparam
    exact exec_prepare_of_code hp hfs blk (validate_param _ _ ho hparam)
  case nyquist =>
    rintro rfl hfs ho hparam hn
    exact exec_prepare_of_code hp hfs blk (validate_nyquist _ _ ho hparam hn)

/-- Settles O20: in UNINIT the first check fails; elsewhere VALIDATE names the code at the recorded rate. -/
theorem updateFaultsInOrder : Obligations.UpdateFaultsInOrder := by
  intro s hp
  refine ⟨fun hu => ?uninit, fun fs hu hfs => ?checks⟩
  case uninit =>
    rw [exec_eq, execState, State.command_running hp, updateBody, if_pos hu]
    exact congrArg _ (State.raise_eq_afterFault .notPrepared s)
  case checks =>
    obtain rfl := State.rate_of_fs hfs
    exact ⟨fun ho => exec_update_of_code hp hu (validate_order _ _ ho),
      fun ho hparam => exec_update_of_code hp hu (validate_param _ _ ho hparam),
      fun ho hparam hn => exec_update_of_code hp hu (validate_nyquist _ _ ho hparam hn)⟩

end Sys2Proof.Machine
end

section
/-! What PREPARE, UPDATE and FRAME write and leave where no check fails (43_commands.md R162, R163, R167), and the equations
of the coefficient generator and of the stage (41_coefficient_generator.md R121 to R125, 42_stage_bank_chain.md R140). -/

namespace Sys2Proof.Machine

/-! ### The coefficient generator -/

theorem bwSections_getElem? {α : Type} (N : Num α) (d : Nat) (kind : Kind) (w : α) (iqs : List α) (k : Nat) :
    (bwSections N d kind w iqs)[k]? = iqs[k]?.map (bwSection N (d + 16 * k) kind w) := by
  induction iqs generalizing d k with
  | nil => rfl
  | cons iq iqs ih =>
    cases k with
    | zero => rfl
    | succ k =>
      rw [bwSections, List.getElem?_cons_succ, ih, List.getElem?_cons_succ,
        show d + 16 + 16 * k = d + 16 * (k + 1) by omega]

theorem bwSections_length {α : Type} (N : Num α) (d : Nat) (kind : Kind) (w : α) (iqs : List α) :
    (bwSections N d kind w iqs).length = iqs.length := by
  induction iqs generalizing d with
  | nil => rfl
  | cons iq iqs ih => rw [bwSections, List.length_cons, ih, List.length_cons]

theorem qinvF32_length {n : Nat} (h1 : 1 ≤ n) (h4 : n ≤ 4) : (qinvF32 n).length = n := by
  interval_cases n <;> rfl

/-- BW_COEF gives one section for each stored constant (R125). -/
theorem bwCoef_length (e : Elem Word) (d : Nat) (kind : Kind) (f fs : Word) {n : Nat} (h1 : 1 ≤ n) (h4 : n ≤ 4) :
    (bwCoef (f32 e) d kind f fs n).length = n := (bwSections_length ..).trans (qinvF32_length h1 h4)

theorem bwCoef_getElem? (e : Elem Word) (d : Nat) (kind : Kind) (f fs : Word) (n k : Nat) :
    (bwCoef (f32 e) d kind f fs n)[k]? =
      (qinvF32 n)[k]?.map (bwSection (f32 e) (d + 1 + 16 * k) kind (F32.div d f fs)) := bwSections_getElem? ..

/-- Settles O51: the pseudocode's lines are the model's definitions over F32, and the sections of a bank stand in the order
of its constants. -/
theorem generatorEquations : Obligations.GeneratorEquations := by
  refine ⟨fun _ _ _ _ _ _ => rfl, fun _ _ _ _ => ⟨rfl, rfl⟩, fun e d kind f fs order h1 h4 =>
    ⟨bwCoef_length e d kind f fs h1 h4, fun k iq hk => ?_⟩⟩
  rw [bwCoef_getElem?, hk, Option.map_some]

/-- Settles O27: the three lines are the definition of the stage over F32. -/
theorem stageStepEquations : Obligations.StageStepEquations := fun _ _ _ _ _ _ => ⟨_, _, _, rfl, rfl, rfl, rfl⟩

/-! ### APPLY -/

/-- A section configured from one that held the coefficients of `old`. -/
theorem sectionConfigured_configSection {old s : CutStage Word} (h : s.bq.coef = old.bq.coef) (N : Num Word)
    {cs : List (Coef Word)} {n : Nat} (hn : n ≤ cs.length) (i : Nat) :
    SectionConfigured old (configSection N .hold cs n i s) cs n i := by
  refine ⟨fun hi => ?_, fun hi => ?_⟩
  · rw [configSection_of_lt _ _ _ _ _ _ hi, List.getD_eq_getElem _ _ (hi.trans_le hn)]
    exact ⟨List.getElem?_eq_getElem _, rfl⟩
  · rw [configSection_coef, sectionCoef, if_neg (Nat.not_lt.2 hi), configSection_byp]
    exact ⟨h, decide_eq_true hi⟩

/-- A bank configured from one that held the coefficients of `old`. -/
theorem bankConfigured_bankConfig {old b : Bank Word}
    (h : b.s0.bq.coef = old.s0.bq.coef ∧ b.s1.bq.coef = old.s1.bq.coef ∧ b.s2.bq.coef = old.s2.bq.coef ∧
      b.s3.bq.coef = old.s3.bq.coef) (N : Num Word) {cs : List (Coef Word)} {n : Nat} (hn : n ≤ cs.length) :
    BankConfigured old (bankConfig N .hold cs n b) cs n := by
  obtain ⟨h0, h1, h2, h3⟩ := h
  exact ⟨sectionConfigured_configSection h0 N hn 0, sectionConfigured_configSection h1 N hn 1,
    sectionConfigured_configSection h2 N hn 2, sectionConfigured_configSection h3 N hn 3⟩

/-- A chain configured by APPLY from one that held the coefficients of `old` (43_commands.md R166). -/
theorem chainConfigured_generatedChain {old c : Chain Word} (h : SameConfig c old) (e : Elem Word) (d : Nat) (p : Snapshot)
    (fs : Word) (ho : OrdersLegal p) : ChainConfigured (f32 e) d p fs old (generatedChain (f32 e) d p fs c) := by
  obtain ⟨⟨hhp1, hhp4⟩, hlp1, hlp4⟩ := ho
  exact ⟨bankConfigured_bankConfig ⟨(h 0).1, (h 1).1, (h 2).1, (h 3).1⟩ _ (bwCoef_length _ _ _ _ _ hhp1 hhp4).ge, rfl,
    bankConfigured_bankConfig ⟨(h 5).1, (h 6).1, (h 7).1, (h 8).1⟩ _ (bwCoef_length _ _ _ _ _ hlp1 hlp4).ge⟩

/-- Settles O19: PREPARE passes VALIDATE and commits; the chains are cleared, then configured. -/
theorem prepareCompletes : Obligations.PrepareCompletes := by
  intro s fs blk hp hfs ho hparam hn
  have hexec := exec_prepare_of_good_rate hp hfs blk
  rw [show validate s.num s.draws s.snapRead.snapBuf fs = none from validate_passes _ _ hfs ho hparam hn] at hexec
  refine ⟨_, hexec, rfl, rfl, rfl, by simp, rfl, fun c i => ?clear, fun c => ?config, ?response, by simp, rfl, by simp,
    rfl, by simp, by simp, ?turns, ?elem⟩
  case clear =>
    rw [prepareCommit_chain, generatedChain, chainConfig_hold_stage, chainClear_stage]
    exact ⟨rfl, rfl⟩
  case config =>
    rw [prepareCommit_chain]
    exact chainConfigured_generatedChain (chainClear_sameConfig _ _) _ _ _ _ ho
  case response =>
    rw [prepareCommit_responses, State.generate_responses, State.snapRead_responses]
    rfl
  case turns => simp [prepareCommit]
  case elem => simp [prepareCommit]

/-- Settles O21: UPDATE passes VALIDATE at the recorded rate, which is positive, and configures the chains as they are. -/
theorem updateCompletes : Obligations.UpdateCompletes := by
  intro s fs hrate hphase hfs ho hparam hn
  have hp : s.phase ≠ .faulted := by rintro h; simp [h] at hphase
  have hu : s.phase ≠ .uninit := by rintro h; simp [h] at hphase
  obtain ⟨hfin, hpos⟩ := hrate.2.2 fs hfs
  have hfs' : Positive fs := (positive_iff (Elem.ofChoice s.elem) fs).1 (Bool.and_eq_true_iff.2 ⟨hfin, hpos⟩)
  have hexec := exec_update_of_passes hp hu (by
    rw [State.rate_of_fs hfs]
    exact validate_passes _ _ hfs' ho hparam hn)
  refine ⟨_, hexec, by simp, by simp, by simp, by simp, by simp, fun c => ?delays, fun c => ?config, ?response, by simp,
    by simp, by simp, by simp, by simp, by simp, by simp, by simp⟩
  case delays =>
    rw [updateCommit_chain, State.rate_of_fs hfs]
    exact generatedChain_sameDelays _ _ _ _ _
  case config =>
    rw [updateCommit_chain, State.rate_of_fs hfs]
    exact chainConfigured_generatedChain (.refl _) _ _ _ _ ho
  case response =>
    rw [updateCommit_responses, stWord_ok]

/-! ### FRAME -/

section Frame

variable {s : State} (l r : Word)

theorem exec_frame_of_faulted (h : s.phase = .faulted) : exec (.frame l r) s = .next (s.respond s.err 0#32 0#32) := by
  rw [exec_eq, execState, State.command_faulted h]

theorem exec_frame_of_uninit (h : s.phase = .uninit) : exec (.frame l r) s = .next (s.raise .notPrepared) := by
  rw [exec_eq, execState, State.command_running (by simp [h]), frameBody_of_uninit h]

theorem exec_frame_of_ready (h : s.phase = .prepared ∨ s.phase = .running) :
    exec (.frame l r) s = .next (frameCommit l r s) := by
  rw [exec_eq, execState, State.command_running (by rintro h'; simp [h'] at h),
    frameBody_of_ready (by rintro h'; simp [h'] at h)]

/-- FRAME by phase: the answer of FAULTED, the fault of UNINIT, or both samples processed. -/
theorem exec_frame_cases (s : State) (l r : Word) :
    (s.phase = .faulted ∧ exec (.frame l r) s = .next (s.respond s.err 0#32 0#32)) ∨
      (s.phase = .uninit ∧ exec (.frame l r) s = .next (s.raise .notPrepared)) ∨
      ((s.phase = .prepared ∨ s.phase = .running) ∧ exec (.frame l r) s = .next (frameCommit l r s)) := by
  cases h : s.phase with
  | uninit => exact .inr (.inl ⟨rfl, exec_frame_of_uninit l r h⟩)
  | prepared => exact .inr (.inr ⟨.inl rfl, exec_frame_of_ready l r (.inl h)⟩)
  | running => exact .inr (.inr ⟨.inr rfl, exec_frame_of_ready l r (.inr h)⟩)
  | faulted => exact .inl ⟨rfl, exec_frame_of_faulted l r h⟩

end Frame

/-- Settles O23: CHAIN_STEP is the loop over the nine stages (`chainStep_hold`), and FRAME runs it on both channels. -/
theorem frameRunsNineStages : Obligations.FrameRunsNineStages := by
  intro s l r
  refine ⟨fun hu => ?uninit, fun hready => ⟨_, exec_frame_of_ready l r hready, rfl, rfl, fun i => ?stages⟩⟩
  case uninit =>
    rw [exec_frame_of_uninit l r hu]
    exact congrArg _ (State.raise_eq_afterFault .notPrepared s)
  case stages => exact ⟨chainAfter_stage .., chainAfter_stage ..⟩

/-- What FRAME leaves of a channel (10_state.md R22, 42_stage_bank_chain.md R143). -/
theorem chainAfter_keeps (N : Num Word) (d : Nat) (c : Chain Word) (x : Word) (i : Fin 9) :
    ((chainAfter N d c x).stage i).coef = (c.stage i).coef ∧ (chainAfter N d c x).bypassed i = c.bypassed i ∧
      (c.bypassed i = true → (chainAfter N d c x).stage i = c.stage i) :=
  ⟨by simp, by simp, fun h => by rw [chainAfter_stage, muxAt_of_bypassed _ _ _ h]⟩

/-- Settles O24: the three outcomes of FRAME, of which only a completed one writes a channel. -/
theorem frameLeavesTheRest : Obligations.FrameLeavesTheRest := by
  intro s t l r hexec
  obtain ⟨-, h⟩ | ⟨hu, h⟩ | ⟨-, h⟩ := exec_frame_cases s l r <;> cases h.symm.trans hexec
  · exact ⟨fun c i => by simp, rfl, rfl, rfl, rfl, rfl, rfl, rfl, rfl, rfl, rfl, rfl, fun _ => rfl⟩
  · exact ⟨fun c i => by simp, rfl, rfl, rfl, rfl, rfl, rfl, rfl, rfl, rfl, rfl, rfl, fun h => absurd hu h⟩
  · refine ⟨fun c i => ?_, rfl, rfl, rfl, rfl, rfl, rfl, rfl, rfl, rfl, rfl, rfl, fun _ => rfl⟩
    obtain ⟨d, x, hchain⟩ := frameCommit_chain s l r c
    rw [hchain]
    exact chainAfter_keeps ..

/-- Settles O25: in each phase FRAME does the same from the other state, whose phase, ERR, channels and draws are those of
the first. -/
theorem frameIgnoresParameters : Obligations.FrameIgnoresParameters := by
  intro s t l r cells snap buf fs turns hexec
  obtain ⟨hp, h⟩ | ⟨hp, h⟩ | ⟨hp, h⟩ := exec_frame_cases s l r <;> cases h.symm.trans hexec
  · exact exec_frame_of_faulted l r hp
  · exact exec_frame_of_uninit l r hp
  · exact exec_frame_of_ready l r hp

theorem frameCommit_rw0 (l r : Word) (s : State) :
    (frameCommit l r s).responses.head?.map Response.rw0 = some (sampleAt s.num s.draws s.left l 9) := rfl

theorem frameCommit_rw1 (l r : Word) (s : State) :
    (frameCommit l r s).responses.head?.map Response.rw1 = some (sampleAt s.num (s.draws + 81) s.right r 9) := rfl

/-- Settles O26: a completed FRAME computes each channel from its own chain, its own sample and the draws. -/
theorem channelsAreIndependent : Obligations.ChannelsAreIndependent := by
  intro s t t' l r x other hready
  refine ⟨fun h h' => ?left, fun h h' => ?right⟩
  case left =>
    cases (exec_frame_of_ready l r hready).symm.trans h
    cases (exec_frame_of_ready (s := { s with right := other }) l x hready).symm.trans h'
    exact ⟨rfl, by rw [frameCommit_rw0, frameCommit_rw0]; rfl⟩
  case right =>
    cases (exec_frame_of_ready l r hready).symm.trans h
    cases (exec_frame_of_ready (s := { s with left := other }) x r hready).symm.trans h'
    exact ⟨rfl, by rw [frameCommit_rw1, frameCommit_rw1]; rfl⟩

/-! ### Two UPDATEs -/

theorem Chain.ext_stages {α : Type} {a b : Chain α} (hs : ∀ i, a.stage i = b.stage i)
    (hb : ∀ i, a.bypassed i = b.bypassed i) : a = b := by
  obtain ⟨⟨⟨_, _⟩, ⟨_, _⟩, ⟨_, _⟩, ⟨_, _⟩⟩, _,
    ⟨⟨_, _⟩, ⟨_, _⟩, ⟨_, _⟩, ⟨_, _⟩⟩⟩ := a
  obtain ⟨⟨⟨_, _⟩, ⟨_, _⟩, ⟨_, _⟩, ⟨_, _⟩⟩, _,
    ⟨⟨_, _⟩, ⟨_, _⟩, ⟨_, _⟩, ⟨_, _⟩⟩⟩ := b
  have s0 := hs 0
  have s1 := hs 1
  have s2 := hs 2
  have s3 := hs 3
  have s4 := hs 4
  have s5 := hs 5
  have s6 := hs 6
  have s7 := hs 7
  have s8 := hs 8
  have b0 := hb 0
  have b1 := hb 1
  have b2 := hb 2
  have b3 := hb 3
  have b5 := hb 5
  have b6 := hb 6
  have b7 := hb 7
  have b8 := hb 8
  simp only [Chain.stage, Chain.bypassed] at *
  subst s0 s1 s2 s3 s4 s5 s6 s7 s8 b0 b1 b2 b3 b5 b6 b7 b8
  rfl

theorem coef_ext {a b : Coef Word} (h0 : a.b0 = b.b0) (h1 : a.b1 = b.b1) (h2 : a.b2 = b.b2) (h3 : a.a1 = b.a1)
    (h4 : a.a2 = b.a2) : a = b := by
  cases a
  cases b
  simp_all

/-- A section computed from a first draw index, each of whose coefficients is drawn only where it is a NaN. -/
structure CoefDrawStable (c : Nat → Coef Word) : Prop where
  b0 : DrawStable fun d => (c d).b0
  b1 : DrawStable fun d => (c d).b1
  b2 : DrawStable fun d => (c d).b2
  a1 : DrawStable fun d => (c d).a1
  a2 : DrawStable fun d => (c d).a2

/-- Where it holds no NaN, such a section is the same from every first draw. -/
theorem CoefDrawStable.eq {c : Nat → Coef Word} (hc : CoefDrawStable c) {d : Nat} (h : CoefNoNaN (c d)) (d' : Nat) :
    c d' = c d := by
  obtain ⟨h0, h1, h2, h3, h4⟩ := h
  exact coef_ext (hc.b0 d d' h0) (hc.b1 d d' h1) (hc.b2 d d' h2) (hc.a1 d d' h3) (hc.a2 d d' h4)

/-- BW_SECTION computes every coefficient from the one word TANPI(w). -/
theorem bwSection_drawStable (e : Elem Word) (kind : Kind) (w iq : Word) :
    CoefDrawStable fun d => bwSection (f32 e) d kind w iq := by
  have hK := DrawStable.const (e.tanpi w)
  have hone := DrawStable.const F32.one
  have htwo := DrawStable.const F32.two
  have hK2 := hK.mul hK 0
  have hKi := hK.mul (DrawStable.const iq) 1
  have hnorm := hone.div ((hone.add hKi 2).add hK2 3) 4
  have ha1 := (htwo.mul (hK2.sub hone 5) 6).mul hnorm 7
  have ha2 := ((hone.sub hKi 8).add hK2 9).mul hnorm 10
  cases kind with
  | lp =>
    have hb0 := hK2.mul hnorm 11
    exact ⟨hb0, htwo.mul hb0 12, hb0, ha1, ha2⟩
  | hp => exact ⟨hnorm, (DrawStable.const F32.negTwo).mul hnorm 11, hnorm, ha1, ha2⟩

/-- BELL_COEF computes every coefficient from the one argument `w`, where that is no NaN. -/
theorem bellCoef_drawStable (e : Elem Word) {fs f : Word} (hw : ∀ d, F32.isNaN (F32.div d f fs) = false) (q g : Word) :
    CoefDrawStable fun d => bellCoef (f32 e) d fs f q g := by
  have hconst (k : Word → Word) : DrawStable fun d => k (F32.div d f fs) := fun d d' _ =>
    congrArg k (F32.div_draw (hw d) d')
  have hA := DrawStable.const (e.db40 g)
  have hone := DrawStable.const F32.one
  have hal := (hconst e.sin2pi).div ((DrawStable.const F32.two).mul (DrawStable.const q) 1) 2
  have haA := hal.mul hA 3
  have haoA := hal.div hA 4
  have ha0 := hone.add haoA 5
  have hb1 := ((DrawStable.const F32.negTwo).mul (hconst e.cos2pi) 6).div ha0 9
  exact ⟨(hone.add haA 7).div ha0 8, hb1, (hone.sub haA 10).div ha0 11, hb1, (hone.sub haoA 12).div ha0 13⟩

/-- A frequency that passed the Nyquist check has a ratio to the rate that is a number. -/
theorem not_nan_ratio {f fs : Word} {d : Nat} (hf : Positive f) (h : F32.lt f (F32.mul d fs F32.half) = true) (d' : Nat) :
    F32.isNaN (F32.div d' f fs) = false := by
  have hfs : F32.isNaN fs = false := (F32.not_nan_of_mul (val_lt_of_lt_mul d h).1).1
  obtain ⟨hnan, hinf⟩ := F32.not_nan_of_finite hf.1
  have hmag : F32.mag f ≠ 0 := by
    rw [Ne, ← F32.val_eq_zero_iff]
    exact hf.2.ne'
  rw [← Bool.not_eq_true, F32.isNaN_div_iff]
  simp [hfs, hnan, hinf, hmag]

/-- What VALIDATE passed, with its last check as the model computes it. -/
theorem checks_of_validate {e : Elem Word} {d : Nat} {p : Snapshot} {fs : Word} (h : validate (f32 e) d p fs = none) :
    OrdersLegal p ∧ ParamsLegal p ∧ nyquistCheck d p fs = true := by
  have ho : OrdersLegal p := by
    by_contra ho
    simp [validate_order e d ho] at h
  have hp : ParamsLegal p := by
    by_contra hp
    simp [validate_param e d ho hp] at h
  rw [validate_of_params e d ho hp] at h
  exact ⟨ho, hp, by simpa using h⟩

/-- VALIDATE passes whatever the draw. -/
theorem validate_draw {e : Elem Word} {d : Nat} {p : Snapshot} {fs : Word} (h : validate (f32 e) d p fs = none) (d' : Nat) :
    validate (f32 e) d' p fs = none := by
  obtain ⟨ho, hp, hn⟩ := checks_of_validate h
  have hhalf : F32.isNaN (F32.mul d fs F32.half) = false := by
    simp only [nyquistCheck, Bool.and_eq_true] at hn
    exact (val_lt_of_lt_mul d hn.2).1
  rw [validate_of_params e d' ho hp, nyquistCheck, F32.mul_draw hhalf, ← nyquistCheck, hn]
  rfl

/-- A section configured again with the same entry keeps its coefficients. -/
theorem sectionCoef_again {cs cs' : List (Coef Word)} {n i : Nat} (hn : n ≤ cs.length) (h : i < n → cs'[i]? = cs[i]?)
    (old : Coef Word) : sectionCoef cs' n i (sectionCoef cs n i old) = sectionCoef cs n i old := by
  unfold sectionCoef
  split_ifs with hi
  · rw [List.getD_eq_getElem?_getD, h hi, List.getElem?_eq_getElem (hi.trans_le hn), Option.getD_some,
      List.getD_eq_getElem _ _ (hi.trans_le hn)]
  · rfl

/-- The entry of an enabled section, where it holds no NaN, is the same from every first draw. -/
theorem bwCoef_getElem?_draw {e : Elem Word} {d : Nat} {kind : Kind} {f fs : Word} {n i : Nat} {old : Coef Word}
    (hw : ∀ d, F32.isNaN (F32.div d f fs) = false) (hi : i < n)
    (h : CoefNoNaN (sectionCoef (bwCoef (f32 e) d kind f fs n) n i old)) (d' : Nat) :
    (bwCoef (f32 e) d' kind f fs n)[i]? = (bwCoef (f32 e) d kind f fs n)[i]? := by
  rw [sectionCoef, if_pos hi, List.getD_eq_getElem?_getD, bwCoef_getElem?] at h
  rw [bwCoef_getElem?, bwCoef_getElem?, F32.div_draw (hw d) d']
  cases hq : (qinvF32 n)[i]? with
  | none => rw [Option.map_none, Option.map_none]
  | some iq =>
    rw [hq, Option.map_some, Option.getD_some] at h
    rw [Option.map_some, Option.map_some]
    exact congrArg some ((bwSection_drawStable e kind (F32.div d f fs) iq).eq h (d' + 1 + 16 * i))

/-- APPLY with the same snapshot and rate again, from other draws, leaves the chain, wherever no enabled section's coefficient
is a NaN (41_coefficient_generator.md R120). -/
theorem generatedChain_again {e : Elem Word} {d dv : Nat} {p : Snapshot} {fs : Word} {c : Chain Word}
    (hv : validate (f32 e) dv p fs = none)
    (hnan : ∀ i, (generatedChain (f32 e) d p fs c).bypassed i = false →
      CoefNoNaN ((generatedChain (f32 e) d p fs c).stage i).coef) (d' : Nat) :
    generatedChain (f32 e) d' p fs (generatedChain (f32 e) d p fs c) = generatedChain (f32 e) d p fs c := by
  obtain ⟨⟨⟨hhp1, hhp4⟩, hlp1, hlp4⟩, ⟨hhpf, hlpf, hbellf, -⟩, hn⟩ := checks_of_validate hv
  simp only [nyquistCheck, Bool.and_eq_true] at hn
  obtain ⟨⟨hhp, hlp⟩, hbell⟩ := hn
  have hhplen := (bwCoef_length e (d + 16) .hp p.hpFreq fs hhp1 hhp4).ge
  have hlplen := (bwCoef_length e (d + 96) .lp p.lpFreq fs hlp1 hlp4).ge
  refine Chain.ext_stages (fun i => ?_) fun i => by simp
  have hcoef : configuredCoef (bwCoef (f32 e) (d' + 16) .hp p.hpFreq fs p.hpOrder.toNat) p.hpOrder.toNat
      (bellCoef (f32 e) d' fs p.bellFreq p.bellQ p.bellGain)
      (bwCoef (f32 e) (d' + 96) .lp p.lpFreq fs p.lpOrder.toNat) p.lpOrder.toNat i
      ((generatedChain (f32 e) d p fs c).stage i).coef = ((generatedChain (f32 e) d p fs c).stage i).coef := by
    have hnan := hnan i
    rw [generatedChain_bypassed] at hnan
    rw [generatedChain, chainConfig_coef] at hnan ⊢
    unfold configuredFlag at hnan
    unfold configuredCoef at hnan ⊢
    split_ifs at hnan ⊢ with h4 h4'
    · exact sectionCoef_again hhplen (fun hi => bwCoef_getElem?_draw (not_nan_ratio hhpf hhp) hi
        (hnan (by simpa using hi)) _) _
    · exact (bellCoef_drawStable e (not_nan_ratio hbellf hbell) p.bellQ p.bellGain).eq (hnan rfl) d'
    · exact sectionCoef_again hlplen (fun hi => bwCoef_getElem?_draw (not_nan_ratio hlpf hlp) hi
        (hnan (by simpa using hi)) _) _
  rw [generatedChain, chainConfig_hold_stage]
  exact congrArg (fun k : Coef Word => { (generatedChain (f32 e) d p fs c).stage i with coef := k }) hcoef

/-- An UPDATE that leaves a phase other than FAULTED passed its checks and configured both channels. -/
theorem exec_update_of_not_faulted {s t : State} (h : exec .update s = .next t) (ht : t.phase ≠ .faulted) :
    s.phase ≠ .faulted ∧ s.phase ≠ .uninit ∧ validate s.num s.draws s.snapRead.snapBuf s.rate = none ∧
      t = updateCommit s := by
  have hp : s.phase ≠ .faulted := by
    intro hp
    rw [exec_eq, execState, State.command_faulted hp] at h
    cases h
    exact ht hp
  rw [exec_eq, execState, State.command_running hp] at h
  obtain ⟨-, hb⟩ | ⟨hu, ⟨code, -, hb⟩ | ⟨hv, hb⟩⟩ := updateBody_cases .hold s <;> rw [hb] at h <;> cases h
  · exact absurd rfl ht
  · exact absurd rfl ht
  · exact ⟨hp, hu, hv, rfl⟩

/-- Settles O22: with PS quiet both UPDATEs read the same cells at the same rate, so the second writes the words that are
there; its draws differ, which only a NaN could show. -/
theorem updateTwiceIsOnce : Obligations.UpdateTwiceIsOnce := by
  intro s t u hquiet hst ht hnan htu
  obtain ⟨hp, hu, hv, rfl⟩ := exec_update_of_not_faulted hst ht
  have hbuf : s.snapRead.snapBuf = s.cells := State.snapRead_snapBuf_of_quiet (by simp [hquiet])
  have hcells : (updateCommit s).cells = s.cells := by simp [hquiet, psWrites]
  have hbuf' : (updateCommit s).snapRead.snapBuf = s.cells :=
    (State.snapRead_snapBuf_of_quiet (by simp [hquiet])).trans hcells
  have hchain (c : Chan) : (updateCommit s).chain c = generatedChain s.num s.draws s.cells s.rate (s.chain c) := by
    rw [updateCommit_chain, hbuf]
  rw [hbuf] at hv
  have hv' : validate (updateCommit s).num (updateCommit s).draws (updateCommit s).snapRead.snapBuf (updateCommit s).rate =
      none := by
    rw [updateCommit_num, updateCommit_rate, hbuf']
    exact validate_draw hv _
  cases (exec_update_of_passes ht (by simpa using hu) hv').symm.trans htu
  have hagain (c : Chan) : (updateCommit (updateCommit s)).chain c = (updateCommit s).chain c := by
    have hc := hnan c
    rw [updateCommit_chain, hbuf', updateCommit_num, updateCommit_rate]
    rw [hchain] at hc ⊢
    exact generatedChain_again hv hc _
  exact ⟨hagain .left, hagain .right, by simp [hbuf, hbuf'], by simp, by simp, by simp, by simp,
    by simp [hquiet, psWrites], by simp [hbuf, hbuf'], by simp, by simp⟩

end Sys2Proof.Machine
end

section
/-! Rounding to binary32 (40_numerics.md R102): when it overflows, that it is to nearest, and which way a tie goes. -/

namespace Sys2Proof.Machine

/-! ### Overflow -/

/-- A rounded quotient is below `k` when the quotient lies below the midpoint under `k`. -/
theorem F32.divEven_lt {n d k : Nat} (hd : 0 < d) (h : 2 * n < (2 * k - 1) * d) : F32.divEven n d < k := by
  have herr := F32.divEven_error (n := n) hd
  by_contra hk
  have hle : k * d ≤ F32.divEven n d * d := Nat.mul_le_mul_right d (not_lt.1 hk)
  have hk : (2 * k - 1) * d + d = 2 * (k * d) ∨ k = 0 := by
    obtain rfl | k := k
    · exact .inr rfl
    · left
      rw [show 2 * (k + 1) - 1 = 2 * k + 1 by omega]
      ring
  obtain hk | rfl := hk
  · have : (F32.divEven n d : Int) * d = ((F32.divEven n d * d : Nat) : Int) := by push_cast; rfl
    omega
  · simp at h

/-- Rounding overflows from the midpoint above the largest finite number on (R102). -/
theorem F32.round_lt_infBits_iff {n d : Nat} (hd : 0 < d) :
    F32.round n d < F32.infBits ↔ n < (2 ^ 25 - 1) * 2 ^ 252 * d := by
  constructor
  · intro h
    by_contra hn
    have hmid : F32.round ((2 ^ 25 - 1) * 2 ^ 252) 1 = F32.infBits := by decide +kernel
    have hmono := F32.round_mono (n1 := (2 ^ 25 - 1) * 2 ^ 252) (n2 := n) one_pos hd (by rw [mul_one]; exact not_lt.1 hn)
    rw [hmid] at hmono
    exact absurd h (not_lt.2 hmono)
  · intro h
    have hs := F32.scale_pos (n := n) hd
    rw [Nat.mul_assoc] at h
    have hround : F32.round n d ≤ F32.quantum n d * 2 ^ 23 + F32.divEven n (d * 2 ^ F32.quantum n d) :=
      Nat.min_le_left _ _
    have hle := F32.significand_le (n := n) hd
    rw [F32.infBits]
    obtain hq | hq | hq := Nat.lt_trichotomy (F32.quantum n d) 253
    · omega
    · have hlt : F32.divEven n (d * 2 ^ F32.quantum n d) < 2 ^ 24 := by
        refine F32.divEven_lt hs ?_
        rw [hq, show d * 2 ^ 253 = 2 * (2 ^ 252 * d) by ring]
        omega
      omega
    · exfalso
      have hnorm := F32.quantum_normal (n := n) (d := d) (by omega)
      have hpow : (2 : Nat) ^ 254 ≤ 2 ^ F32.quantum n d := Nat.pow_le_pow_right (by norm_num) hq
      have hbig : 2 ^ 23 * (d * 2 ^ 254) ≤ n := le_trans (by gcongr) hnorm
      rw [show d * 2 ^ 254 = 4 * (2 ^ 252 * d) by ring] at hbig
      omega

/-! ### Ties -/

/-- Only an even quotient is rounded from a midpoint: an odd one is nearer than half its divisor. -/
theorem F32.divEven_error_lt_of_odd {n d : Nat} (hd : 0 < d) (hodd : F32.divEven n d % 2 = 1) :
    2 * ((n : Int) - (F32.divEven n d : Int) * d).natAbs < d := by
  have hmod := Nat.mod_lt n hd
  have hdiv : (n : Int) = (d : Int) * ((n / d : Nat) : Int) + ((n % d : Nat) : Int) := by
    exact_mod_cast (Nat.div_add_mod n d).symm
  unfold F32.divEven at hodd ⊢
  simp only at hodd ⊢
  split_ifs at hodd ⊢ with hlow hhigh
  · have herr : (n : Int) - ((n / d : Nat) : Int) * d = ((n % d : Nat) : Int) := by rw [hdiv]; push_cast; ring
    rw [herr]
    omega
  · have herr : (n : Int) - ((n / d + 1 : Nat) : Int) * d = ((n % d : Nat) : Int) - d := by
      rw [hdiv]
      push_cast
      ring
    rw [herr]
    omega
  · omega

/-- A rounded quotient as near to `n` as another whole number of divisors is even. -/
theorem F32.divEven_even_of_tie {n d j : Nat} (hd : 0 < d) (hj : j ≠ F32.divEven n d)
    (htie : ((n : Int) - (F32.divEven n d : Int) * d).natAbs = ((n : Int) - (j : Int) * d).natAbs) :
    F32.divEven n d % 2 = 0 := by
  by_contra hodd
  have hlt := F32.divEven_error_lt_of_odd hd (Nat.mod_two_ne_zero.1 hodd)
  have hsep : (d : Int) ≤ |((F32.divEven n d : Int) - j) * d| := by
    rw [abs_mul, abs_of_pos (by exact_mod_cast hd : (0 : Int) < d)]
    have hone : (1 : Int) ≤ |(F32.divEven n d : Int) - j| := Int.one_le_abs (sub_ne_zero.2 (by exact_mod_cast hj.symm))
    exact le_mul_of_one_le_left (Int.natCast_nonneg d) hone
  have htri : ((F32.divEven n d : Int) - j) * d = ((n : Int) - j * d) - ((n : Int) - F32.divEven n d * d) := by ring
  rw [htri] at hsep
  generalize (n : Int) - j * d = x at *
  generalize (n : Int) - F32.divEven n d * d = y at *
  obtain ⟨habs, -⟩ | ⟨habs, -⟩ := abs_cases (x - y) <;> omega

/-- The 31 low bits that rounding gives are even where another binary32 magnitude is as near. -/
theorem F32.round_even_of_tie {n d m : Nat} (hd : 0 < d) (h : F32.round n d < F32.infBits)
    (hne : F32.magOf m ≠ F32.magOf (F32.round n d))
    (htie : ((n : Int) - (F32.magOf (F32.round n d) : Int) * d).natAbs = ((n : Int) - (F32.magOf m : Int) * d).natAbs) :
    F32.round n d % 2 = 0 := by
  have hs := F32.scale_pos (n := n) hd
  have hform (j : Nat) : (n : Int) - ((j * 2 ^ F32.quantum n d : Nat) : Int) * d =
      (n : Int) - (j : Int) * ((d * 2 ^ F32.quantum n d : Nat) : Int) := by
    push_cast
    ring
  have hround : F32.round n d = F32.quantum n d * 2 ^ 23 + F32.divEven n (d * 2 ^ F32.quantum n d) := by
    unfold F32.round at h ⊢
    simp only at h ⊢
    omega
  suffices heven : F32.divEven n (d * 2 ^ F32.quantum n d) % 2 = 0 by omega
  by_cases hmul : 2 ^ F32.quantum n d ∣ F32.magOf m
  · obtain ⟨j, hj⟩ := hmul
    rw [Nat.mul_comm] at hj
    rw [F32.magOf_round hd h, hj] at hne htie
    rw [hform, hform] at htie
    exact F32.divEven_even_of_tie hs (fun e => hne (by rw [e])) htie
  · exfalso
    have hq : 0 < F32.quantum n d := by
      by_contra hq
      exact hmul (by simp [Nat.eq_zero_of_not_pos hq])
    have hlt : F32.magOf m < 2 ^ 23 * 2 ^ F32.quantum n d := not_le.1 fun hle => hmul (F32.magOf_dvd hle)
    have hnear := F32.divEven_nearest hs (n := n) (2 ^ 23)
    rw [← hform, ← hform, ← F32.magOf_round hd h, htie] at hnear
    have hnorm := F32.quantum_normal hq
    have hltd : F32.magOf m * d < 2 ^ 23 * 2 ^ F32.quantum n d * d := Nat.mul_lt_mul_of_pos_right hlt hd
    have hcast (j : Nat) : (j : Int) * d = ((j * d : Nat) : Int) := by push_cast; rfl
    rw [hcast, hcast] at hnear
    rw [show 2 ^ 23 * (d * 2 ^ F32.quantum n d) = 2 ^ 23 * 2 ^ F32.quantum n d * d by ring] at hnorm
    omega

/-! ### The binary32 of a rational -/

/-- The sign bit does not make a word odd. -/
theorem pack_toNat_even (s : Bool) {m : Nat} (h : m < 2 ^ 31) (heven : m % 2 = 0) : (F32.pack s m).toNat % 2 = 0 := by
  rw [F32.pack_toNat s h]
  cases s
  · exact heven
  · rw [if_pos rfl, Nat.add_mod, heven]
    norm_num

section NearestEven

variable {s : Bool} {n d : Nat}

/-- The rational of a sign, a numerator and a denominator. -/
def signedRat (s : Bool) (n d : Nat) : ℚ := (if s then -1 else 1) * (n / d)

theorem abs_signedRat : |signedRat s n d| = n / d := by
  have hnonneg : (0 : ℚ) ≤ n / d := by positivity
  cases s
  · simp [signedRat, abs_of_nonneg hnonneg]
  · simp [signedRat, abs_of_nonneg hnonneg]

theorem abs_signedRat_sub (m : Nat) :
    |signedRat s n d - (if s then -(m : Int) else (m : Int) : Int)| = |(n : ℚ) / d - m| := by
  cases s
  · simp [signedRat]
  · rw [← abs_neg]
    simp [signedRat]
    ring_nf

/-- A distance of rationals over one denominator, as a distance of whole numbers. -/
theorem abs_div_sub_natCast (hd : 0 < d) (m : Nat) :
    |(n : ℚ) / d - m| = (((n : Int) - (m : Int) * d).natAbs : ℚ) / d := by
  have hd' : (0 : ℚ) < d := by exact_mod_cast hd
  have hsub : (n : ℚ) / d - m = (n - m * d) / d := by rw [sub_div, mul_div_cancel_right₀ _ hd'.ne']
  rw [hsub, abs_div, abs_of_pos hd', Nat.cast_natAbs]
  push_cast
  rfl

theorem val_pack_round : F32.val (F32.pack s (F32.round n d)) =
    if s then -(F32.magOf (F32.round n d) : Int) else (F32.magOf (F32.round n d) : Int) :=
  F32.val_pack s (F32.round_lt n d)

/-- The distance of a rounded rational from its binary32. -/
theorem abs_signedRat_sub_pack (hd : 0 < d) :
    |signedRat s n d - F32.val (F32.pack s (F32.round n d))| =
      (((n : Int) - (F32.magOf (F32.round n d) : Int) * d).natAbs : ℚ) / d := by
  rw [val_pack_round, abs_signedRat_sub, abs_div_sub_natCast hd]

/-- The distance of a rational from any word is at least that of the magnitudes. -/
theorem le_abs_signedRat_sub (hd : 0 < d) (c : Word) :
    (((n : Int) - (F32.mag c : Int) * d).natAbs : ℚ) / d ≤ |signedRat s n d - F32.val c| := by
  rw [← abs_div_sub_natCast hd]
  have hval : (F32.mag c : ℚ) = |(F32.val c : ℚ)| := by
    rw [F32.mag_eq_natAbs_val, Nat.cast_natAbs, Int.cast_abs]
  rw [hval, ← abs_signedRat (s := s)]
  exact abs_abs_sub_abs_le _ _

theorem round_zero (hd : 0 < d) : F32.round 0 d = 0 := by
  simpa using F32.round_exact (m := 0) hd (by norm_num [F32.infBits])

theorem natAbs_val_pack_round : (F32.val (F32.pack s (F32.round n d))).natAbs = F32.magOf (F32.round n d) := by
  rw [val_pack_round]
  split_ifs <;> omega

/-- Only zero is equally near to two different values of the same magnitude. -/
theorem eq_zero_of_tie_opposite (hd : 0 < d) {v w : Int} (habs : w.natAbs = v.natAbs) (hne : w ≠ v)
    (htie : |signedRat s n d - v| = |signedRat s n d - w|) : n = 0 := by
  have hw : w = -v := (Int.natAbs_eq_natAbs_iff.1 habs).resolve_left hne
  have hv : (v : ℚ) ≠ 0 := by
    intro h0
    rw [Int.cast_eq_zero.1 h0] at hw hne
    exact hne hw
  rw [hw, abs_eq_abs] at htie
  push_cast at htie
  have hzero : signedRat s n d = 0 := by
    obtain h | h := htie
    · exact absurd (show (v : ℚ) = 0 by linarith) hv
    · linarith
  have hdiv : (n : ℚ) / d = 0 := by rw [← abs_signedRat (s := s), hzero, abs_zero]
  have hd' : (d : ℚ) ≠ 0 := by exact_mod_cast hd.ne'
  simpa [hd'] using hdiv

/-- Rounding a signed rational and packing the sign gives its binary32 (R102), an exact zero with either sign. -/
theorem nearestEven_pack (hd : 0 < d) : NearestEven (signedRat s n d) (F32.pack s (F32.round n d)) := by
  have hd' : (0 : ℚ) < d := by exact_mod_cast hd
  have hfinite : F32.isFinite (F32.pack s (F32.round n d)) = true ↔ F32.round n d < F32.infBits :=
    F32.isFinite_pack_round s n d
  refine ⟨?threshold, fun hf c hc => ?nearest, fun hinf => ?overflow⟩
  case threshold =>
    rw [hfinite, F32.round_lt_infBits_iff hd, abs_signedRat, div_lt_iff₀ hd', ← Nat.cast_lt (α := ℚ)]
    norm_num
  case nearest =>
    rw [hfinite] at hf
    have hle := F32.round_nearest hd hf (F32.low c)
    rw [← F32.mag_eq] at hle
    have hc := le_abs_signedRat_sub (s := s) (n := n) hd c
    have hr := abs_signedRat_sub_pack (s := s) (n := n) hd
    refine ⟨?_, fun htie hne => ?_⟩
    · rw [hr]
      exact le_trans (by gcongr) hc
    · have heven : F32.round n d % 2 = 0 := by
        by_cases hmag : F32.mag c = F32.magOf (F32.round n d)
        · rw [eq_zero_of_tie_opposite hd ((F32.mag_eq_natAbs_val c).symm.trans (hmag.trans natAbs_val_pack_round.symm))
            hne htie, round_zero hd]
        · refine F32.round_even_of_tie hd hf (m := F32.low c) (by rwa [← F32.mag_eq]) (le_antisymm ?_ ?_)
          · rwa [← F32.mag_eq]
          · rw [← htie, hr, div_le_div_iff_of_pos_right hd'] at hc
            rw [← F32.mag_eq]
            exact_mod_cast hc
      exact pack_toNat_even s (F32.round_lt n d) heven
  case overflow =>
    rw [← Bool.not_eq_true, hfinite, not_lt] at hinf
    have hround : F32.round n d = F32.infBits := le_antisymm (F32.round_le n d) hinf
    have hn : 0 < n := by
      refine Nat.pos_of_ne_zero fun h0 => ?_
      rw [h0, round_zero hd] at hround
      exact absurd hround (by decide)
    have hpos : (0 : ℚ) < n / d := by positivity
    rw [hround]
    cases s
    · rw [if_neg (by simpa [signedRat] using hpos.le)]
      rfl
    · rw [if_pos (by simpa [signedRat] using hpos)]
      rfl

end NearestEven

/-! ### The four operations -/

theorem F32.val_cast (w : Word) : (F32.val w : ℚ) = (if F32.sign w then -1 else 1) * F32.mag w := by
  unfold F32.val
  split_ifs <;> simp

/-- A whole number of units, as a sign and a magnitude. -/
theorem signedRat_int (v : Int) : signedRat (decide (v < 0)) v.natAbs 1 = v := by
  unfold signedRat
  obtain h | h := lt_or_ge v 0
  · have hv : ((v.natAbs : Int) : ℚ) = (-v : Int) := by rw [Int.ofNat_natAbs_of_nonpos h.le]
    push_cast at hv
    simp [h, hv]
  · have hv : ((v.natAbs : Int) : ℚ) = v := by rw [Int.natAbs_of_nonneg h]
    push_cast at hv
    simp [not_lt.2 h, hv]

/-- The sign of a product is the exclusive-or of the signs. -/
theorem signFactor_bne (s t : Bool) :
    (if (s != t) = true then -1 else 1 : ℚ) = (if s = true then -1 else 1) * (if t = true then -1 else 1) := by
  cases s <;> cases t <;> norm_num

theorem div_signFactor (x : ℚ) (t : Bool) :
    x / (if t = true then -1 else 1) = x * (if t = true then -1 else 1) := by
  cases t <;> simp [div_neg]

theorem nearestEven_zero (s : Bool) : NearestEven 0 (F32.pack s 0) := by
  have h := nearestEven_pack (s := s) (n := 0) one_pos
  rw [round_zero one_pos] at h
  simpa [signedRat] using h

section Operations

variable {d : Nat} {a b : Word} (ha : F32.isFinite a = true) (hb : F32.isFinite b = true)
include ha hb

theorem nearestEven_add : NearestEven ((F32.val a : ℚ) + F32.val b) (F32.add d a b) := by
  rw [F32.add_of_finite ha hb, ← Int.cast_add]
  split_ifs with hzero
  · rw [hzero, Int.cast_zero]
    exact nearestEven_zero _
  · rw [← signedRat_int (F32.val a + F32.val b)]
    exact nearestEven_pack one_pos

theorem nearestEven_sub : NearestEven ((F32.val a : ℚ) - F32.val b) (F32.sub d a b) := by
  have h := nearestEven_add (d := d) ha ((F32.isFinite_neg b).trans hb)
  rwa [F32.val_neg, Int.cast_neg, ← sub_eq_add_neg] at h

theorem nearestEven_mul : NearestEven ((F32.val a : ℚ) * F32.val b / 2 ^ 149) (F32.mul d a b) := by
  have hx : (F32.val a : ℚ) * F32.val b / 2 ^ 149 =
      signedRat (F32.sign a != F32.sign b) (F32.mag a * F32.mag b) (2 ^ 149) := by
    rw [F32.val_cast, F32.val_cast, signedRat, signFactor_bne, Nat.cast_mul, Nat.cast_pow, Nat.cast_ofNat]
    ring
  rw [F32.mul_of_finite ha hb, hx]
  exact nearestEven_pack (by norm_num)

theorem nearestEven_div (hne : F32.val b ≠ 0) :
    NearestEven ((F32.val a : ℚ) * 2 ^ 149 / F32.val b) (F32.div d a b) := by
  have hmag : F32.mag b ≠ 0 := mt (F32.val_eq_zero_iff b).2 hne
  have hx : (F32.val a : ℚ) * 2 ^ 149 / F32.val b =
      signedRat (F32.sign a != F32.sign b) (F32.mag a * 2 ^ 149) (F32.mag b) := by
    rw [F32.val_cast, F32.val_cast, signedRat, signFactor_bne, Nat.cast_mul, Nat.cast_pow, Nat.cast_ofNat,
      div_mul_eq_div_div, mul_right_comm, div_signFactor]
    ring
  rw [F32.div_of_finite ha hb hmag, hx]
  exact nearestEven_pack (Nat.pos_of_ne_zero hmag)

end Operations

/-- Settles O46: on finite words each operation rounds and packs its exact result. -/
theorem operationsRoundToNearestEven : Obligations.OperationsRoundToNearestEven := fun _ _ _ ha hb =>
  ⟨nearestEven_add ha hb, nearestEven_sub ha hb, nearestEven_mul ha hb, nearestEven_div ha hb⟩

end Sys2Proof.Machine
end

section
/-! The lines of a run and their beats (30_encoding.md R90, R91). -/

namespace Sys2Proof.Machine

theorem assemble_singleton (l : Line) : assemble [l] = (expandLine l).map encode := by
  simp [assemble]

/-- Every command a well-formed line stands for has an encoding. -/
theorem wellFormed_of_mem_expandLine {l : Line} (hl : lineWellFormed l = true) {i : Instr} (hi : i ∈ expandLine l) :
    i.WellFormed := by
  cases l with
  | prepare n fs blk =>
    obtain rfl := List.mem_singleton.1 hi
    simp only [lineWellFormed, Bool.and_eq_true] at hl
    exact hl.1.1
  | start fs =>
    obtain rfl := List.mem_singleton.1 hi
    rfl
  | pset k v =>
    obtain ⟨hk, -⟩ : k < 7 ∧ _ := by simpa [lineWellFormed] using hl
    have hcell : cellOfNumber k = some allCells[k] := List.getElem?_eq_getElem hk
    rw [expandLine, ← cellIndex_of_cellOfNumber hcell, psetInstr_cellIndex, List.mem_singleton] at hi
    exact hi ▸ wellFormed_psetOf _ _
  | block frames =>
    obtain rfl | hi := List.mem_cons.1 hi
    · rfl
    · obtain ⟨f, -, rfl⟩ := List.mem_map.1 hi
      rfl
  | nop => exact List.mem_singleton.1 hi ▸ rfl
  | update => exact List.mem_singleton.1 hi ▸ rfl
  | frame l r => exact List.mem_singleton.1 hi ▸ rfl
  | rds sel => exact List.mem_singleton.1 hi ▸ rfl
  | rdcoef ch s r => exact List.mem_singleton.1 hi ▸ rfl
  | rdstatus => exact List.mem_singleton.1 hi ▸ rfl
  | rdsnap k => exact List.mem_singleton.1 hi ▸ rfl

/-- The beats of a well-formed line decode to the commands it stands for. -/
theorem decode_assemble {l : Line} (hl : lineWellFormed l = true) :
    (assemble [l]).map decode = (expandLine l).map Decoded.instr := by
  rw [assemble_singleton, List.map_map]
  exact List.map_congr_left fun i hi => decodeOfEncode i (wellFormed_of_mem_expandLine hl hi)

theorem assemble_append (a b : List Line) : assemble (a ++ b) = assemble a ++ assemble b := List.flatMap_append

theorem assemble_rds {sel : Nat} (h : sel < 2 ^ 16) :
    assemble [.rds sel] = [.command (BitVec.ofNat 96 ((0x04000000 + sel) * 2 ^ 64))] := by
  rw [assemble_singleton, expandLine, List.map_singleton, encode_rds_eq_ofNat, BitVec.toNat_ofNat, Nat.mod_eq_of_lt h]

theorem assemble_pset {k : Nat} (hk : k < 7) (v : Operand) :
    assemble [.pset k v] = [.parameter (BitVec.ofNat 35 (k * 2 ^ 32 + (operandWord v).toNat))] := by
  have hcell : cellOfNumber k = some allCells[k] := List.getElem?_eq_getElem hk
  rw [assemble_singleton, expandLine, ← cellIndex_of_cellOfNumber hcell, psetInstr_cellIndex, List.map_singleton,
    encode_psetOf, parameterBits_ofNat]

/-- A decimal operand is the binary32 of its value (R90). -/
theorem nearestEven_decimal (negative : Bool) (num : Nat) {den : Nat} (hden : den ≠ 0) :
    NearestEven ((if negative then -1 else 1) * (num : ℚ) / den * 2 ^ 149) (operandWord (.decimal negative num den)) := by
  have hx : (if negative then -1 else 1) * (num : ℚ) / den * 2 ^ 149 = signedRat negative (num * 2 ^ 149) den := by
    rw [signedRat, Nat.cast_mul, Nat.cast_pow, Nat.cast_ofNat]
    ring
  rw [hx]
  exact nearestEven_pack (Nat.pos_of_ne_zero hden)

/-- Settles O11: a line's beats are the encodings of its commands, which decode back; the rest is the table of the lines. -/
theorem linesAssembleToTheirCommands : Obligations.LinesAssembleToTheirCommands := by
  refine ⟨fun l hl => decode_assemble hl, assemble_append, ⟨rfl, rfl, fun n fs blk hn => ?prepare, fun l r => ?frame,
    fun sel h => assemble_rds h, fun k v hk => assemble_pset hk v⟩, ⟨fun _ => rfl, fun n hn => ?integer,
    fun negative num den hden => nearestEven_decimal negative num hden⟩, fun frames => ?block, fun c s r => ?coef, rfl,
    fun _ => rfl, fun _ => rfl⟩
  case prepare => rw [assemble_singleton, expandLine, List.map_singleton, encode_prepare_eq_ofNat hn]
  case frame => rw [assemble_singleton, expandLine, List.map_singleton, encode_frame_eq_ofNat]
  case integer => exact (BitVec.toNat_ofNat n 32).trans (Nat.mod_eq_of_lt hn)
  case block => simp only [expandLine, List.map_eq_flatMap]
  case coef => rfl

end Sys2Proof.Machine
end

section
/-! Silence and unity: what a stage makes of zeros, and of a unity bell's coefficients (42_stage_bank_chain.md R153,
41_coefficient_generator.md R122). -/

namespace Sys2Proof.Machine

/-! ### Zeros -/

theorem F32.mag_pos_zero : F32.mag 0x00000000#32 = 0 := by decide

@[simp] theorem F32.mag_pack_zero (s : Bool) : F32.mag (F32.pack s 0) = 0 := by
  rw [F32.mag_eq_zero_iff, F32.low_pack s (by norm_num)]

section Zeros

variable {d : Nat} {a b : Word}

theorem F32.mag_mul_zero (ha : F32.isFinite a = true) (hb : F32.mag b = 0) : F32.mag (F32.mul d a b) = 0 := by
  rw [F32.mul_of_finite ha (F32.finite_of_mag_zero hb), hb, Nat.mul_zero, round_zero (by norm_num), F32.mag_pack_zero]

theorem F32.mag_add_zero (ha : F32.mag a = 0) (hb : F32.mag b = 0) : F32.mag (F32.add d a b) = 0 := by
  have hsum : F32.val a + F32.val b = 0 := by
    rw [(F32.val_eq_zero_iff a).2 ha, (F32.val_eq_zero_iff b).2 hb, add_zero]
  rw [F32.add_of_finite (F32.finite_of_mag_zero ha) (F32.finite_of_mag_zero hb), if_pos hsum, F32.mag_pack_zero]

theorem F32.mag_sub_zero (ha : F32.mag a = 0) (hb : F32.mag b = 0) : F32.mag (F32.sub d a b) = 0 :=
  F32.mag_add_zero ha ((F32.mag_neg b).trans hb)

end Zeros

/-! ### Silence -/

/-- A stage with finite coefficients and silent registers keeps silence (R153). -/
theorem stageStep_silent (e : Elem Word) (d : Nat) {b : Biquad Word} {x : Word} (hcoef : CoefFinite b.coef)
    (hz1 : F32.mag b.z1 = 0) (hz2 : F32.mag b.z2 = 0) (hx : F32.mag x = 0) :
    F32.mag (stageStep (f32 e) d b x).1 = 0 ∧ F32.mag (stageStep (f32 e) d b x).2.z1 = 0 ∧
      F32.mag (stageStep (f32 e) d b x).2.z2 = 0 := by
  obtain ⟨hb0, hb1, hb2, ha1, ha2⟩ := hcoef
  have hy : F32.mag (stageStep (f32 e) d b x).1 = 0 := F32.mag_add_zero (F32.mag_mul_zero hb0 hx) hz1
  exact ⟨hy, F32.mag_add_zero (F32.mag_sub_zero (F32.mag_mul_zero hb1 hx) (F32.mag_mul_zero ha1 hy)) hz2,
    F32.mag_sub_zero (F32.mag_mul_zero hb2 hx) (F32.mag_mul_zero ha2 hy)⟩

section Silence

variable (e : Elem Word) (d : Nat) {c : Chain Word} (hz : DelaysSilent c)
  (hcoef : ∀ s : Fin 9, CoefFinite (c.stage s).coef)
include hz hcoef

theorem muxAt_silent (i : Fin 9) {v : Word} (hv : F32.mag v = 0) :
    F32.mag (muxAt (f32 e) d c i v).1 = 0 ∧ F32.mag (muxAt (f32 e) d c i v).2.z1 = 0 ∧
      F32.mag (muxAt (f32 e) d c i v).2.z2 = 0 := by
  cases hbyp : c.bypassed i with
  | true =>
    rw [muxAt_of_bypassed _ _ _ hbyp]
    exact ⟨hv, (hz i).1, (hz i).2⟩
  | false =>
    rw [muxAt_of_enabled _ _ _ hbyp]
    exact stageStep_silent e _ (hcoef i) (hz i).1 (hz i).2 hv

theorem sampleAt_silent {x : Word} (hx : F32.mag x = 0) {n : Nat} (hn : n ≤ 9) :
    F32.mag (sampleAt (f32 e) d c x n) = 0 := by
  induction n with
  | zero => exact hx
  | succ n ih =>
    rw [sampleAt_succ _ _ _ _ hn]
    exact (muxAt_silent e d hz hcoef ⟨n, hn⟩ (ih (Nat.le_of_succ_le hn))).1

end Silence

/-- Settles O55: silence passes each stage in turn, which keeps its registers silent. -/
theorem silenceInSilenceOut : Obligations.SilenceInSilenceOut := by
  intro e d c x hz hcoef hx
  rw [chainStep_hold]
  refine ⟨sampleAt_silent e d hz hcoef hx le_rfl, fun i => ?_⟩
  rw [chainAfter_stage]
  exact (muxAt_silent e d hz hcoef i (sampleAt_silent e d hz hcoef hx i.isLt.le)).2

/-! ### A unity bell -/

theorem two_pow_lt_mul {k a b : Nat} (h : k < a + b) : 2 ^ k < 2 ^ a * 2 ^ b := by
  rw [← pow_add]
  exact Nat.pow_lt_pow_right one_lt_two h

/-- A magnitude below that of the infinities is that of a finite word. -/
theorem F32.finite_of_mag_lt {w : Word} (h : F32.mag w < F32.infMag) : F32.isFinite w = true := by
  rw [F32.isFinite_iff]
  rw [F32.mag_eq] at h
  exact F32.magOf_strictMono.lt_iff_lt.1 h

theorem F32.mag_le_of_abs_val_le {w : Word} {k : Nat} (h : |F32.val w| ≤ 2 ^ k) : F32.mag w ≤ 2 ^ k := by
  rw [F32.mag_eq_natAbs_val]
  zify
  exact h

theorem F32.finite_of_abs_val_le {w : Word} {k : Nat} (hk : k < 24 + 253) (h : |F32.val w| ≤ 2 ^ k) :
    F32.isFinite w = true := by
  apply F32.finite_of_mag_lt
  calc F32.mag w ≤ 2 ^ k := F32.mag_le_of_abs_val_le h
    _ < F32.infMag := F32.infMag_eq ▸ two_pow_lt_mul hk

/-- A product of magnitudes far from overflow is finite. -/
theorem F32.finite_mul {d : Nat} {a b : Word} {j k : Nat} (hjk : j + k ≤ 24 + 252 + 149) (hj : j < 24 + 253)
    (hk : k < 24 + 253) (ha : |F32.val a| ≤ 2 ^ j) (hb : |F32.val b| ≤ 2 ^ k) :
    F32.isFinite (F32.mul d a b) = true := by
  rw [F32.mul_of_finite (F32.finite_of_abs_val_le hj ha) (F32.finite_of_abs_val_le hk hb), F32.isFinite_pack_round,
    F32.round_lt_infBits_iff (Nat.two_pow_pos _)]
  calc F32.mag a * F32.mag b
      ≤ 2 ^ j * 2 ^ k := Nat.mul_le_mul (F32.mag_le_of_abs_val_le ha) (F32.mag_le_of_abs_val_le hb)
    _ = 2 ^ (j + k) := (pow_add ..).symm
    _ ≤ 2 ^ 24 * (2 ^ 252 * 2 ^ 149) := by
      rw [← pow_add, ← pow_add, ← add_assoc]; exact Nat.pow_le_pow_right (by norm_num) hjk
    _ < (2 ^ 25 - 1) * (2 ^ 252 * 2 ^ 149) := Nat.mul_lt_mul_of_pos_right (by norm_num) (by positivity)
    _ = (2 ^ 25 - 1) * 2 ^ 252 * 2 ^ 149 := (mul_assoc ..).symm

/-- A finite word plus +0.0 is the word, but −0.0 gives +0.0 (40_numerics.md R104). -/
theorem F32.add_zero_of_finite {d : Nat} {x : Word} (hx : F32.isFinite x = true) :
    F32.add d x 0x00000000#32 = if x = 0x80000000#32 then 0x00000000#32 else x := by
  have hzero : F32.isFinite 0x00000000#32 = true ∧ F32.val 0x00000000#32 = 0 ∧ F32.sign 0x00000000#32 = false := by decide
  obtain ⟨hfin, hval, hsign⟩ := hzero
  rw [F32.add_of_finite hx hfin, hval, add_zero, hsign, Bool.and_false]
  split_ifs with h0 hneg hneg
  · rfl
  · exact ((F32.eq_zero_of_mag_zero ((F32.val_eq_zero_iff x).1 h0)).resolve_right hneg).symm
  · exact absurd (by rw [hneg]; decide) h0
  · have hsignx : decide (F32.val x < 0) = F32.sign x := by
      have hmag := mt (F32.val_eq_zero_iff x).2 h0
      unfold F32.val
      cases F32.sign x
      · simp
      · simp [Nat.pos_of_ne_zero hmag]
    have hround := F32.round_mag hx one_pos
    rw [mul_one] at hround
    rw [hsignx, ← F32.mag_eq_natAbs_val, hround, F32.pack_sign_low]

section UnityBell

variable {e : Elem Word} {c : Coef Word} {x : Word} (hb0 : c.b0 = F32.one) (hb1 : c.b1 = c.a1) (hb2 : c.b2 = c.a2)
  (h1 : |F32.val c.b1| ≤ 2 ^ 150) (h2 : |F32.val c.b2| ≤ 2 ^ 149) (hx : |F32.val x| ≤ 2 ^ 275)

/-- Equal products cancel: the two registers of a unity bell get the difference of one product and itself. -/
theorem F32.sub_mul_same {d d' d'' j k : Nat} {a b : Word} (hjk : j + k ≤ 24 + 252 + 149) (hj : j < 24 + 253)
    (hk : k < 24 + 253) (ha : |F32.val a| ≤ 2 ^ j) (hb : |F32.val b| ≤ 2 ^ k) :
    F32.sub d (F32.mul d' a b) (F32.mul d'' a b) = 0x00000000#32 := by
  have hfin := F32.finite_mul (d := d') hjk hj hk ha hb
  rw [F32.mul_draw (F32.not_nan_of_finite hfin).1 d'']
  exact F32.sub_self d hfin

include hb0 hx in
theorem unityBell_output (d : Nat) :
    F32.add (d + 1) (F32.mul d c.b0 x) 0x00000000#32 = if x = 0x80000000#32 then 0x00000000#32 else x := by
  have hfin := F32.finite_of_abs_val_le (by norm_num) hx
  rw [hb0, F32.one_mul_of_finite hfin, F32.add_zero_of_finite hfin]

include hb0 hb1 hb2 h1 h2 in
theorem unityBell_coefFinite : CoefFinite c := by
  have hfin1 := F32.finite_of_abs_val_le (by norm_num) h1
  have hfin2 := F32.finite_of_abs_val_le (by norm_num) h2
  exact ⟨hb0 ▸ by decide, hfin1, hfin2, hb1 ▸ hfin1, hb2 ▸ hfin2⟩

end UnityBell

/-- Settles O54: the output is `ONE·x + 0`; for an input other than −0.0 it is the input, and each register gets a product
less itself; for −0.0 the stage is silent. -/
theorem unityBellPassesThrough : Obligations.UnityBellPassesThrough := by
  intro e d c x hb0 hb1 hb2 h1 h2 hx
  obtain ⟨y, z1, z2, hstep, hy, hz1, hz2⟩ := stageStepEquations e d c 0x00000000#32 0x00000000#32 x
  refine ⟨y, z1, z2, hstep, ?_⟩
  rw [unityBell_output hb0 hx] at hy
  by_cases hneg : x = 0x80000000#32
  · rw [if_pos hneg] at hy
    have hfin := unityBell_coefFinite hb0 hb1 hb2 h1 h2
    have hsilent := stageStep_silent e d (b := ⟨c, 0x00000000#32, 0x00000000#32⟩) (x := x) hfin F32.mag_pos_zero
      F32.mag_pos_zero (by rw [hneg]; decide)
    rw [hstep] at hsilent
    exact ⟨by rw [hy, hneg]; decide, fun h => absurd hneg h, fun _ => hy, hsilent.2⟩
  · rw [if_neg hneg] at hy
    rw [hy, ← hb1, F32.sub_mul_same (by norm_num) (by norm_num) (by norm_num) h1 hx,
      F32.add_zero_of_finite (by decide), if_neg (by decide)] at hz1
    rw [hy, ← hb2, F32.sub_mul_same (by norm_num) (by norm_num) (by norm_num) h2 hx] at hz2
    exact ⟨by rw [hy], fun _ => ⟨hy, hz1, hz2⟩, fun h => absurd h hneg,
      hz1 ▸ F32.mag_pos_zero, hz2 ▸ F32.mag_pos_zero⟩

end Sys2Proof.Machine
end

section
/-! The Nyquist check keeps the generator's argument in the range column (41_coefficient_generator.md R128). -/

namespace Sys2Proof.Machine

/-- A finite magnitude is at most the greatest one. -/
theorem F32.magOf_le_of_lt {m : Nat} (h : m < F32.infBits) : F32.magOf m ≤ (2 ^ 24 - 1) * 2 ^ 253 :=
  (F32.magOf_strictMono.monotone (Nat.le_sub_one_of_lt h)).trans (F32.magOf_le_ulp (F32.infBits - 1))

/-- A quotient rounds above a magnitude only from the midpoint between it and the next on. -/
theorem F32.midpoint_le_of_lt_round {n d m : Nat} (hd : 0 < d) (hm : m < F32.infBits) (h : m < F32.round n d) :
    (F32.magOf m + F32.magOf (m + 1)) * d ≤ 2 * n := by
  have hmono := F32.magOf_strictMono.monotone
  by_cases hr : F32.round n d < F32.infBits
  · have hnear := F32.round_nearest hd hr m
    have hnext : F32.magOf (m + 1) * d ≤ F32.magOf (F32.round n d) * d := Nat.mul_le_mul_right _ (hmono h)
    have hlt : F32.magOf m * d < F32.magOf (m + 1) * d :=
      Nat.mul_lt_mul_of_pos_right (F32.magOf_strictMono m.lt_succ_self) hd
    rw [Nat.add_mul]
    rw [← Nat.cast_mul, ← Nat.cast_mul] at hnear
    omega
  · have hover : (2 ^ 25 - 1) * 2 ^ 252 * d ≤ n := not_lt.1 (mt (F32.round_lt_infBits_iff hd).2 hr)
    have hlast : F32.magOf m ≤ (2 ^ 24 - 1) * 2 ^ 253  := F32.magOf_le_of_lt hm
    have hnext : F32.magOf (m + 1) ≤ 2 ^ 24 * 2 ^ 253 := F32.infMag_eq ▸ hmono hm
    calc (F32.magOf m + F32.magOf (m + 1)) * d
        ≤ ((2 ^ 24 - 1) * 2 ^ 253 + 2 ^ 24 * 2 ^ 253) * d := Nat.mul_le_mul_right _ (Nat.add_le_add hlast hnext)
      _ = 2 * ((2 ^ 25 - 1) * 2 ^ 252 * d) := by rw [← Nat.mul_assoc]; norm_num
      _ ≤ 2 * n := Nat.mul_le_mul_left _ hover

theorem Positive.sign {w : Word} (h : Positive w) : F32.sign w = false := by
  by_contra hs
  have hpos := h.2
  rw [F32.val, if_pos (Bool.of_not_eq_false hs)] at hpos
  omega

theorem Positive.val_eq {w : Word} (h : Positive w) : F32.val w = F32.mag w := by
  rw [F32.val, if_neg (by rw [h.sign]; exact Bool.false_ne_true)]

theorem Positive.mag_pos {w : Word} (h : Positive w) : 0 < F32.mag w := by
  have := h.val_eq ▸ h.2
  exact_mod_cast this

theorem F32.mag_half : F32.mag F32.half = 2 ^ 148 := by decide +kernel

/-- What passes the Nyquist check is below half the rate by at least half a unit in its last place. -/
theorem rate_ge_of_lt_half {d : Nat} {f fs : Word} (hf : Positive f) (hfs : Positive fs)
    (h : F32.lt f (F32.mul d fs F32.half) = true) : F32.mag f + F32.magOf (F32.low f + 1) ≤ F32.mag fs := by
  have hmul : F32.val f < F32.val (F32.mul d fs F32.half) := ((F32.lt_iff _ _).1 h).2.2
  have hround : F32.low f < F32.round (F32.mag fs * F32.mag F32.half) (2 ^ 149) := by
    rw [F32.mul_of_finite hfs.1 (by decide), hfs.sign, hf.val_eq, F32.mag_eq, val_pack_round] at hmul
    exact F32.magOf_strictMono.lt_iff_lt.1 (Int.ofNat_lt.1 hmul)
  have hmid := F32.midpoint_le_of_lt_round (Nat.two_pow_pos _) ((F32.isFinite_iff f).1 hf.1) hround
  rw [F32.mag_half, ← F32.mag_eq] at hmid
  omega

/-- The 31 low bits of 1/2 − 2^-25, the greatest binary32 number below 1/2. -/
def belowHalfBits : Nat := 0x3EFFFFFF

theorem belowHalfBits_lt : belowHalfBits < F32.infBits := by decide

theorem magOf_belowHalfBits : F32.magOf belowHalfBits + F32.magOf (belowHalfBits + 1) = (2 ^ 25 - 1) * 2 ^ 124 := by
  decide +kernel

/-- Settles O52: such a frequency over its rate lies below the midpoint above `1/2 − 2^-25`. -/
theorem nyquistKeepsBelowHalf : Obligations.NyquistKeepsBelowHalf := by
  intro d f fs hf hfs h
  have hround : F32.round (F32.mag f * 2 ^ 149) (F32.mag fs) ≤ belowHalfBits := by
    by_contra habove
    have hmid := F32.midpoint_le_of_lt_round hfs.mag_pos belowHalfBits_lt (not_le.1 habove)
    rw [magOf_belowHalfBits] at hmid
    have hrate := rate_ge_of_lt_half hf hfs h
    have hulp := F32.magOf_le_ulp (F32.low f)
    have hunit := Nat.two_pow_pos (F32.low f / 2 ^ 23 - 1)
    rw [F32.magOf_succ, ← F32.mag_eq] at hrate
    rw [← F32.mag_eq] at hulp
    omega
  rw [F32.div_of_finite hf.1 hfs.1 hfs.mag_pos.ne', hf.sign, hfs.sign]
  have hlt := F32.round_lt (F32.mag f * 2 ^ 149) (F32.mag fs)
  refine ⟨(F32.isFinite_pack_round ..).2 (hround.trans_lt belowHalfBits_lt), F32.sign_pack _ hlt, ?_⟩
  rw [F32.pack_toNat _ hlt, if_neg (by decide), Nat.add_zero]
  exact hround

end Sys2Proof.Machine
end

section
/-! What every choice of ELEM keeps: E-UNITY, E-FINITE and E-ACC (40_numerics.md R111). -/

namespace Sys2Proof.Machine

/-! ### E-ACC -/

theorem accBound_valid (e : ElemChoice) : 0 < (accBound e).2 ∧ (accBound e).2 ≤ 2 * (accBound e).1 := by
  cases e with
  | reference => decide
  | implementation =>
    unfold accBound Elem.elemUlp
    split_ifs with h
    · exact h
    · decide

/-- The model's integer form of E-ACC says what its rational form says. -/
theorem withinUlps_of_within {u : Nat × Nat} {r : Word} {i : Elem.Ideal} (hu : 0 < u.2) (hd : 0 < i.den)
    (h : Elem.within u r i = true) : WithinUlps u r i := by
  have hu' : (0 : ℚ) < u.2 := by exact_mod_cast hu
  have hd' : (0 : ℚ) < i.den := by exact_mod_cast hd
  have hint : ((F32.val r * i.den - i.signed).natAbs : ℚ) * u.2 ≤ u.1 * (2 ^ F32.quantum i.num i.den * i.den) := by
    exact_mod_cast of_decide_eq_true h
  rw [Nat.cast_natAbs] at hint
  push_cast at hint
  have hdiff : (F32.val r : ℚ) - i.signed / i.den = (F32.val r * i.den - i.signed) / i.den := by
    rw [sub_div, mul_div_cancel_right₀ _ hd'.ne']
  rw [WithinUlps, hdiff, abs_div, abs_of_pos hd', div_le_iff₀ hd', div_mul_eq_mul_div, div_mul_eq_mul_div,
    le_div_iff₀ hu', mul_assoc (u.1 : ℚ)]
  exact hint

section Choice

variable {lo hi : Nat} {i : Elem.Ideal} {e : ElemChoice} {r : Word} (hhi : hi < F32.infBits)
include hhi

theorem within_nearest (e : ElemChoice) (h : InBounds lo hi i) :
    Elem.within (accBound e) (Elem.nearest lo hi i) i = true := by
  obtain ⟨hd, hlo, hup⟩ := h
  have hhalf := Elem.nearest_within hd hlo hup hhi
  cases e with
  | reference => exact hhalf
  | implementation => exact Elem.within_elemUlp hhalf

/-- A result is the nearest word, or one an implementation has chosen, with the property `P` and accurate beside the nearest
word. Either way it has `P`, and meets E-ACC where a word within the bounds can. -/
theorem meets_of_choice {P : Word → Prop} (hnear : P (Elem.nearest lo hi i))
    (h : r = Elem.nearest lo hi i ∨ e = .implementation ∧ P r ∧ Elem.accurate r (Elem.nearest lo hi i) i = true) :
    P r ∧ (InBounds lo hi i → WithinUlps (accBound e) r i) := by
  obtain rfl | ⟨rfl, hP, hacc⟩ := h
  · exact ⟨hnear, fun hb => withinUlps_of_within (accBound_valid e).1 hb.1 (within_nearest hhi e hb)⟩
  · refine ⟨hP, fun hb => withinUlps_of_within (accBound_valid .implementation).1 hb.1 ?_⟩
    have hcr := within_nearest hhi .implementation hb
    rw [accBound] at hcr ⊢
    rw [Elem.accurate, hcr, Bool.not_true, Bool.or_false] at hacc
    exact hacc

end Choice

/-- In range an implementation's result is its free value where that is fit, and the nearest word elsewhere. -/
theorem choose_cases {Q : Word → Prop} {inRange fit : Bool} {cr r : Word} (h : inRange = true) (hQ : fit = true → Q r) :
    (if inRange && !fit then cr else r) = cr ∨ Q (if inRange && !fit then cr else r) := by
  subst h
  cases fit with
  | false => exact .inl rfl
  | true => exact .inr (hQ rfl)

/-! ### The trigonometric functions -/

theorem Elem.maxFinite_lt : Elem.maxFinite < F32.infBits := by decide

theorem Elem.val_nearest_eq_mag {lo hi : Nat} {i : Elem.Ideal} (h : lo ≤ hi) (hhi : hi < F32.infBits)
    (hneg : i.negative = false) : F32.val (Elem.nearest lo hi i) = F32.mag (Elem.nearest lo hi i) := by
  have hlt : max lo (min hi (F32.round i.num i.den)) < 2 ^ 31 :=
    (max_le h (Nat.min_le_left _ _)).trans_lt (hhi.trans F32.infBits_lt)
  have hsign : F32.sign (Elem.nearest lo hi i) = false := by rw [Elem.nearest, F32.sign_pack _ hlt, hneg, Bool.false_and]
  rw [F32.val, hsign, if_neg Bool.false_ne_true]

theorem Elem.tanIdeal_negative (w : Word) : (Elem.tanIdeal w).negative = false := by
  unfold Elem.tanIdeal
  split_ifs <;> rfl

theorem Elem.sinIdeal_negative (w : Word) : (Elem.sinIdeal w).negative = false := by
  unfold Elem.sinIdeal
  split_ifs <;> rfl

theorem Elem.dbIdeal_negative (g : Word) : (Elem.dbIdeal g).negative = false := by
  unfold Elem.dbIdeal
  simp only
  split_ifs <;> rfl

/-- E-FINITE of TANPI and SIN2PI. -/
def FiniteNonneg (r : Word) : Prop := F32.isFinite r = true ∧ 0 ≤ F32.val r

/-- E-FINITE of COS2PI. -/
def FiniteUnit (r : Word) : Prop := F32.isFinite r = true ∧ |F32.val r| ≤ 2 ^ 149

/-- E-FINITE and E-UNITY of DB40 at the gain `g`. -/
def PositiveUnity (g r : Word) : Prop := F32.isFinite r = true ∧ 0 < F32.val r ∧ (F32.val g = 0 → r = F32.one)

theorem finiteNonneg_nearest {i : Elem.Ideal} (hneg : i.negative = false) :
    FiniteNonneg (Elem.nearest 0 Elem.maxFinite i) := by
  refine ⟨Elem.nearest_finite i (Nat.zero_le _) Elem.maxFinite_lt, ?_⟩
  rw [Elem.val_nearest_eq_mag (Nat.zero_le _) Elem.maxFinite_lt hneg]
  exact Int.natCast_nonneg _

theorem finiteUnit_nearest (i : Elem.Ideal) : FiniteUnit (Elem.nearest 0 0x3F800000 i) := by
  have hone : F32.low F32.one = 0x3F800000 := by decide
  have hlt : 0x3F800000 < F32.infBits := by decide
  refine ⟨Elem.nearest_finite i (Nat.zero_le _) hlt, ?_⟩
  have hle : F32.mag (Elem.nearest 0 0x3F800000 i) ≤ 2 ^ 149 := by
    rw [← F32.mag_one, F32.mag_eq, F32.mag_eq, hone]
    exact F32.magOf_strictMono.monotone (Elem.nearest_bounds i (Nat.zero_le _) hlt).2
  rw [F32.mag_eq_natAbs_val] at hle
  zify at hle
  exact hle

theorem finiteNonneg_of_ok {r cr : Word} {i : Elem.Ideal} (h : Elem.okNonneg r cr i = true) :
    FiniteNonneg r ∧ Elem.accurate r cr i = true := by
  simp only [Elem.okNonneg, Bool.and_eq_true, decide_eq_true_eq] at h
  exact h

theorem finiteUnit_of_ok {r cr : Word} {i : Elem.Ideal} (h : Elem.okCos r cr i = true) :
    FiniteUnit r ∧ Elem.accurate r cr i = true := by
  simp only [Elem.okCos, Bool.and_eq_true, decide_eq_true_eq] at h
  obtain ⟨⟨hfin, hle⟩, hacc⟩ := h
  zify at hle
  exact ⟨⟨hfin, hle⟩, hacc⟩

theorem positiveUnity_of_ok {g r cr : Word} (h : Elem.okDb40 g r cr = true) :
    PositiveUnity g r ∧ Elem.accurate r cr (Elem.dbIdeal g) = true := by
  simp only [Elem.okDb40, Bool.and_eq_true, Bool.or_eq_true, decide_eq_true_eq, beq_iff_eq] at h
  obtain ⟨⟨⟨hfin, hpos⟩, hacc⟩, hunity⟩ := h
  exact ⟨⟨hfin, hpos, fun hg => hunity.resolve_left (not_not_intro hg)⟩, hacc⟩

section Range

variable (e : ElemChoice) {w : Word} (hw : Elem.inHalf w = true)
include hw

theorem tanpi_meets : FiniteNonneg ((Elem.ofChoice e).tanpi w) ∧ (InBounds 0 Elem.maxFinite (Elem.tanIdeal w) →
    WithinUlps (accBound e) ((Elem.ofChoice e).tanpi w) (Elem.tanIdeal w)) := by
  refine meets_of_choice Elem.maxFinite_lt (finiteNonneg_nearest (Elem.tanIdeal_negative w)) ?_
  cases e with
  | reference => exact .inl (if_pos hw)
  | implementation =>
    exact (choose_cases (Q := fun r => FiniteNonneg r ∧ Elem.accurate r _ _ = true) hw
      finiteNonneg_of_ok).imp_right fun h => ⟨rfl, h⟩

theorem sin2pi_meets : FiniteNonneg ((Elem.ofChoice e).sin2pi w) ∧ (InBounds 0 Elem.maxFinite (Elem.sinIdeal w) →
    WithinUlps (accBound e) ((Elem.ofChoice e).sin2pi w) (Elem.sinIdeal w)) := by
  refine meets_of_choice Elem.maxFinite_lt (finiteNonneg_nearest (Elem.sinIdeal_negative w)) ?_
  cases e with
  | reference => exact .inl (if_pos hw)
  | implementation =>
    exact (choose_cases (Q := fun r => FiniteNonneg r ∧ Elem.accurate r _ _ = true) hw
      finiteNonneg_of_ok).imp_right fun h => ⟨rfl, h⟩

theorem cos2pi_meets : FiniteUnit ((Elem.ofChoice e).cos2pi w) ∧ (InBounds 0 0x3F800000 (Elem.cosIdeal w) →
    WithinUlps (accBound e) ((Elem.ofChoice e).cos2pi w) (Elem.cosIdeal w)) := by
  refine meets_of_choice (by decide) (finiteUnit_nearest (Elem.cosIdeal w)) ?_
  cases e with
  | reference => exact .inl (if_pos hw)
  | implementation =>
    exact (choose_cases (Q := fun r => FiniteUnit r ∧ Elem.accurate r _ _ = true) hw
      finiteUnit_of_ok).imp_right fun h => ⟨rfl, h⟩

end Range

theorem inHalf_iff (w : Word) :
    Elem.inHalf w = true ↔ F32.isFinite w = true ∧ 0 ≤ F32.val w ∧ F32.val w < 2 ^ 148 := by
  simp only [Elem.inHalf, Bool.and_eq_true, decide_eq_true_eq, and_assoc]

/-! ### DB40 -/

theorem db40CR_of_zero {g : Word} (h : F32.val g = 0) : Elem.db40CR g = F32.one := by
  obtain rfl | rfl := F32.eq_zero_of_mag_zero ((F32.val_eq_zero_iff g).1 h)
  · decide +kernel
  · decide +kernel

theorem positiveUnity_nearest (g : Word) : PositiveUnity g (Elem.nearest 1 Elem.maxFinite (Elem.dbIdeal g)) := by
  have hle : 1 ≤ Elem.maxFinite := by decide
  refine ⟨Elem.nearest_finite _ hle Elem.maxFinite_lt, ?_, db40CR_of_zero⟩
  have hlow := (Elem.nearest_bounds (Elem.dbIdeal g) hle Elem.maxFinite_lt).1
  rw [Elem.val_nearest_eq_mag hle Elem.maxFinite_lt (Elem.dbIdeal_negative g), Int.natCast_pos, Nat.pos_iff_ne_zero, ne_eq,
    F32.mag_eq_zero_iff]
  exact Nat.ne_of_gt hlow

theorem db40_meets (e : ElemChoice) {g : Word} (hg : F32.isFinite g = true) :
    PositiveUnity g ((Elem.ofChoice e).db40 g) ∧ (InBounds 1 Elem.maxFinite (Elem.dbIdeal g) →
      WithinUlps (accBound e) ((Elem.ofChoice e).db40 g) (Elem.dbIdeal g)) := by
  refine meets_of_choice Elem.maxFinite_lt (positiveUnity_nearest g) ?_
  cases e with
  | reference => exact .inl (if_pos hg)
  | implementation =>
    exact (choose_cases (Q := fun r => PositiveUnity g r ∧ Elem.accurate r (Elem.db40CR g) (Elem.dbIdeal g) = true) hg
      positiveUnity_of_ok).imp_right fun h => ⟨rfl, h⟩

/-- At ±0 dB DB40 is ONE, whatever the choice (E-UNITY). -/
theorem db40_of_zero (e : ElemChoice) {g : Word} (hg : F32.isFinite g = true) (h : F32.val g = 0) :
    (Elem.ofChoice e).db40 g = F32.one :=
  (db40_meets e hg).1.2.2 h

/-- Settles O50: each result is the nearest word within the bounds, or one that an implementation may give. -/
theorem elemUnityAndFinite : Obligations.ElemUnityAndFinite := by
  intro e
  refine ⟨accBound_valid e, fun w hfin hnn hlt => ?_, fun g hg => ?_, db40_of_zero e (by decide) (by decide),
    db40_of_zero e (by decide) (by decide)⟩
  · have hw := (inHalf_iff w).2 ⟨hfin, hnn, hlt⟩
    obtain ⟨⟨htanFin, htanNonneg⟩, htanAcc⟩ := tanpi_meets e hw
    obtain ⟨⟨hsinFin, hsinNonneg⟩, hsinAcc⟩ := sin2pi_meets e hw
    obtain ⟨⟨hcosFin, hcosUnit⟩, hcosAcc⟩ := cos2pi_meets e hw
    exact ⟨⟨htanFin, htanNonneg, htanAcc⟩, ⟨hsinFin, hsinNonneg, hsinAcc⟩, hcosFin, hcosUnit, hcosAcc⟩
  · obtain ⟨⟨hdbFin, hdbPos, -⟩, hdbAcc⟩ := db40_meets e hg
    exact ⟨hdbFin, hdbPos, hdbAcc⟩

end Sys2Proof.Machine
end

section
/-! The bell's coefficients at a gain of ±0 dB (41_coefficient_generator.md R122, first part). -/

namespace Sys2Proof.Machine

/-! ### Bounds of rounded results -/

theorem F32.round_le_of_le {n d m : Nat} (hd : 0 < d) (hm : m < F32.infBits) (h : n ≤ F32.magOf m * d) :
    F32.round n d ≤ m := by
  calc F32.round n d ≤ F32.round (F32.magOf m * d) d := F32.round_mono hd hd (Nat.mul_le_mul_right _ h)
    _ = m := F32.round_exact hd hm

theorem F32.le_round_of_le {n d m : Nat} (hd : 0 < d) (hm : m < F32.infBits) (h : F32.magOf m * d ≤ n) :
    m ≤ F32.round n d := by
  calc m = F32.round (F32.magOf m * d) d := (F32.round_exact hd hm).symm
    _ ≤ F32.round n d := F32.round_mono hd hd (Nat.mul_le_mul_right _ h)

section Bounds

variable {d : Nat} {a b c : Word} (ha : F32.isFinite a = true) (hb : F32.isFinite b = true)
include ha hb

theorem F32.low_add_of_finite : F32.low (F32.add d a b) = F32.round (F32.val a + F32.val b).natAbs 1 := by
  rw [F32.add_of_finite ha hb]
  split_ifs with h
  · rw [h, F32.low_pack _ (by norm_num), Int.natAbs_zero, round_zero one_pos]
  · exact F32.low_pack _ (F32.round_lt _ _)

theorem F32.low_sub_of_finite : F32.low (F32.sub d a b) = F32.round (F32.val a - F32.val b).natAbs 1 := by
  rw [F32.sub, F32.low_add_of_finite ha ((F32.isFinite_neg b).trans hb), F32.val_neg, sub_eq_add_neg]

theorem F32.mag_mul_le (hc : F32.isFinite c = true) (h : F32.mag a * F32.mag b ≤ F32.mag c * 2 ^ 149) :
    F32.mag (F32.mul d a b) ≤ F32.mag c := by
  rw [F32.mul_of_finite ha hb, F32.mag_eq, F32.low_pack _ (F32.round_lt _ _), F32.mag_eq c]
  rw [F32.mag_eq c] at h
  exact F32.magOf_strictMono.monotone (F32.round_le_of_le (Nat.two_pow_pos _) ((F32.isFinite_iff c).1 hc) h)

theorem F32.mag_div_le (hc : F32.isFinite c = true) (hne : F32.mag b ≠ 0)
    (h : F32.mag a * 2 ^ 149 ≤ F32.mag c * F32.mag b) : F32.mag (F32.div d a b) ≤ F32.mag c := by
  rw [F32.div_of_finite ha hb hne, F32.mag_eq, F32.low_pack _ (F32.round_lt _ _), F32.mag_eq c]
  rw [F32.mag_eq c] at h
  exact F32.magOf_strictMono.monotone (F32.round_le_of_le (Nat.pos_of_ne_zero hne) ((F32.isFinite_iff c).1 hc) h)

end Bounds

theorem F32.mul_one_of_finite {d : Nat} {a : Word} (ha : F32.isFinite a = true) : F32.mul d a F32.one = a := by
  rw [F32.mul_of_finite ha F32.isFinite_one, F32.mag_one, F32.round_mag ha (by norm_num), F32.sign_one, Bool.bne_false,
    F32.pack_sign_low]

theorem F32.div_one_of_finite {d : Nat} {a : Word} (ha : F32.isFinite a = true) : F32.div d a F32.one = a := by
  rw [F32.div_of_finite ha F32.isFinite_one (by rw [F32.mag_one]; norm_num), F32.mag_one, F32.round_mag ha (by norm_num),
    F32.sign_one, Bool.bne_false, F32.pack_sign_low]

theorem F32.div_self_of_finite {d : Nat} {a : Word} (ha : F32.isFinite a = true) (hne : F32.mag a ≠ 0) :
    F32.div d a a = F32.one := by
  rw [F32.div_of_finite ha ha hne, bne_self_eq_false, Nat.mul_comm, ← F32.mag_one,
    F32.round_mag F32.isFinite_one (Nat.pos_of_ne_zero hne), ← F32.sign_one, F32.pack_sign_low]

/-- Zero over anything, where that is a number, is a zero. -/
theorem F32.mag_div_of_zero {d : Nat} {a b : Word} (h : F32.isNaN (F32.div d a b) = false) (ha : F32.mag a = 0) :
    F32.mag (F32.div d a b) = 0 := by
  obtain ⟨-, hbn⟩ := F32.not_nan_of_div h
  cases hinf : F32.isInf b with
  | true =>
    rw [F32.div_of_inf_right h hinf, ← pack_zero_eq_zeroOfSigns]
    exact F32.mag_pack_zero _
  | false =>
    have hb := F32.finite_of_not_nan_of_not_inf hbn hinf
    have hne : F32.mag b ≠ 0 := fun h0 =>
      absurd ((F32.isNaN_div_iff _ _ _).2 (.inr (.inr (.inr ⟨ha, h0⟩)))) (Bool.eq_false_iff.1 h)
    rw [F32.div_of_finite (F32.finite_of_mag_zero ha) hb hne, ha, Nat.zero_mul, round_zero (Nat.pos_of_ne_zero hne),
      F32.mag_pack_zero]

/-! ### ONE ± α -/

section UnitySum

variable {al : Word} (hfin : F32.isFinite al = true) (hnn : 0 ≤ F32.val al)

theorem F32.val_one : F32.val F32.one = 2 ^ 149 := by
  rw [F32.val, F32.sign_one, if_neg Bool.false_ne_true, F32.mag_one]
  norm_cast

include hfin in
/-- Neither the sum nor the difference of ONE and a finite word overflows. -/
theorem natAbs_one_add_lt {v : Int} (hv : v.natAbs = F32.mag al) :
    F32.round (F32.val F32.one + v).natAbs 1 < F32.infBits := by
  have hle := F32.magOf_le_of_lt ((F32.isFinite_iff al).1 hfin)
  rw [← F32.mag_eq] at hle
  rw [F32.round_lt_infBits_iff one_pos, F32.val_one, mul_one]
  omega

include hfin in
theorem isFinite_one_add (d : Nat) : F32.isFinite (F32.add d F32.one al) = true := by
  rw [F32.isFinite_iff, F32.low_add_of_finite F32.isFinite_one hfin]
  exact natAbs_one_add_lt hfin (F32.mag_eq_natAbs_val al).symm

include hfin in
theorem isFinite_one_sub (d : Nat) : F32.isFinite (F32.sub d F32.one al) = true := by
  rw [F32.isFinite_iff, F32.low_sub_of_finite F32.isFinite_one hfin]
  exact natAbs_one_add_lt hfin ((Int.natAbs_neg _).trans (F32.mag_eq_natAbs_val al).symm)

include hfin hnn in
theorem mag_one_le_one_add (d : Nat) : F32.mag F32.one ≤ F32.mag (F32.add d F32.one al) := by
  rw [F32.mag_eq, F32.mag_eq, F32.low_add_of_finite F32.isFinite_one hfin]
  refine F32.magOf_strictMono.monotone (F32.le_round_of_le one_pos ((F32.isFinite_iff _).1 F32.isFinite_one) ?_)
  rw [← F32.mag_eq, F32.mag_eq_natAbs_val, mul_one, F32.val_one]
  omega

include hfin hnn in
theorem mag_one_sub_le (d d' : Nat) : F32.mag (F32.sub d F32.one al) ≤ F32.mag (F32.add d' F32.one al) := by
  rw [F32.mag_eq, F32.mag_eq, F32.low_add_of_finite F32.isFinite_one hfin, F32.low_sub_of_finite F32.isFinite_one hfin]
  refine F32.magOf_strictMono.monotone (F32.round_mono one_pos one_pos ?_)
  rw [F32.val_one]
  omega

end UnitySum

/-! ### The bell -/

theorem F32.val_of_sign {w : Word} (h : F32.sign w = false) : F32.val w = F32.mag w := by
  rw [F32.val, if_neg (by rw [h]; exact Bool.false_ne_true)]

/-- A number that is not negative, over a positive one, is not negative. -/
theorem F32.div_nonneg {d : Nat} {a b : Word} (h : F32.isNaN (F32.div d a b) = false) (ha : 0 ≤ F32.val a)
    (hb : F32.sign b = false) : 0 ≤ F32.val (F32.div d a b) := by
  have hsign := F32.sign_div h
  rw [hb, Bool.bne_false] at hsign
  cases hs : F32.sign a with
  | false =>
    rw [F32.val_of_sign (hsign.trans hs)]
    exact Int.natCast_nonneg _
  | true =>
    have hzero : F32.mag a = 0 := by
      rw [F32.val, if_pos hs] at ha
      omega
    rw [(F32.val_eq_zero_iff _).2 (F32.mag_div_of_zero h hzero)]

/-- α is not negative where it is finite, for a sine that is not negative and a positive quality. -/
theorem alpha_nonneg {d : Nat} {sn q : Word} (hsn : 0 ≤ F32.val sn) (hq : Positive q)
    (hfin : F32.isFinite (F32.div (d + 2) sn (F32.mul (d + 1) F32.two q)) = true) :
    0 ≤ F32.val (F32.div (d + 2) sn (F32.mul (d + 1) F32.two q)) := by
  have hnan := (F32.not_nan_of_finite hfin).1
  refine F32.div_nonneg hnan hsn ?_
  rw [F32.sign_mul (F32.not_nan_of_div hnan).2, hq.sign]
  decide

/-- A frequency that passes VALIDATE gives an argument in the range column. -/
theorem inHalf_of_lt_half {d : Nat} {f fs : Word} (hf : Positive f) (hfs : Positive fs)
    (h : F32.lt f (F32.mul d fs F32.half) = true) : Elem.inHalf (F32.div d f fs) = true := by
  obtain ⟨hfin, hsign, hle⟩ := nyquistKeepsBelowHalf d f fs hf hfs h
  have hlow : F32.low (F32.div d f fs) < F32.low F32.half := ((Nat.mod_le _ _).trans hle).trans_lt (by decide)
  rw [inHalf_iff, F32.val_of_sign hsign]
  refine ⟨hfin, Int.natCast_nonneg _, ?_⟩
  have hmag := F32.magOf_strictMono hlow
  rw [← F32.mag_eq, ← F32.mag_eq, F32.mag_half] at hmag
  exact_mod_cast hmag

section UnityBellGenerated

variable {d : Nat} {e : Elem Word} {fs f q g : Word}

/-- The bell's coefficients where A is ONE and α is finite. -/
theorem bellCoef_of_unity (hA : e.db40 g = F32.one) {al : Word}
    (hal : F32.div (d + 2) (e.sin2pi (F32.div d f fs)) (F32.mul (d + 1) F32.two q) = al) (hfin : F32.isFinite al = true) :
    bellCoef (f32 e) d fs f q g =
      { b0 := F32.div (d + 8) (F32.add (d + 7) F32.one al) (F32.add (d + 5) F32.one al)
        b1 := F32.div (d + 9) (F32.mul (d + 6) F32.negTwo (e.cos2pi (F32.div d f fs))) (F32.add (d + 5) F32.one al)
        b2 := F32.div (d + 11) (F32.sub (d + 10) F32.one al) (F32.add (d + 5) F32.one al)
        a1 := F32.div (d + 9) (F32.mul (d + 6) F32.negTwo (e.cos2pi (F32.div d f fs))) (F32.add (d + 5) F32.one al)
        a2 := F32.div (d + 13) (F32.sub (d + 12) F32.one al) (F32.add (d + 5) F32.one al) } := by
  simp only [bellCoef, f32, hA, hal, F32.mul_one_of_finite hfin, F32.div_one_of_finite hfin]

end UnityBellGenerated

theorem F32.mag_two : F32.mag F32.two = 2 ^ 150 := by decide +kernel

theorem F32.finite_of_mag_le {a b : Word} (hb : F32.isFinite b = true) (h : F32.mag a ≤ F32.mag b) :
    F32.isFinite a = true :=
  F32.finite_of_mag_lt (h.trans_lt (F32.mag_lt_of_finite hb))

theorem F32.abs_val_le {w : Word} {n : Nat} (h : F32.mag w ≤ n) : |F32.val w| ≤ n := by
  rw [F32.mag_eq_natAbs_val] at h
  zify at h
  exact h

/-- Settles O53: at ±0 dB DB40 is ONE, so that α·A and α/A are both α, and the bell divides `1 + α` by itself. -/
theorem unityBellCoefficients : Obligations.UnityBellCoefficients := by
  intro e d fs f q g hfs hf hq hlt hg hg0 hfin
  have hw := inHalf_of_lt_half hf hfs hlt
  obtain ⟨hcsFin, hcs⟩ := (cos2pi_meets e hw).1
  have hnn := alpha_nonneg (sin2pi_meets e hw).1.2 hq hfin
  rw [bellCoef_of_unity (db40_of_zero e hg hg0) rfl hfin]
  generalize (Elem.ofChoice e).cos2pi (F32.div d f fs) = cs at hcsFin hcs
  generalize F32.div (d + 2) _ (F32.mul (d + 1) F32.two q) = al at hfin hnn
  have ha0 := isFinite_one_add hfin (d + 5)
  have hone := mag_one_le_one_add hfin hnn (d + 5)
  have hne : F32.mag (F32.add (d + 5) F32.one al) ≠ 0 := by rw [F32.mag_one] at hone; omega
  have hm2c : F32.mag (F32.mul (d + 6) F32.negTwo cs) ≤ F32.mag F32.two :=
    F32.mag_mul_le (by decide) hcsFin (by decide) (Nat.mul_le_mul_left _ (F32.mag_le_of_abs_val_le hcs))
  have hb1 : F32.mag (F32.div (d + 9) (F32.mul (d + 6) F32.negTwo cs) (F32.add (d + 5) F32.one al)) ≤ F32.mag F32.two :=
    F32.mag_div_le (F32.finite_of_mag_le (by decide) hm2c) ha0 (by decide) hne
      (Nat.mul_le_mul hm2c (F32.mag_one ▸ hone))
  have hb2 : F32.mag (F32.div (d + 11) (F32.sub (d + 10) F32.one al) (F32.add (d + 5) F32.one al)) ≤ F32.mag F32.one := by
    refine F32.mag_div_le (isFinite_one_sub hfin _) ha0 F32.isFinite_one hne ?_
    rw [F32.mag_one, Nat.mul_comm]
    exact Nat.mul_le_mul_left _ (mag_one_sub_le hfin hnn _ _)
  refine ⟨?_, rfl, ?_, (F32.abs_val_le hb1).trans_eq (by rw [F32.mag_two]; norm_cast),
    (F32.abs_val_le hb2).trans_eq (by rw [F32.mag_one]; norm_cast)⟩
  · rw [F32.add_draw (F32.not_nan_of_finite ha0).1 (d + 7)]
    exact F32.div_self_of_finite ha0 hne
  · have hsub : F32.sub (d + 12) F32.one al = F32.sub (d + 10) F32.one al :=
      F32.add_draw (F32.not_nan_of_finite (isFinite_one_sub hfin (d + 10))).1 _
    rw [hsub, F32.div_draw (F32.not_nan_of_finite (F32.finite_of_mag_le F32.isFinite_one hb2)).1 (d + 13)]

end Sys2Proof.Machine
end

section
/-! The model's datapath and coefficient generator under REAL (42_stage_bank_chain.md R141, 41_coefficient_generator.md
R127, 93_implementation_defined.md G6). -/

namespace Sys2Proof.Machine

/-! ### The difference equation -/

section Run

variable (c : Coef ℝ) (x : Nat → ℝ)

@[simp] theorem stageRun_coef (n : Nat) : (stageRun c x n).coef = c := by
  induction n with
  | zero => rfl
  | succ n ih => exact ih

theorem stageOutput_eq (n : Nat) : stageOutput c x n = c.b0 * x n + (stageRun c x n).z1 :=
  congrArg (fun k : Coef ℝ => k.b0 * x n + (stageRun c x n).z1) (stageRun_coef c x n)

@[simp] theorem stageRun_succ_z1 (n : Nat) :
    (stageRun c x (n + 1)).z1 = c.b1 * x n - c.a1 * stageOutput c x n + (stageRun c x n).z2 :=
  congrArg (fun k : Coef ℝ => k.b1 * x n - k.a1 * stageOutput c x n + (stageRun c x n).z2) (stageRun_coef c x n)

@[simp] theorem stageRun_succ_z2 (n : Nat) : (stageRun c x (n + 1)).z2 = c.b2 * x n - c.a2 * stageOutput c x n :=
  congrArg (fun k : Coef ℝ => k.b2 * x n - k.a2 * stageOutput c x n) (stageRun_coef c x n)

@[simp] theorem stageRun_zero_z1 : (stageRun c x 0).z1 = 0 := rfl

@[simp] theorem stageRun_zero_z2 : (stageRun c x 0).z2 = 0 := rfl

/-- The registers before sample `n` are those the two samples before it leave (R141). -/
theorem stageRun_registers (n : Nat) :
    (stageRun c x n).z1 = c.b1 * (if 1 ≤ n then x (n - 1) else 0) + c.b2 * (if 2 ≤ n then x (n - 2) else 0) -
        c.a1 * (if 1 ≤ n then stageOutput c x (n - 1) else 0) - c.a2 * (if 2 ≤ n then stageOutput c x (n - 2) else 0) ∧
      (stageRun c x n).z2 =
        c.b2 * (if 1 ≤ n then x (n - 1) else 0) - c.a2 * (if 1 ≤ n then stageOutput c x (n - 1) else 0) := by
  match n with
  | 0 => simp
  | 1 => simp
  | n + 2 =>
    refine ⟨?_, by simp⟩
    simp only [stageRun_succ_z1, stageRun_succ_z2, Nat.le_add_left, if_true, Nat.add_sub_cancel,
      Nat.reduceSubDiff]
    ring

end Run

/-- Settles O57: the output adds the first register to `b0·x`. -/
theorem realStageIsDifferenceEquation : Obligations.RealStageIsDifferenceEquation := by
  intro c x n y x1 x2 y1 y2
  obtain ⟨hz1, hz2⟩ := stageRun_registers c x n
  refine ⟨?_, hz1, hz2⟩
  rw [show y n = c.b0 * x n + (stageRun c x n).z1 from stageOutput_eq c x n, hz1]
  ring

end Sys2Proof.Machine
end

section
/-! The sections of a Butterworth bank under REAL (41_coefficient_generator.md R127 (a), (b)). -/

namespace Sys2Proof.Machine

/-! ### QINV under REAL -/

/-- The angle of a constant: `QINV[N][k] = 2·cos(qinvAngle N k)`. -/
noncomputable def qinvAngle (N k : Nat) : ℝ := (2 * (k : ℝ) + 1) * Real.pi / (4 * (N : ℝ))

theorem qinvReal_eq {N : Nat} (h1 : 1 ≤ N) (h4 : N ≤ 4) :
    qinvReal N = (List.range N).map fun k => 2 * Real.cos (qinvAngle N k) := if_pos ⟨h1, h4⟩

theorem qinvAngle_pos {N k : Nat} (hN : 0 < N) : 0 < qinvAngle N k := by
  unfold qinvAngle
  positivity

theorem qinvAngle_lt {N k : Nat} (hk : k < N) : qinvAngle N k < Real.pi / 2 := by
  have hN : (0 : ℝ) < N := by exact_mod_cast Nat.zero_lt_of_lt hk
  have hk' : (k : ℝ) + 1 ≤ N := by exact_mod_cast hk
  rw [qinvAngle, div_lt_div_iff₀ (by positivity) two_pos]
  nlinarith [Real.pi_pos]

theorem qinvReal_bounds {N : Nat} {iq : ℝ} (h : iq ∈ qinvReal N) : 0 < iq ∧ iq < 2 := by
  unfold qinvReal at h
  split_ifs at h with hN
  · obtain ⟨k, hk, rfl⟩ := List.mem_map.1 h
    have hpos : 0 < qinvAngle N k := qinvAngle_pos hN.1
    have hlt := qinvAngle_lt (List.mem_range.1 hk)
    have hcos : 0 < Real.cos (qinvAngle N k) := Real.cos_pos_of_mem_Ioo ⟨by linarith, hlt⟩
    have hcos1 : Real.cos (qinvAngle N k) < Real.cos 0 :=
      Real.cos_lt_cos_of_nonneg_of_le_pi_div_two le_rfl hlt.le hpos
    rw [Real.cos_zero] at hcos1
    unfold qinvAngle at hcos hcos1
    constructor <;> linarith
  · simp at h

/-! ### One section -/

/-- BW_SECTION in exact arithmetic, by the tangent `K` and its constant `iq`. -/
noncomputable def realSection (kind : Kind) (K iq : ℝ) : Coef ℝ :=
  let D := 1 + K * iq + K * K
  match kind with
  | .lp =>
    { b0 := K ^ 2 / D, b1 := 2 * (K ^ 2 / D), b2 := K ^ 2 / D, a1 := 2 * (K ^ 2 - 1) / D, a2 := (1 - K * iq + K ^ 2) / D }
  | .hp => { b0 := 1 / D, b1 := -2 * (1 / D), b2 := 1 / D, a1 := 2 * (K ^ 2 - 1) / D, a2 := (1 - K * iq + K ^ 2) / D }

section Section

variable {K iq : ℝ} (hK : 0 < K) (hiq : 0 < iq)
include hK hiq

theorem realSection_divisor_pos : 0 < 1 + K * iq + K * K := by positivity

theorem bwSection_real {w : ℝ} (hw : elemReal.tanpi w = K) (d : Nat) (kind : Kind) :
    bwSection realNum d kind w iq = realSection kind K iq := by
  have hdiv : realDiv 1 (1 + K * iq + K * K) = 1 / (1 + K * iq + K * K) :=
    realDiv_of_ne (realSection_divisor_pos hK hiq).ne'
  cases kind with
  | lp =>
    simp only [bwSection, realSection, realNum, hw, hdiv, Coef.mk.injEq]
    refine ⟨?_, ?_, ?_, ?_, ?_⟩ <;> ring
  | hp =>
    simp only [bwSection, realSection, realNum, hw, hdiv, Coef.mk.injEq, true_and]
    constructor <;> ring

/-- The poles of a section lie within the unit circle: its denominator's coefficients and its values at ±1 (R127 (a)). -/
theorem realSection_stable (hiq2 : iq < 2) (kind : Kind) :
    0 < (realSection kind K iq).a2 ∧ (realSection kind K iq).a2 < 1 ∧
      1 + (realSection kind K iq).a1 + (realSection kind K iq).a2 = 4 * K ^ 2 * (1 / (1 + K * iq + K * K)) ∧
      1 - (realSection kind K iq).a1 + (realSection kind K iq).a2 = 4 * (1 / (1 + K * iq + K * K)) := by
  have hD := realSection_divisor_pos hK hiq
  have ha1 : (realSection kind K iq).a1 = 2 * (K ^ 2 - 1) / (1 + K * iq + K * K) := by cases kind <;> rfl
  have ha2 : (realSection kind K iq).a2 = (1 - K * iq + K ^ 2) / (1 + K * iq + K * K) := by cases kind <;> rfl
  rw [ha1, ha2]
  refine ⟨div_pos ?_ hD, (div_lt_one hD).2 ?_, ?_, ?_⟩
  · nlinarith [sq_nonneg (1 - K), mul_pos hK (sub_pos.2 hiq2)]
  · nlinarith [mul_pos hK hiq]
  · field_simp
    ring
  · field_simp
    ring

theorem realLowpass_gain (hiq2 : iq < 2) :
    ((realSection .lp K iq).b0 + (realSection .lp K iq).b1 + (realSection .lp K iq).b2) /
      (1 + (realSection .lp K iq).a1 + (realSection .lp K iq).a2) = 1 := by
  have hD := realSection_divisor_pos hK hiq
  obtain ⟨-, -, hdc, -⟩ := realSection_stable hK hiq hiq2 .lp
  have hnum : (realSection .lp K iq).b0 + (realSection .lp K iq).b1 + (realSection .lp K iq).b2 =
      4 * K ^ 2 * (1 / (1 + K * iq + K * K)) := by
    simp only [realSection]
    ring
  rw [hdc, hnum, div_self (by positivity)]

theorem realHighpass_gain (hiq2 : iq < 2) :
    ((realSection .hp K iq).b0 - (realSection .hp K iq).b1 + (realSection .hp K iq).b2) /
      (1 - (realSection .hp K iq).a1 + (realSection .hp K iq).a2) = 1 := by
  have hD := realSection_divisor_pos hK hiq
  obtain ⟨-, -, -, hny⟩ := realSection_stable hK hiq hiq2 .hp
  have hnum : (realSection .hp K iq).b0 - (realSection .hp K iq).b1 + (realSection .hp K iq).b2 =
      4 * (1 / (1 + K * iq + K * K)) := by
    simp only [realSection]
    ring
  rw [hny, hnum, div_self (by positivity)]

end Section

/-- The tangent of a frequency below half the rate. -/
theorem tanpi_pos {f fs : ℝ} (hf : 0 < f) (hlt : f < fs / 2) :
    elemReal.tanpi (f / fs) = Real.tan (Real.pi * (f / fs)) ∧ 0 < Real.tan (Real.pi * (f / fs)) := by
  have hfs : 0 < fs := by linarith
  have hw : f / fs < 1 / 2 := by rw [div_lt_div_iff₀ hfs two_pos]; linarith
  have hw0 : 0 < f / fs := div_pos hf hfs
  exact ⟨elemReal_tanpi hw0.le hw,
    Real.tan_pos_of_pos_of_lt_pi_div_two (mul_pos Real.pi_pos hw0) (by nlinarith [Real.pi_pos])⟩

/-- Settles O58: the values of the numerator and the denominator at ±1. -/
theorem realSectionsStableWithUnitGain : Obligations.RealSectionsStableWithUnitGain := by
  intro N f fs iq _ _ hf hlt hmem K norm
  obtain ⟨hiq, hiq2⟩ := qinvReal_bounds hmem
  obtain ⟨htan, hK⟩ := tanpi_pos hf hlt
  have hD := realSection_divisor_pos hK hiq
  simp only [bwSection_real hK hiq htan]
  refine ⟨fun kind => ?_, ⟨realLowpass_gain hK hiq hiq2, rfl, rfl⟩, realHighpass_gain hK hiq hiq2, rfl, rfl⟩
  obtain ⟨ha2, ha2', hdc, hny⟩ := realSection_stable hK hiq hiq2 kind
  exact ⟨ha2, ha2', hdc, hdc ▸ by positivity, hny, hny ▸ by positivity⟩

end Sys2Proof.Machine
end

section
/-! Frequency responses under REAL: the Butterworth cascade and the bell at its centre (41_coefficient_generator.md R127 (c),
(d); 93_implementation_defined.md G6). -/

namespace Sys2Proof.Machine

/-! ### The squared magnitude of a section -/

/-- The squared magnitude of `b·z + m + c·z⁻¹` on the unit circle, at the angle `ω`. -/
noncomputable def circleSq (b m c ω : ℝ) : ℝ := ((b + c) * Real.cos ω + m) ^ 2 + ((b - c) * Real.sin ω) ^ 2

theorem normSq_circle (b m c ω : ℝ) :
    Complex.normSq ((b : ℂ) + m * Complex.exp (-(ω : ℝ) * Complex.I) + c * Complex.exp (-(ω : ℝ) * Complex.I) ^ 2) =
      circleSq b m c ω := by
  have hexp : Complex.exp (-(ω : ℝ) * Complex.I) = ⟨Real.cos ω, -Real.sin ω⟩ := by
    rw [← Complex.ofReal_neg]
    apply Complex.ext
    · rw [Complex.exp_ofReal_mul_I_re, Real.cos_neg]
    · rw [Complex.exp_ofReal_mul_I_im, Real.sin_neg]
  rw [hexp, Complex.normSq_apply, circleSq]
  simp only [pow_two, Complex.add_re, Complex.add_im, Complex.mul_re, Complex.mul_im, Complex.ofReal_re, Complex.ofReal_im]
  linear_combination (-b ^ 2 + m ^ 2 + c ^ 2 * (Real.sin ω ^ 2 + Real.cos ω ^ 2) + 2 * m * c * Real.cos ω) *
    Real.sin_sq_add_cos_sq ω

theorem normSq_response (c : Coef ℝ) (x fs : ℝ) :
    Complex.normSq (c.response x fs) =
      circleSq c.b0 c.b1 c.b2 (2 * Real.pi * (x / fs)) / circleSq 1 c.a1 c.a2 (2 * Real.pi * (x / fs)) := by
  rw [← normSq_circle, ← normSq_circle, ← Complex.normSq_div]
  simp only [Coef.response, Coef.transfer, Complex.ofReal_one]

/-! ### The bell at its centre -/

/-- The bell's coefficients in exact arithmetic, over their common divisor. -/
theorem bellCoef_real {fs f q g ω A α : ℝ} (hfs : fs ≠ 0) (hq : 0 < q) (hω : 2 * Real.pi * (f / fs) = ω)
    (hA : (10 : ℝ) ^ (g / 40) = A) (hα : Real.sin ω / (2 * q) = α) (hsin : 0 < Real.sin ω) :
    bellCoef realNum 0 fs f q g =
      { b0 := (1 + α * A) / (1 + α / A), b1 := -2 * Real.cos ω / (1 + α / A), b2 := (1 - α * A) / (1 + α / A)
        a1 := -2 * Real.cos ω / (1 + α / A), a2 := (1 - α / A) / (1 + α / A) } := by
  have hApos : 0 < A := hA ▸ Real.rpow_pos_of_pos (by norm_num) _
  have hαpos : 0 < α := hα ▸ div_pos hsin (by positivity)
  have ha0 : 1 + α / A ≠ 0 := by positivity
  have hal : realDiv (Real.sin ω) (2 * q) = α := (realDiv_of_ne (by positivity)).trans hα
  simp only [bellCoef, realNum, elemReal, realDiv_of_ne hfs, hω, hA, hal, realDiv_of_ne hApos.ne', realDiv_of_ne ha0]

/-- On the unit circle at its own angle a bell's numerator or denominator keeps its sine term. -/
theorem circleSq_bell (p a ω : ℝ) :
    circleSq ((1 + p) / a) (-2 * Real.cos ω / a) ((1 - p) / a) ω = (2 * p * Real.sin ω / a) ^ 2 := by
  unfold circleSq
  ring

/-- Settles O60: at the centre the numerator is `2·α·A·sin ω` and the denominator `2·(α/A)·sin ω` in magnitude. -/
theorem realBellCentreGain : Obligations.RealBellCentreGain := by
  intro fs f q g hf hlt hq
  have hfs : 0 < fs := by linarith
  have hsin : 0 < Real.sin (2 * Real.pi * (f / fs)) := by
    have hw : f / fs < 1 / 2 := by rw [div_lt_div_iff₀ hfs two_pos]; linarith
    exact Real.sin_pos_of_pos_of_lt_pi (by positivity) (by nlinarith [Real.pi_pos])
  have hA : 0 < (10 : ℝ) ^ (g / 40) := Real.rpow_pos_of_pos (by norm_num) _
  rw [normSq_response, bellCoef_real hfs.ne' hq rfl rfl rfl hsin]
  simp only
  generalize 2 * Real.pi * (f / fs) = ω at hsin
  generalize (10 : ℝ) ^ (g / 40) = A at hA
  have hα : 0 < Real.sin ω / (2 * q) := by positivity
  generalize Real.sin ω / (2 * q) = α at hα
  have hunit : (1 : ℝ) = (1 + α / A) / (1 + α / A) := (div_self (by positivity)).symm
  have hden : circleSq 1 (-2 * Real.cos ω / (1 + α / A)) ((1 - α / A) / (1 + α / A)) ω =
      (2 * (α / A) * Real.sin ω / (1 + α / A)) ^ 2 := by
    rw [← circleSq_bell, ← hunit]
  rw [circleSq_bell, hden]
  have ha0 : 0 < 1 + α / A := by positivity
  generalize 1 + α / A = a0 at ha0
  field_simp

end Sys2Proof.Machine
end

section
/-! The Butterworth magnitude of a cascade under REAL (41_coefficient_generator.md R127 (c), (d)). -/

namespace Sys2Proof.Machine

/-! ### Twice the angles of the constants -/

/-- `2·cos(2·qinvAngle N k)`, `k` ascending. -/
noncomputable def qinvDouble : Nat → List ℝ
  | 1 => [0]
  | 2 => [√2, -√2]
  | 3 => [√3, 0, -√3]
  | 4 => [√(2 + √2), √(2 - √2), -√(2 - √2), -√(2 + √2)]
  | _ => []

theorem two_mul_qinvAngle (N k : Nat) : 2 * qinvAngle N k = (2 * (k : ℝ) + 1) * Real.pi / (2 * (N : ℝ)) := by
  rw [qinvAngle]
  ring

/-- The doubled angles of a bank lie symmetrically about the right angle. -/
theorem cos_two_qinvAngle_symm {N k j : Nat} (h : k + j + 1 = N) :
    Real.cos (2 * qinvAngle N j) = -Real.cos (2 * qinvAngle N k) := by
  subst h
  rw [← Real.cos_pi_sub, two_mul_qinvAngle, two_mul_qinvAngle]
  congr 1
  push_cast
  field_simp
  ring

theorem qinvDouble_eq {N : Nat} (h1 : 1 ≤ N) (h4 : N ≤ 4) :
    (List.range N).map (fun k => 2 * Real.cos (2 * qinvAngle N k)) = qinvDouble N := by
  have hright : 2 * qinvAngle 1 0 = Real.pi / 2 := by rw [two_mul_qinvAngle]; push_cast; ring
  have hright3 : 2 * qinvAngle 3 1 = Real.pi / 2 := by rw [two_mul_qinvAngle]; push_cast; ring
  have h2 : 2 * qinvAngle 2 0 = Real.pi / 4 := by rw [two_mul_qinvAngle]; push_cast; ring
  have h3 : 2 * qinvAngle 3 0 = Real.pi / 6 := by rw [two_mul_qinvAngle]; push_cast; ring
  have h40 : 2 * qinvAngle 4 0 = Real.pi / 8 := by rw [two_mul_qinvAngle]; push_cast; ring
  have h41 : 2 * qinvAngle 4 1 = Real.pi / 2 - Real.pi / 8 := by rw [two_mul_qinvAngle]; push_cast; ring
  interval_cases N
  · simp [List.range_succ, qinvDouble, hright]
  · simp [List.range_succ, qinvDouble, cos_two_qinvAngle_symm (N := 2) (k := 0) (j := 1) rfl, h2, mul_div_cancel₀]
  · simp [List.range_succ, qinvDouble, cos_two_qinvAngle_symm (N := 3) (k := 0) (j := 2) rfl, h3, hright3, mul_div_cancel₀]
  · simp [List.range_succ, qinvDouble, cos_two_qinvAngle_symm (N := 4) (k := 0) (j := 3) rfl,
      cos_two_qinvAngle_symm (N := 4) (k := 1) (j := 2) rfl, h40, h41, Real.cos_pi_div_two_sub,
      mul_div_cancel₀]

/-! ### One section -/

/-- What a section divides by: the factor of the Butterworth polynomial of its constant, at the frequency ratio `r`. -/
noncomputable def butterworthFactor (r iq : ℝ) : ℝ := (1 - r ^ 2) ^ 2 + (iq * r) ^ 2

section Section

variable {K iq t ω : ℝ} (hK : 0 < K) (hiq : 0 < iq) (hcos : Real.cos ω = (1 - t ^ 2) / (1 + t ^ 2))
  (hsin : Real.sin ω = 2 * t / (1 + t ^ 2))
include hK hiq hcos hsin

/-- A section's denominator, by the tangent `t` of half the angle. -/
theorem circleSq_denominator (kind : Kind) :
    circleSq 1 (realSection kind K iq).a1 (realSection kind K iq).a2 ω =
      (4 / ((1 + K * iq + K * K) * (1 + t ^ 2))) ^ 2 * ((K ^ 2 - t ^ 2) ^ 2 + (iq * t * K) ^ 2) := by
  have hD := realSection_divisor_pos hK hiq
  have ha1 : (realSection kind K iq).a1 = 2 * (K ^ 2 - 1) / (1 + K * iq + K * K) := by cases kind <;> rfl
  have ha2 : (realSection kind K iq).a2 = (1 - K * iq + K ^ 2) / (1 + K * iq + K * K) := by cases kind <;> rfl
  rw [circleSq, hcos, hsin, ha1, ha2]
  field_simp
  ring

theorem lowpass_sq : circleSq (realSection .lp K iq).b0 (realSection .lp K iq).b1 (realSection .lp K iq).b2 ω /
      circleSq 1 (realSection .lp K iq).a1 (realSection .lp K iq).a2 ω = (butterworthFactor (t / K) iq)⁻¹ := by
  have hD := realSection_divisor_pos hK hiq
  have hnum : circleSq (realSection .lp K iq).b0 (realSection .lp K iq).b1 (realSection .lp K iq).b2 ω =
      (4 / ((1 + K * iq + K * K) * (1 + t ^ 2))) ^ 2 * K ^ 4 := by
    rw [circleSq, hcos, hsin]
    simp only [realSection]
    field_simp
    ring
  have hfactor : butterworthFactor (t / K) iq = ((K ^ 2 - t ^ 2) ^ 2 + (iq * t * K) ^ 2) / K ^ 4 := by
    rw [butterworthFactor]
    field_simp
  rw [circleSq_denominator hK hiq hcos hsin, hnum, mul_div_mul_left _ _ (by positivity), hfactor, inv_div]

theorem highpass_sq : circleSq (realSection .hp K iq).b0 (realSection .hp K iq).b1 (realSection .hp K iq).b2 ω /
      circleSq 1 (realSection .hp K iq).a1 (realSection .hp K iq).a2 ω =
        t ^ 4 / ((K ^ 2 - t ^ 2) ^ 2 + (iq * t * K) ^ 2) := by
  have hD := realSection_divisor_pos hK hiq
  have hnum : circleSq (realSection .hp K iq).b0 (realSection .hp K iq).b1 (realSection .hp K iq).b2 ω =
      (4 / ((1 + K * iq + K * K) * (1 + t ^ 2))) ^ 2 * t ^ 4 := by
    rw [circleSq, hcos, hsin]
    simp only [realSection]
    field_simp
    ring
  rw [circleSq_denominator hK hiq hcos hsin, hnum, mul_div_mul_left _ _ (by positivity)]

end Section

theorem highpass_factor {K t : ℝ} (ht : t ≠ 0) (iq : ℝ) :
    t ^ 4 / ((K ^ 2 - t ^ 2) ^ 2 + (iq * t * K) ^ 2) = (butterworthFactor (K / t) iq)⁻¹ := by
  have hfactor : butterworthFactor (K / t) iq = ((K ^ 2 - t ^ 2) ^ 2 + (iq * t * K) ^ 2) / t ^ 4 := by
    rw [butterworthFactor]
    field_simp
    ring
  rw [hfactor, inv_div]

/-! ### The polynomial -/

theorem butterworthFactor_two_cos (r θ : ℝ) :
    butterworthFactor r (2 * Real.cos θ) = 1 + 2 * Real.cos (2 * θ) * r ^ 2 + r ^ 4 := by
  rw [butterworthFactor, Real.cos_two_mul]
  ring

theorem prod_butterworthFactor {N : Nat} (h1 : 1 ≤ N) (h4 : N ≤ 4) (r : ℝ) :
    ((qinvReal N).map (butterworthFactor r)).prod = 1 + r ^ (4 * N) := by
  have hdouble : (qinvReal N).map (butterworthFactor r) = (qinvDouble N).map fun a => 1 + a * r ^ 2 + r ^ 4 := by
    rw [← qinvDouble_eq h1 h4, qinvReal_eq h1 h4, List.map_map, List.map_map]
    exact List.map_congr_left fun k _ => butterworthFactor_two_cos r _
  have hsqrt2 : √(2 : ℝ) ^ 2 = 2 := Real.sq_sqrt two_pos.le
  rw [hdouble]
  interval_cases N
  · simp [qinvDouble]
  · simp only [qinvDouble, List.map_cons, List.map_nil, List.prod_cons, List.prod_nil]
    linear_combination (-r ^ 4) * hsqrt2
  · have hsqrt3 : √(3 : ℝ) ^ 2 = 3 := Real.sq_sqrt three_pos.le
    simp only [qinvDouble, List.map_cons, List.map_nil, List.prod_cons, List.prod_nil]
    linear_combination (-r ^ 4 * (1 + r ^ 4)) * hsqrt3
  · have hlt : √(2 : ℝ) < 2 := by nlinarith [Real.sqrt_nonneg (2 : ℝ)]
    have hplus : √(2 + √(2 : ℝ)) ^ 2 = 2 + √2 := Real.sq_sqrt (by positivity)
    have hminus : √(2 - √(2 : ℝ)) ^ 2 = 2 - √2 := Real.sq_sqrt (by linarith)
    simp only [qinvDouble, List.map_cons, List.map_nil, List.prod_cons, List.prod_nil]
    generalize √(2 + √(2 : ℝ)) = p at hplus
    generalize √(2 - √(2 : ℝ)) = m at hminus
    generalize √(2 : ℝ) = s at hsqrt2 hplus hminus
    linear_combination (-r ^ 4 * ((1 + r ^ 4) ^ 2 - m ^ 2 * r ^ 4)) * hplus +
      (-r ^ 4 * ((1 + r ^ 4) ^ 2 - (2 + s) * r ^ 4)) * hminus + (-r ^ 8) * hsqrt2

/-! ### The cascade -/

theorem bwSections_real {K w : ℝ} (hK : 0 < K) (hw : elemReal.tanpi w = K) (kind : Kind) (l : List ℝ)
    (hl : ∀ iq ∈ l, 0 < iq) (d : Nat) : bwSections realNum d kind w l = l.map (realSection kind K) := by
  induction l generalizing d with
  | nil => rfl
  | cons iq l ih =>
    rw [bwSections, bwSection_real hK (hl iq List.mem_cons_self) hw, ih fun i hi => hl i (List.mem_cons_of_mem _ hi),
      List.map_cons]

theorem half_angle {x fs : ℝ} (hx : 0 ≤ x) (hlt : x < fs / 2) :
    Real.cos (2 * Real.pi * (x / fs)) =
        (1 - Real.tan (Real.pi * (x / fs)) ^ 2) / (1 + Real.tan (Real.pi * (x / fs)) ^ 2) ∧
      Real.sin (2 * Real.pi * (x / fs)) = 2 * Real.tan (Real.pi * (x / fs)) / (1 + Real.tan (Real.pi * (x / fs)) ^ 2) := by
  have hfs : 0 < fs := by linarith
  have hw : x / fs < 1 / 2 := by rw [div_lt_div_iff₀ hfs two_pos]; linarith
  have hw0 : 0 ≤ x / fs := div_nonneg hx hfs.le
  have hhalf : Real.pi * (x / fs) = 2 * Real.pi * (x / fs) / 2 := by ring
  have hcos : Real.cos (2 * Real.pi * (x / fs)) ≠ -1 := by
    rw [← Real.cos_pi]
    exact (Real.cos_lt_cos_of_nonneg_of_le_pi (by positivity) le_rfl (by nlinarith [Real.pi_pos])).ne'
  rw [hhalf]
  exact ⟨Real.cos_eq_two_mul_tan_half_div_one_sub_tan_half_sq _ hcos,
    Real.sin_eq_two_mul_tan_half_div_one_add_tan_half_sq _⟩

/-- The squared magnitude of a cascade whose sections give the inverses of the factors at the ratio `r`. -/
theorem prod_inv_butterworthFactor {N : Nat} (h1 : 1 ≤ N) (h4 : N ≤ 4) {r : ℝ} {g : ℝ → ℝ}
    (hg : ∀ iq ∈ qinvReal N, g iq = (butterworthFactor r iq)⁻¹) : ((qinvReal N).map g).prod = 1 / (1 + r ^ (4 * N)) := by
  rw [List.map_congr_left hg, ← prod_butterworthFactor h1 h4, one_div, List.prod_inv, List.map_map]
  rfl

section Cascade

variable {N : Nat} {f fs x : ℝ} (hf : 0 < f) (hlt : f < fs / 2)
include hf hlt

theorem bwCoef_real (kind : Kind) :
    bwCoef realNum 0 kind f fs N = (qinvReal N).map (realSection kind (Real.tan (Real.pi * (f / fs)))) := by
  obtain ⟨htan, hK⟩ := tanpi_pos hf hlt
  have hw : realNum.fdiv 0 f fs = f / fs := realDiv_of_ne (by linarith : 0 < fs).ne'
  rw [bwCoef, hw]
  exact bwSections_real hK htan kind _ (fun iq h => (qinvReal_bounds h).1) _

variable (h1 : 1 ≤ N) (h4 : N ≤ 4) (hx : 0 ≤ x) (hxlt : x < fs / 2)

include h1 h4 hx hxlt in
theorem cascadeSq_lp : cascadeSq (bwCoef realNum 0 .lp f fs N) x fs =
    1 / (1 + (Real.tan (Real.pi * (x / fs)) / Real.tan (Real.pi * (f / fs))) ^ (4 * N)) := by
  obtain ⟨hcos, hsin⟩ := half_angle hx hxlt
  rw [cascadeSq, bwCoef_real hf hlt, List.map_map]
  refine prod_inv_butterworthFactor h1 h4 fun iq hiq => ?_
  rw [Function.comp_apply, normSq_response]
  exact lowpass_sq (tanpi_pos hf hlt).2 (qinvReal_bounds hiq).1 hcos hsin

include hx hxlt in
theorem cascadeSq_hp_eq : cascadeSq (bwCoef realNum 0 .hp f fs N) x fs =
    ((qinvReal N).map fun iq => Real.tan (Real.pi * (x / fs)) ^ 4 /
      ((Real.tan (Real.pi * (f / fs)) ^ 2 - Real.tan (Real.pi * (x / fs)) ^ 2) ^ 2 +
        (iq * Real.tan (Real.pi * (x / fs)) * Real.tan (Real.pi * (f / fs))) ^ 2)).prod := by
  obtain ⟨hcos, hsin⟩ := half_angle hx hxlt
  rw [cascadeSq, bwCoef_real hf hlt, List.map_map]
  refine congrArg List.prod (List.map_congr_left fun iq hiq => ?_)
  rw [Function.comp_apply, normSq_response]
  exact highpass_sq (tanpi_pos hf hlt).2 (qinvReal_bounds hiq).1 hcos hsin

include h1 h4 hxlt in
theorem cascadeSq_hp (hx0 : 0 < x) : cascadeSq (bwCoef realNum 0 .hp f fs N) x fs =
    1 / (1 + (Real.tan (Real.pi * (f / fs)) / Real.tan (Real.pi * (x / fs))) ^ (4 * N)) := by
  rw [cascadeSq_hp_eq hf hlt hx0.le hxlt]
  exact prod_inv_butterworthFactor h1 h4 fun iq _ => highpass_factor (tanpi_pos hx0 hxlt).2.ne' iq

include h1 h4 in
theorem cascadeSq_hp_zero : cascadeSq (bwCoef realNum 0 .hp f fs N) 0 fs = 0 := by
  rw [cascadeSq_hp_eq hf hlt le_rfl (hf.trans hlt)]
  refine List.prod_eq_zero (List.mem_map.2 ⟨2 * Real.cos (qinvAngle N 0), ?_, by simp⟩)
  rw [qinvReal_eq h1 h4]
  exact List.mem_map_of_mem (List.mem_range.2 h1)

end Cascade

/-- Settles O59: each section gives the inverse of a factor, and the factors multiply to the Butterworth polynomial; at the
cutoff the ratio is 1. -/
theorem realCascadeIsButterworth : Obligations.RealCascadeIsButterworth := by
  intro N f fs x h1 h4 hf hlt hx hxlt
  have hratio : Real.tan (Real.pi * (f / fs)) / Real.tan (Real.pi * (f / fs)) = 1 := div_self (tanpi_pos hf hlt).2.ne'
  rw [mul_div_assoc, mul_div_assoc]
  refine ⟨cascadeSq_lp hf hlt h1 h4 hx hxlt, cascadeSq_hp hf hlt h1 h4 hxlt, cascadeSq_hp_zero hf hlt h1 h4, ?_, ?_⟩
  · rw [cascadeSq_lp hf hlt h1 h4 hf.le hlt, hratio]
    norm_num
  · rw [cascadeSq_hp hf hlt h1 h4 hlt hf, hratio]
    norm_num

end Sys2Proof.Machine
end

section
/-! The stored QINV words against their cosines (41_coefficient_generator.md R123). A constant is a nested square root, and
a rational number bounds such a root where its square bounds what stands under it. -/

namespace Sys2Proof.Machine

/-! ### Nested square roots -/

/-- The nested square roots the doubled angles of QINV have as cosines. -/
inductive Radical where
  | int (c : Int)
  | neg (r : Radical)
  | twoAdd (r : Radical)
  | sqrt (r : Radical)

namespace Radical

noncomputable def value : Radical → ℝ
  | int c => c
  | neg r => -r.value
  | twoAdd r => 2 + r.value
  | sqrt r => √r.value

/-- Integer arithmetic shows `q` times the number to lie between `lo` and `hi`. -/
def between : Radical → Int → Int → Int → Bool
  | int c, q, lo, hi => decide (lo ≤ q * c) && decide (q * c ≤ hi)
  | neg r, q, lo, hi => r.between q (-hi) (-lo)
  | twoAdd r, q, lo, hi => r.between q (lo - 2 * q) (hi - 2 * q)
  | sqrt r, q, lo, hi => decide (0 ≤ q) && decide (0 ≤ lo) && decide (0 ≤ hi) && r.between (q ^ 2) (lo ^ 2) (hi ^ 2)

theorem bounds_of_between {r : Radical} {q lo hi : Int} (h : r.between q lo hi = true) :
    (lo : ℝ) ≤ q * r.value ∧ q * r.value ≤ hi := by
  induction r generalizing q lo hi with
  | int c =>
    simp only [between, Bool.and_eq_true, decide_eq_true_eq] at h
    rw [value]
    exact_mod_cast h
  | neg r ih =>
    obtain ⟨hlo, hhi⟩ := ih h
    push_cast at hlo hhi
    rw [value]
    constructor <;> linarith
  | twoAdd r ih =>
    obtain ⟨hlo, hhi⟩ := ih h
    push_cast at hlo hhi
    rw [value]
    constructor <;> linarith
  | sqrt r ih =>
    simp only [between, Bool.and_eq_true, decide_eq_true_eq] at h
    obtain ⟨⟨⟨hq, hlo⟩, hhi⟩, hr⟩ := h
    obtain ⟨hsqlo, hsqhi⟩ := ih hr
    push_cast at hsqlo hsqhi
    have hq' : (0 : ℝ) ≤ q := by exact_mod_cast hq
    have hroot : q * √r.value = √((q : ℝ) ^ 2 * r.value) := by rw [Real.sqrt_mul (sq_nonneg _), Real.sqrt_sq hq']
    rw [value, hroot]
    exact ⟨Real.le_sqrt_of_sq_le hsqlo, Real.sqrt_le_iff.2 ⟨by exact_mod_cast hhi, hsqhi⟩⟩

end Radical

/-! ### The constants as nested square roots -/

/-- The cosines `2·cos(2·qinvAngle N k)` as nested square roots. -/
def qinvRadicals : Nat → List Radical
  | 1 => [.int 0]
  | 2 => [.sqrt (.int 2), .neg (.sqrt (.int 2))]
  | 3 => [.sqrt (.int 3), .int 0, .neg (.sqrt (.int 3))]
  | 4 =>
    [.sqrt (.twoAdd (.sqrt (.int 2))), .sqrt (.twoAdd (.neg (.sqrt (.int 2)))),
      .neg (.sqrt (.twoAdd (.neg (.sqrt (.int 2))))), .neg (.sqrt (.twoAdd (.sqrt (.int 2))))]
  | _ => []

theorem qinvRadicals_value {N : Nat} (h1 : 1 ≤ N) (h4 : N ≤ 4) :
    (qinvRadicals N).map Radical.value = (List.range N).map fun k => 2 * Real.cos (2 * qinvAngle N k) := by
  rw [qinvDouble_eq h1 h4]
  interval_cases N <;> simp [qinvRadicals, qinvDouble, Radical.value, sub_eq_add_neg]

theorem two_cos_eq_sqrt {θ : ℝ} (h : 0 ≤ Real.cos θ) : 2 * Real.cos θ = √(2 + 2 * Real.cos (2 * θ)) := by
  have hsq : 2 + 2 * Real.cos (2 * θ) = (2 * Real.cos θ) ^ 2 := by
    rw [Real.cos_two_mul]
    ring
  rw [hsq, Real.sqrt_sq (by linarith)]

/-! ### The words -/

/-- A word is a normal number, and the root of two more than a number lies within half a unit in its last place. -/
def wordFits (w : Word) (r : Radical) : Bool :=
  !F32.sign w && decide (1 ≤ F32.expField w) && decide (F32.expField w ≤ 150) &&
    (Radical.sqrt (.twoAdd r)).between (2 ^ (151 - F32.expField w)) (2 * (2 ^ 23 + F32.frac w) - 1)
      (2 * (2 ^ 23 + F32.frac w) + 1)

theorem nearest_of_wordFits {w : Word} {r : Radical} (h : wordFits w r = true) :
    |(F32.val w : ℝ) / 2 ^ 149 - √(2 + r.value)| ≤ (Elem.ulp w : ℝ) / 2 ^ 149 / 2 := by
  simp only [wordFits, Bool.and_eq_true, Bool.not_eq_true', decide_eq_true_eq] at h
  obtain ⟨⟨⟨hsign, hexp⟩, hexp'⟩, hbetween⟩ := h
  obtain ⟨hlo, hhi⟩ := Radical.bounds_of_between hbetween
  rw [Radical.value, Radical.value] at hlo hhi
  obtain ⟨s, hs⟩ := Nat.exists_eq_add_of_le hexp'
  have hval : F32.val w = (2 ^ 23 + F32.frac w) * 2 ^ (F32.expField w - 1) := by
    rw [F32.val_of_sign hsign, F32.mag, if_neg (by omega)]
    push_cast
    rfl
  have hscale : (2 : ℝ) ^ 149 = 2 ^ (F32.expField w - 1) * 2 ^ s := by
    rw [← pow_add]
    congr 1
    omega
  rw [show 151 - F32.expField w = s + 1 by omega] at hlo hhi
  rw [hval, Elem.ulp, hscale]
  push_cast at hlo hhi ⊢
  generalize √(2 + r.value) = X at hlo hhi
  generalize (F32.frac w : ℝ) = m at hlo hhi
  rw [mul_comm _ ((2 : ℝ) ^ (F32.expField w - 1)), mul_div_mul_left _ _ (by positivity),
    div_mul_cancel_left₀ (by positivity)]
  rw [pow_succ] at hlo hhi
  have hP : (0 : ℝ) < 2 ^ s := by positivity
  generalize (2 : ℝ) ^ s = P at hlo hhi hP
  rw [div_sub' hP.ne', abs_div, abs_of_pos hP, div_le_iff₀ hP, div_mul_eq_mul_div, inv_mul_cancel₀ hP.ne', abs_le]
  constructor <;> linarith

theorem qinvF32_fits : ∀ N ∈ [1, 2, 3, 4], ∀ p ∈ (qinvF32 N).zip (qinvRadicals N), wordFits p.1 p.2 = true := by
  decide +kernel

/-- Settles O56: integer arithmetic on the nested square roots bounds each word's error. -/
theorem qinvWordsAreNearest : Obligations.QinvWordsAreNearest := by
  intro N h1 h4
  have hlen : (qinvF32 N).length = N := by interval_cases N <;> rfl
  refine ⟨hlen, fun k w hw => ?_⟩
  have hk : k < N := hlen ▸ (List.getElem?_eq_some_iff.1 hw).1
  have hvalue : (qinvRadicals N)[k]?.map Radical.value = some (2 * Real.cos (2 * qinvAngle N k)) := by
    rw [← List.getElem?_map, qinvRadicals_value h1 h4, List.getElem?_map, List.getElem?_range hk, Option.map_some]
  obtain ⟨r, hr, hrv⟩ := Option.map_eq_some_iff.1 hvalue
  have hfit := qinvF32_fits N (by interval_cases N <;> decide) (w, r)
    (List.mem_of_getElem? (List.getElem?_zip_eq_some.2 ⟨hw, hr⟩))
  have hcos : 0 ≤ Real.cos (qinvAngle N k) :=
    Real.cos_nonneg_of_mem_Icc ⟨by linarith [qinvAngle_pos (k := k) h1, Real.pi_pos], (qinvAngle_lt hk).le⟩
  have hnear := nearest_of_wordFits hfit
  rw [hrv, ← two_cos_eq_sqrt hcos] at hnear
  exact hnear

end Sys2Proof.Machine
end
